-- ==== Sys2Proof/Word.lean ====
section
/-! DEFINITION. The 32-bit words of the two command ports and of the timer, and the W-bit samples of the buffer. -/

namespace Sys2Proof

/-- A 32-bit word: a command word, an operand word, a response, or one of the 32-bit registers (30_encoding.md R80,
10_state.md R26, R36, R37). -/
abbrev Word := BitVec 32

/-- A W-bit sample, held zero-extended to 32 bits (W <= 32, 00_scope.md R6). DESIGN CHOICE, log entry 4. -/
abbrev Sample := BitVec 32

/-- `ALL1`, the response of a faulting command (00_scope.md R7). -/
def all1 : Word := 0xFFFFFFFF

end Sys2Proof
end

