-- ==== Sys2Proof/Syntax.lean ====
section
/-! DEFINITION. The command set, revision 1: the two ports, the readback selectors and the eight commands of
spec/opcode_table.json (30_encoding.md). -/

namespace Sys2Proof

/-- The two command ports, and with them the two clock domains: the write port is clocked by `wclk`, the control port
by `rclk` (30_encoding.md R80). -/
inductive Port where
  | write
  | control
deriving DecidableEq, Repr, Inhabited

/-- One edge of a schedule (30_encoding.md R95): an edge of the clock of `port`, which consumes a command from that
port (`cmd = true`, the lines `W: <cmd>` and `R: <cmd>`) or none (the lines `W` and `R`). -/
structure Edge where
  port : Port
  cmd : Bool
deriving DecidableEq, Repr, Inhabited

/-- The RDW selectors 0 to 4 (30_encoding.md R88). -/
inductive WSel where
  | wptr
  | wpub
  | rptrW
  | wstatus
  | lastWerr
deriving DecidableEq, Repr

/-- The RDC selectors 0 to 13 (30_encoding.md R89). -/
inductive CSel where
  | status
  | rptr
  | rpub
  | wptrR
  | occR
  | freeR
  | pending
  | remaining
  | eaddr
  | tmrA
  | tmrB
  | tcnt
  | dout
  | lastCerr
deriving DecidableEq, Repr

/-- The commands, one constructor per row of spec/opcode_table.json (30_encoding.md R85). NOP is legal on both ports
and so carries the port that received it (log entry 13); FEED carries COUNT and its data words as they stand on the
port (R83), START its FREQ word (R84). -/
inductive Instr where
  | nop (p : Port)
  | feed (count : BitVec 28) (data : List Word)
  | rdfree
  | rdw (sel : WSel)
  | init
  | start (freq : Word)
  | stop
  | rdc (sel : CSel)
deriving DecidableEq, Repr

end Sys2Proof
end

