-- ==== Sys2Proof/Config.lean ====
section
/-! DEFINITION. The implementation parameters of 00_scope.md R6, and the free values: what the spec leaves open. -/

namespace Sys2Proof

/-- The constraints of 00_scope.md R6 on the parameters. -/
abbrev ParamsLegal (A W maxChunk sSync cpuHz initFreqHz : Nat) : Prop :=
  (1 ≤ A ∧ A ≤ 27) ∧ (1 ≤ W ∧ W ≤ 32) ∧ (1 ≤ maxChunk ∧ maxChunk ≤ 2 ^ A) ∧ 2 ≤ sSync ∧
    (1 ≤ cpuHz ∧ cpuHz ≤ 4294967295) ∧ (1 ≤ initFreqHz ∧ initFreqHz ≤ 4294967295)

/-- The parameters of one ADCB (00_scope.md R6), with the constraints they meet: a configuration that violates one
cannot be built, so no model of it can run. The frequencies are in Hz. -/
structure Config where
  A : Nat
  W : Nat
  maxChunk : Nat
  sSync : Nat
  cpuHz : Nat
  initFreqHz : Nat
  legal : ParamsLegal A W maxChunk sSync cpuHz initFreqHz
deriving DecidableEq, Repr

/-- The configuration with the given parameters, or none where one violates a constraint: "A model must refuse a
configuration that violates a constraint" (00_scope.md R6). -/
def Config.ofParams (A W maxChunk sSync cpuHz initFreqHz : Nat) : Option Config :=
  if h : ParamsLegal A W maxChunk sSync cpuHz initFreqHz then
    some ⟨A, W, maxChunk, sSync, cpuHz, initFreqHz, h⟩
  else
    none

/-- FREE VALUE: the frequency of `rclk`, the OPEN parameter `CPU_HZ`, less one (00_scope.md R6, 92_eei_decisions.md D29).
Log entry 2. -/
opaque Config.openCpuHz : Fin 4294967295

/-- FREE VALUE: the sample rate INIT programs, the OPEN parameter `INIT_FREQ_HZ`, less one (00_scope.md R6,
92_eei_decisions.md D29). Log entry 2. -/
opaque Config.openInitFreqHz : Fin 4294967295

/-- FREE VALUE: what each buffer index holds at power-on, before its low W bits are taken (20_memory.md R69). Log entry 6. -/
opaque Config.powerOnSample : Nat → Sample

/-- FREE VALUE: the next edge, by the number of edges taken so far, where no schedule names it: every interleaving of
the clocks is a legal run, and the host sends a command at an edge or not (00_scope.md R11, 93_implementation_defined.md I10).
Log entry 9. -/
opaque Config.freeEdge : Nat → Edge

/-- The configuration of the machine after power-on reset: the spec's defaults A = 12, W = 16, MAX_CHUNK = 512,
S_SYNC = 2, and free values for the two OPEN parameters (92_eei_decisions.md D29). DESIGN CHOICE, log entry 2. -/
def Config.sourceDefault : Config where
  A := 12
  W := 16
  maxChunk := 512
  sSync := 2
  cpuHz := Config.openCpuHz.val + 1
  initFreqHz := Config.openInitFreqHz.val + 1
  legal := ⟨by decide, by decide, by decide, by decide,
    ⟨Nat.le_add_left _ _, Config.openCpuHz.isLt⟩, ⟨Nat.le_add_left _ _, Config.openInitFreqHz.isLt⟩⟩

/-- `N = 2^A`, the capacity in samples (00_scope.md R7). -/
def Config.N (c : Config) : Nat := 2 ^ c.A

/-- `P = A + 1`, the pointer width in bits (00_scope.md R7). -/
def Config.P (c : Config) : Nat := c.A + 1

/-- `M = 2^P`, the modulus of pointer arithmetic (00_scope.md R7). -/
def Config.M (c : Config) : Nat := 2 ^ c.P

end Sys2Proof
end

