-- ==== Sys2Proof/Machine/State.lean ====
section
/-! DEFINITION. The state of the ADCB (10_state.md R20 to R42, 60_exceptions.md R230), the host's streams and schedule
(10_state.md R48, 30_encoding.md R95), the power-on state, and the reasons a step can stop. -/

namespace Sys2Proof.Machine

/-- The two faults of 60_exceptions.md R230. They are defined responses, not stops. -/
inductive FaultKind where
  | illegalCommand
  | zeroFrequency
deriving DecidableEq, Repr

/-- An entry `(code, port, word)` of the fault log (60_exceptions.md R230). -/
structure FaultEntry where
  kind : FaultKind
  port : Port
  word : Word
deriving DecidableEq, Repr

/-- The states of the transfer controller (42_transfer.md R160). -/
inductive CtrlState where
  | idle
  | kicked
  | busy
  | done
deriving DecidableEq, Repr

/-- The buffer memory: the indices some FEED has written since power-on, each with its sample, in rising order of the
index (20_memory.md R61, R69; log entries 5 and 6). -/
abbrev Memory := List (Nat × Sample)

/-- The state of the ADCB. Pointers, gray codes and counts are natural numbers, kept in their widths by the invariant of
Safety.lean (log entry 3). -/
structure State where
  /-- The configuration (00_scope.md R6): fixed, written by no step (log entry 1). -/
  cfg : Config
  /-- The write commit pointer (10_state.md R22). -/
  wptr : Nat
  /-- The write published pointer (10_state.md R23). -/
  wpub : Nat
  /-- The chain carrying the read pointer's gray code to the write domain, stage 0 first (10_state.md R24). -/
  rsync : List Nat
  /-- Sticky: an illegal command on the write port (10_state.md R25). -/
  werrIll : Bool
  /-- The most recent illegal write-port word (10_state.md R26). -/
  lastWerr : Word
  /-- The read commit pointer (10_state.md R27). -/
  rptr : Nat
  /-- The read published pointer (10_state.md R28). -/
  rpub : Nat
  /-- The chain carrying the write pointer's gray code to the read domain, stage 0 first (10_state.md R29). -/
  wsync : List Nat
  /-- A transfer is outstanding or armed (10_state.md R30). -/
  active : Bool
  /-- The completion signal's enable (10_state.md R31). -/
  cmplEn : Bool
  /-- The size of the chunk last armed, 0 when idle (10_state.md R32). -/
  pending : Nat
  /-- The engine's current buffer index (10_state.md R33). -/
  eaddr : Nat
  /-- The engine's remaining count (10_state.md R34). -/
  remaining : Nat
  /-- The pacing timer runs (10_state.md R35). -/
  trun : Bool
  /-- The timer's prescaler phase (10_state.md R35). -/
  tpre : Bool
  /-- The timer's counter (10_state.md R36). -/
  tcnt : Word
  /-- Comparator A (10_state.md R37). -/
  tmrA : Word
  /-- Comparator B (10_state.md R37). -/
  tmrB : Word
  /-- INIT has been issued since power-on (10_state.md R38). -/
  initd : Bool
  /-- Sticky: an illegal command on the control port (10_state.md R39). -/
  cerrIll : Bool
  /-- Sticky: a START with frequency 0 (10_state.md R39). -/
  cerrFreq : Bool
  /-- The most recent erroneous control-port command word (10_state.md R39). -/
  lastCerr : Word
  /-- The converter input register (10_state.md R40). -/
  dout : Sample
  /-- The sample buffer (20_memory.md R61). -/
  mem : Memory
  /-- The output log (10_state.md R41). -/
  out : List Sample
  /-- The write port's response log (10_state.md R42). -/
  wresp : List Word
  /-- The control port's response log (10_state.md R42). -/
  cresp : List Word
  /-- The fault log (60_exceptions.md R230). -/
  flog : List FaultEntry
  /-- The write port's command stream (10_state.md R48). -/
  wstream : List Word
  /-- The write port's position in its stream (10_state.md R48). -/
  wpos : Nat
  /-- The control port's command stream (10_state.md R48). -/
  cstream : List Word
  /-- The control port's position in its stream (10_state.md R48). -/
  cpos : Nat
  /-- The edges still scheduled, the next one first (30_encoding.md R95, log entry 9). -/
  sched : List Edge
  /-- The model's own: the number of edges taken, the argument of the free choice of the next edge (log entry 9). -/
  edges : Nat
deriving DecidableEq, Repr

/-- A stop with a fault. There is none: "no fault in this spec stops the block" (00_scope.md R10, 60_exceptions.md R230); the
spec's two faults are next states (FaultKind, State.raiseFault). Safe: nothing stops here where the hardware goes on. -/
inductive Fault where
deriving DecidableEq, Repr

/-- A step without a meaning. -/
inductive Refusal where
  /-- An arm of `exec` without a meaning; no arm raises it now. Safe: the model stops where the hardware goes on. -/
  | notModelled (mnemonic : String)
  /-- Raised by `execFeed` on a FEED term whose data list is not COUNT words long, which no word stream can express
  (60_exceptions.md R235, 93_implementation_defined.md I2). Safe: no behaviour of the hardware is lost. -/
  | feedLength
  /-- Raised by `step` when the schedule has `port` consume a FEED or START whose operand words its stream does not hold:
  a breach of the host's duty (70_reset_and_hazards.md R273; log entry 11). Safe: the model stops where the spec says nothing. -/
  | truncatedCommand (port : Port)
deriving DecidableEq, Repr

/-- The power-on state of a configuration: every register 0, every log empty, nothing written to the buffer
(10_state.md R53, 70_reset_and_hazards.md R270); the host's streams and schedule are empty (DESIGN CHOICE, log entry 14). -/
def State.powerOn (c : Config) : State where
  cfg := c
  wptr := 0
  wpub := 0
  rsync := List.replicate c.sSync 0
  werrIll := false
  lastWerr := 0
  rptr := 0
  rpub := 0
  wsync := List.replicate c.sSync 0
  active := false
  cmplEn := false
  pending := 0
  eaddr := 0
  remaining := 0
  trun := false
  tpre := false
  tcnt := 0
  tmrA := 0
  tmrB := 0
  initd := false
  cerrIll := false
  cerrFreq := false
  lastCerr := 0
  dout := 0
  mem := []
  out := []
  wresp := []
  cresp := []
  flog := []
  wstream := []
  wpos := 0
  cstream := []
  cpos := 0
  sched := []
  edges := 0

/-- The machine right after power-on reset (70_reset_and_hazards.md R270), in the spec's default configuration. -/
def State.reset : State := State.powerOn Config.sourceDefault

end Sys2Proof.Machine
end

