-- ==== Sys2Proof/Machine/Pointer.lean ====
section
/-! DEFINITION. Pointer arithmetic (00_scope.md R9), the gray code (41_cdc.md R140, R141) and the synchronizer chains
(R145, R146, R147). -/

namespace Sys2Proof

/-- `idx(p) = p mod N`: the buffer index a pointer names (00_scope.md R9). -/
def Config.idx (c : Config) (p : Nat) : Nat := p % c.N

/-- `a + b mod M` (00_scope.md R9). -/
def Config.padd (c : Config) (a b : Nat) : Nat := (a + b) % c.M

/-- `diff(a, b) = (a - b) mod M`: the distance from `b` forward to `a`, for pointers `a` and `b` below M (00_scope.md R9). -/
def Config.diff (c : Config) (a b : Nat) : Nat := (a + (c.M - b % c.M)) % c.M

/-- `gray(x) = x XOR (x >> 1)` (41_cdc.md R140). -/
def gray (x : Nat) : Nat := x ^^^ (x >>> 1)

/-- The XOR of `g`, `g >> 1`, …, `g >> (k - 1)`. -/
def xorShifts (k g : Nat) : Nat :=
  match k with
  | 0 => 0
  | k + 1 => g ^^^ xorShifts k (g >>> 1)

/-- `bin(g)` of a P-bit gray value: each binary bit is the XOR of all gray bits at and above it (41_cdc.md R141). -/
def Config.bin (c : Config) (g : Nat) : Nat := xorShifts c.P g

/-- One step of a published pointer toward its commit pointer (41_cdc.md R143, R144). -/
def Config.publish (c : Config) (pub commit : Nat) : Nat :=
  if pub ≠ commit then c.padd pub 1 else pub

/-- One shift of a synchronizer chain: stage 0 takes `g`, stage k takes the value of stage k - 1 (41_cdc.md R145, R146). -/
def Config.shiftIn (c : Config) (g : Nat) (chain : List Nat) : List Nat := (g :: chain).take c.sSync

/-- Stage `S_SYNC - 1` of a chain (41_cdc.md R147). -/
def Config.lastStage (c : Config) (chain : List Nat) : Nat := chain.getD (c.sSync - 1) 0

namespace Machine

/-- `rptr_w = bin(rsync[S_SYNC-1])`: the write domain's view of the read pointer (41_cdc.md R147). -/
def State.rptrW (s : State) : Nat := s.cfg.bin (s.cfg.lastStage s.rsync)

/-- `wptr_r = bin(wsync[S_SYNC-1])`: the read domain's view of the write pointer (41_cdc.md R147). -/
def State.wptrR (s : State) : Nat := s.cfg.bin (s.cfg.lastStage s.wsync)

end Machine

end Sys2Proof
end

