-- ==== Sys2Proof/Machine/Ops.lean ====
section
/-! DEFINITION. The named operations over memory and registers: MemRead and MemWrite (20_memory.md R62, R63), responses
(30_encoding.md R92), taking a fault (60_exceptions.md R230 to R233) and the datapath reset (43_commands.md R192). -/

namespace Sys2Proof

/-- The W-bit sample in the low bits of a 32-bit word: `d[W-1:0]` (30_encoding.md R83). -/
def Config.sampleOf (c : Config) (d : Word) : Sample := BitVec.ofNat 32 (d.toNat % 2 ^ c.W)

namespace Machine

/-! ## Memory -/

/-- The sample last written at an index, none where nothing has been written since power-on. -/
def Memory.find (m : Memory) (i : Nat) : Option Sample :=
  match m with
  | [] => none
  | (j, v) :: rest => if i = j then some v else Memory.find rest i

/-- `m` with the sample `v` at index `i`, keeping the indices in rising order. -/
def Memory.insert (m : Memory) (i : Nat) (v : Sample) : Memory :=
  match m with
  | [] => [(i, v)]
  | (j, u) :: rest =>
    if i < j then (i, v) :: (j, u) :: rest
    else if i = j then (i, v) :: rest
    else (j, u) :: Memory.insert rest i v

/-- The canonical form: indices strictly rising. An unlisted index has no written value, so no entry equals what an
unlisted index holds (log entry 6). -/
abbrev Memory.wf (m : Memory) : Prop := (m.map Prod.fst).Pairwise (· < ·)

/-- What an index nothing has written since power-on holds: any W-bit value (20_memory.md R69, log entry 6). -/
def Config.unwritten (c : Config) (i : Nat) : Sample := c.sampleOf (Config.powerOnSample i)

/-- `MemRead(i)` (20_memory.md R63). The port has A address bits, so the index is taken modulo N (log entry 7). -/
def State.memRead (s : State) (i : Nat) : Sample :=
  match Memory.find s.mem (s.cfg.idx i) with
  | some v => v
  | none => Config.unwritten s.cfg (s.cfg.idx i)

/-- `MemWrite(idx(p), v)` for each sample of a list at consecutive pointers from `p` on (20_memory.md R62, 40_buffer.md
R123). -/
def Config.writeSamples (c : Config) (p : Nat) (xs : List Sample) (m : Memory) : Memory :=
  match xs with
  | [] => m
  | v :: rest => Config.writeSamples c (c.padd p 1) rest (Memory.insert m (c.idx p) v)

/-! ## Responses -/

/-- `respond(v)` on a port: the word joins the port's response log (00_scope.md R10, 30_encoding.md R92). -/
def State.respond (s : State) (p : Port) (v : Word) : State :=
  match p with
  | .write => { s with wresp := s.wresp ++ [v] }
  | .control => { s with cresp := s.cresp ++ [v] }

/-! ## Taking a fault -/

/-- The sticky flag and the error word of a fault, by port and kind (60_exceptions.md R231, R232, R233). The write port
raises IllegalCommand only. -/
def State.setError (s : State) (k : FaultKind) (p : Port) (w : Word) : State :=
  match p, k with
  | .write, _ => { s with werrIll := true, lastWerr := w }
  | .control, .illegalCommand => { s with cerrIll := true, lastCerr := w }
  | .control, .zeroFrequency => { s with cerrFreq := true, lastCerr := w }

/-- `raise <Fault>(w)`: the one operation every fault goes through (60_exceptions.md R230): the sticky flag and the error
word, the response `ALL1`, and the entry of the fault log. It stops nothing and changes no mode: the ADCB has no trap
(R240), and so no return from one (R241). -/
def State.raiseFault (s : State) (k : FaultKind) (p : Port) (w : Word) : State :=
  let t := (s.setError k p w).respond p all1
  { t with flog := t.flog ++ [⟨k, p, w⟩] }

/-! ## The datapath reset -/

/-- DPRESET (43_commands.md R192, 10_state.md R54), with the engine's ABORT (42_transfer.md R173). -/
def State.dpreset (s : State) : State :=
  { s with
    wptr := 0
    wpub := 0
    rsync := List.replicate s.cfg.sSync 0
    rptr := 0
    rpub := 0
    wsync := List.replicate s.cfg.sSync 0
    active := false
    cmplEn := false
    pending := 0
    remaining := 0
    eaddr := 0 }

end Machine

end Sys2Proof
end

