-- ==== Sys2Proof/Machine/Buffer.lean ====
section
/-! DEFINITION. The circular buffer's functions and operations (40_buffer.md R120 to R125). -/

namespace Sys2Proof

/-- `crun(r, w)`: the contiguous readable run from `r` under the view `w` (40_buffer.md R124; 90_conflicts.md C1 for the
full buffer). -/
def Config.crun (c : Config) (r w : Nat) : Nat :=
  if c.diff w r = 0 then 0
  else if c.idx r < c.idx w then c.idx w - c.idx r
  else c.N - c.idx r

namespace Machine

/-- `occupied = diff(wptr, rptr)` (40_buffer.md R120). -/
def State.occupied (s : State) : Nat := s.cfg.diff s.wptr s.rptr

/-- `free_true = N - occupied` (40_buffer.md R120). -/
def State.freeTrue (s : State) : Nat := s.cfg.N - s.occupied

/-- `free_w = N - diff(wptr, rptr_w)` (40_buffer.md R121); log entry 8 for a difference above N. -/
def State.freeW (s : State) : Nat := s.cfg.N - s.cfg.diff s.wptr s.rptrW

/-- `occ_r = diff(wptr_r, rptr)` (40_buffer.md R122). -/
def State.occR (s : State) : Nat := s.cfg.diff s.wptrR s.rptr

/-- `free_r = N - occ_r` (40_buffer.md R122). -/
def State.freeR (s : State) : Nat := s.cfg.N - s.occR

/-- `BUF_WRITE(xs, count)` with `count` the length of `xs` (40_buffer.md R123). It checks nothing: FEED does. -/
def State.bufWrite (s : State) (xs : List Sample) : State :=
  { s with
    mem := Config.writeSamples s.cfg s.wptr xs s.mem
    wptr := s.cfg.padd s.wptr xs.length }

/-- `ADVANCE_READ(pending)`: the read pointer after the chunk in flight (40_buffer.md R125; 90_conflicts.md C6). -/
def State.advancedRptr (s : State) : Nat := s.cfg.padd s.rptr s.pending

end Machine

end Sys2Proof
end

