-- ==== Sys2Proof/Machine/Flags.lean ====
section
/-! DEFINITION. The flags, the controller state code and the status words (10_state.md R44, R45, R46, R49; 42_transfer.md
R160, R161; 60_exceptions.md R244). -/

namespace Sys2Proof.Machine

/-- One bit of a status word, at position `k`. -/
def flagBit (b : Bool) (k : Nat) : Word := if b then BitVec.ofNat 32 (2 ^ k) else 0

/-- The controller state, decoded from `active`, `pending` and `remaining` (42_transfer.md R160). -/
def State.ctrl (s : State) : CtrlState :=
  if s.active = false then .idle
  else if s.pending = 0 then .kicked
  else if 0 < s.remaining then .busy
  else .done

/-- The 2-bit code of a controller state (10_state.md R44). -/
def CtrlState.code (k : CtrlState) : Nat :=
  match k with
  | .idle => 0
  | .kicked => 1
  | .busy => 2
  | .done => 3

/-- The spec's number of a fault (60_exceptions.md R230). -/
def FaultKind.code (k : FaultKind) : Nat :=
  match k with
  | .illegalCommand => 1
  | .zeroFrequency => 2

/-- `cmpl_sig = cmpl_en AND (remaining == 0)` (42_transfer.md R161). -/
def State.cmplSig (s : State) : Bool := s.cmplEn && s.remaining == 0

/-- `trig = trun AND (tpre == 1) AND (tcnt == tmr_a)` (60_exceptions.md R244). -/
def State.trig (s : State) : Bool := s.trun && s.tpre && s.tcnt == s.tmrA

/-- STATUS (10_state.md R45). -/
def State.status (s : State) : Word :=
  flagBit s.active 0 ||| flagBit s.cmplEn 1 ||| flagBit s.trun 2 ||| flagBit s.initd 3 ||| flagBit s.cerrIll 4 |||
    flagBit s.cerrFreq 5 ||| BitVec.ofNat 32 (s.ctrl.code * 64) ||| flagBit s.tpre 8

/-- WSTATUS (10_state.md R46). -/
def State.wstatus (s : State) : Word := flagBit s.werrIll 0

end Sys2Proof.Machine
end

