-- ==== Sys2Proof/Machine/Operands.lean ====
section
/-! DEFINITION. The operand forms: FEED's payload (30_encoding.md R83) and the readback selectors (R88, R89). -/

namespace Sys2Proof.Machine

/-- The payload of a FEED: the W-bit sample of each data word, in order (30_encoding.md R83). -/
def State.payload (s : State) (data : List Word) : List Sample := data.map s.cfg.sampleOf

/-- `zext_32(v)` of a pointer, count or index (30_encoding.md R88, R89). -/
def zext32 (v : Nat) : Word := BitVec.ofNat 32 v

/-- What an RDW selector reads from the pre-edge state (30_encoding.md R88). -/
def State.readW (s : State) (sel : WSel) : Word :=
  match sel with
  | .wptr => zext32 s.wptr
  | .wpub => zext32 s.wpub
  | .rptrW => zext32 s.rptrW
  | .wstatus => s.wstatus
  | .lastWerr => s.lastWerr

/-- What an RDC selector reads from the pre-edge state (30_encoding.md R89). -/
def State.readC (s : State) (sel : CSel) : Word :=
  match sel with
  | .status => s.status
  | .rptr => zext32 s.rptr
  | .rpub => zext32 s.rpub
  | .wptrR => zext32 s.wptrR
  | .occR => zext32 s.occR
  | .freeR => zext32 s.freeR
  | .pending => zext32 s.pending
  | .remaining => zext32 s.remaining
  | .eaddr => zext32 s.eaddr
  | .tmrA => s.tmrA
  | .tmrB => s.tmrB
  | .tcnt => s.tcnt
  | .dout => s.dout
  | .lastCerr => s.lastCerr

end Sys2Proof.Machine
end

