-- ==== Sys2Proof/Machine/Timer.lean ====
section
/-! DEFINITION. The pacing timer (60_exceptions.md R243, R245, R246). -/

namespace Sys2Proof.Machine

/-- The counter after a tick (60_exceptions.md R243). -/
def State.tickedCount (s : State) : Word := if s.tmrB ≤ s.tcnt then 0 else s.tcnt + 1

/-- `timer_tick(S)`: both tests read pre-edge values (60_exceptions.md R243; 90_conflicts.md C8). -/
def State.timerTick (s : State) : State :=
  { s with
    tpre := if s.trun then !s.tpre else s.tpre
    tcnt := if s.trun && s.tpre then s.tickedCount else s.tcnt }

/-- `d = (CPU_HZ / f) / 2` (60_exceptions.md R245). -/
def divider (cpuHz f : Nat) : Nat := cpuHz / f / 2

/-- `TPROG(f)` (60_exceptions.md R246). -/
def State.tprog (s : State) (f : Nat) : State :=
  { s with
    tmrA := BitVec.ofNat 32 (divider s.cfg.cpuHz f)
    tmrB := BitVec.ofNat 32 (divider s.cfg.cpuHz f + 1)
    tcnt := 0
    tpre := false
    trun := true }

end Sys2Proof.Machine
end

