-- ==== Sys2Proof/Machine/Transfer.lean ====
section
/-! DEFINITION. The transfer controller and engine (42_transfer.md R160 to R173), and the edges without a command: the
write edge (43_commands.md R190) and the normal read edge (42_transfer.md R176). -/

namespace Sys2Proof.Machine

/-! ## The controller's actions -/

/-- KICK (42_transfer.md R163). -/
def State.kick (s : State) : State := { s with active := true, cmplEn := true }

/-- COMPLETE, IDLE branch, at the advanced read pointer `r1` (42_transfer.md R165, R166). -/
def State.completeIdle (s : State) (r1 : Nat) : State :=
  { s with rptr := r1, pending := 0, active := false, cmplEn := false }

/-- COMPLETE, ARM branch, at the advanced read pointer `r1` with a chunk of `k` samples (42_transfer.md R165, R167). -/
def State.completeArm (s : State) (r1 k : Nat) : State :=
  { s with rptr := r1, eaddr := s.cfg.idx r1, remaining := k, pending := k }

/-- The chunk a COMPLETE arms under the view `wr`, 0 for none: `min(crun(r1, wr), MAX_CHUNK)` (42_transfer.md R165). -/
def State.nextChunk (s : State) (wr : Nat) : Nat := min (s.cfg.crun s.advancedRptr wr) s.cfg.maxChunk

/-- COMPLETE under the pre-edge view `wr` of the write pointer (42_transfer.md R165). -/
def State.complete (s : State) (wr : Nat) : State :=
  if s.nextChunk wr = 0 then s.completeIdle s.advancedRptr
  else s.completeArm s.advancedRptr (s.nextChunk wr)

/-- ENGINE_XFER (42_transfer.md R170). -/
def State.engineXfer (s : State) : State :=
  { s with
    dout := s.memRead s.eaddr
    out := s.out ++ [s.memRead s.eaddr]
    eaddr := s.cfg.idx (s.eaddr + 1)
    remaining := s.remaining - 1 }

/-! ## Edges without a command -/

/-- A write edge without a command: the read pointer's chain shifts and the write publisher steps (43_commands.md R190,
41_cdc.md R143, R146). -/
def State.writeEdge (s : State) : State :=
  { s with
    rsync := s.cfg.shiftIn (gray s.rpub) s.rsync
    wpub := s.cfg.publish s.wpub s.wptr }

/-- The crossing of a normal read edge: the write pointer's chain shifts and the read publisher steps (41_cdc.md R144,
R145). -/
def State.readCrossing (s : State) : State :=
  { s with
    wsync := s.cfg.shiftIn (gray s.wpub) s.wsync
    rpub := s.cfg.publish s.rpub s.rptr }

/-- The three actions of the controller at a read edge, and none (42_transfer.md R162). -/
inductive Action where
  | engineXfer
  | complete
  | kick
  | none
deriving DecidableEq, Repr

/-- The action of a normal read edge, chosen from the pre-edge state (42_transfer.md R162, 60_exceptions.md R238). -/
def State.action (s : State) : Action :=
  if s.trig = true ∧ 0 < s.remaining then .engineXfer
  else if s.cmplSig = true then .complete
  else if s.active = false ∧ 0 < s.occR then .kick
  else .none

/-- An action, under the pre-edge view `wr` of the write pointer. -/
def State.act (s : State) (a : Action) (wr : Nat) : State :=
  match a with
  | .engineXfer => s.engineXfer
  | .complete => s.complete wr
  | .kick => s.kick
  | .none => s

/-- `read_edge_normal(S)` (42_transfer.md R176). The action and the view `wr` are those of the pre-edge state; the
crossing and the timer write nothing that the action reads. -/
def State.readEdge (s : State) : State := (s.readCrossing.timerTick).act s.action s.wptrR

/-- An edge of a port's clock that carries no command (43_commands.md R190, R191). -/
def State.idleEdge (s : State) (p : Port) : State :=
  match p with
  | .write => s.writeEdge
  | .control => s.readEdge

/-- An edge that consumes an illegal command word (60_exceptions.md R231, R232): the edge without a command, and the fault
IllegalCommand. -/
def State.illegalEdge (s : State) (p : Port) (w : Word) : State :=
  (s.idleEdge p).raiseFault .illegalCommand p w

end Sys2Proof.Machine
end

