-- ==== Sys2Proof/Machine/ControlPort.lean ====
section
/-! DEFINITION. The commands of the control port: INIT, START, STOP, RDC (43_commands.md R191, R197 to R200). -/

namespace Sys2Proof.Machine

/-- INIT (43_commands.md R197): `DPRESET; TPROG(INIT_FREQ_HZ); initd <- 1; respond(0)`. -/
def execInit (s : State) : Host.Outcome State Fault Refusal :=
  .next (({ (s.dpreset.tprog s.cfg.initFreqHz) with initd := true } : State).respond .control 0)

/-- START (43_commands.md R198): a FREQ word of 0 is the fault ZeroFrequency on a normal read edge (60_exceptions.md R233),
any other is `DPRESET; TPROG(f); respond(0)`. -/
def execStart (freq : Word) (s : State) : Host.Outcome State Fault Refusal :=
  if freq = 0 then .next (s.readEdge.raiseFault .zeroFrequency .control 0x90000000)
  else .next ((s.dpreset.tprog freq.toNat).respond .control 0)

/-- STOP (43_commands.md R199): `timer_tick(S); DPRESET; respond(0)`. -/
def execStop (s : State) : Host.Outcome State Fault Refusal :=
  .next ((s.timerTick.dpreset).respond .control 0)

/-- RDC (43_commands.md R200): the value is read from the pre-edge state, the rest of the edge is normal. -/
def execRdc (sel : CSel) (s : State) : Host.Outcome State Fault Refusal :=
  .next (s.readEdge.respond .control (s.readC sel))

end Sys2Proof.Machine
end

