-- ==== Sys2Proof/Machine/WritePort.lean ====
section
/-! DEFINITION. NOP, and the commands of the write port: FEED, RDFREE, RDW (43_commands.md R193 to R196). -/

namespace Sys2Proof.Machine

/-- NOP, on the port that received it (43_commands.md R193). -/
def execNop (p : Port) (s : State) : Host.Outcome State Fault Refusal :=
  .next ((s.idleEdge p).respond p 0)

/-- FEED (43_commands.md R194): the capacity test reads the pre-edge `free_w`. A term whose list is not COUNT words long
is refused (60_exceptions.md R235, log entry 12). -/
def execFeed (count : BitVec 28) (data : List Word) (s : State) : Host.Outcome State Fault Refusal :=
  if data.length ≠ count.toNat then .refused .feedLength
  else if count.toNat ≤ s.freeW then .next ((s.writeEdge.bufWrite (s.payload data)).respond .write 1)
  else .next (s.writeEdge.respond .write 0)

/-- RDFREE (43_commands.md R195). -/
def execRdfree (s : State) : Host.Outcome State Fault Refusal :=
  .next (s.writeEdge.respond .write (zext32 s.freeW))

/-- RDW (43_commands.md R196): the value is read from the pre-edge state. -/
def execRdw (sel : WSel) (s : State) : Host.Outcome State Fault Refusal :=
  .next (s.writeEdge.respond .write (s.readW sel))

end Sys2Proof.Machine
end

