-- ==== Sys2Proof/Machine/Dispatch.lean ====
section
/-! DEFINITION. One arm per command: its meaning. -/

namespace Sys2Proof.Machine

/-- The meaning of a command at the edge that consumes it (43_commands.md R190, R191). -/
def exec (i : Instr) (s : State) : Host.Outcome State Fault Refusal :=
  match i with
  | .nop p => Sys2Proof.Machine.execNop p s
  | .feed count data => Sys2Proof.Machine.execFeed count data s
  | .rdfree => Sys2Proof.Machine.execRdfree s
  | .rdw sel => Sys2Proof.Machine.execRdw sel s
  | .init => Sys2Proof.Machine.execInit s
  | .start freq => Sys2Proof.Machine.execStart freq s
  | .stop => Sys2Proof.Machine.execStop s
  | .rdc sel => Sys2Proof.Machine.execRdc sel s

end Sys2Proof.Machine
end

