-- ==== Sys2Proof/WellFormed.lean ====
section
/-! DEFINITION. Which command terms a word stream can express. -/

namespace Sys2Proof

/-- A FEED term has exactly COUNT data words (60_exceptions.md R235, 93_implementation_defined.md I2). Every other term is
well-formed: its fields hold only what the encoding admits (30_encoding.md R81, R88, R89). -/
def Instr.wf (i : Instr) : Bool :=
  match i with
  | .nop _ => true
  | .feed count data => data.length == count.toNat
  | .rdfree => true
  | .rdw _ => true
  | .init => true
  | .start _ => true
  | .stop => true
  | .rdc _ => true

/-- The port a command is legal on (30_encoding.md R86); a NOP's is the one it carries. -/
def Instr.port (i : Instr) : Port :=
  match i with
  | .nop p => p
  | .feed _ _ => .write
  | .rdfree => .write
  | .rdw _ => .write
  | .init => .control
  | .start _ => .control
  | .stop => .control
  | .rdc _ => .control

end Sys2Proof
end

