-- ==== Sys2Proof/Decode.lean ====
section
/-! DEFINITION. Decoding of the word streams of the two ports, total on every list of words (30_encoding.md R90), and
the encoder written from the same tables. -/

namespace Sys2Proof

/-! ## Fields and selectors -/

/-- OP, `w[31:28]` (30_encoding.md R81). -/
def opField (w : Word) : BitVec 4 := w.extractLsb' 28 4

/-- ARG, `w[27:0]` (30_encoding.md R81); for FEED it is COUNT. -/
def argField (w : Word) : BitVec 28 := w.extractLsb' 0 28

/-- The command word with the given OP and ARG (30_encoding.md R81). -/
def commandWord (op : BitVec 4) (arg : BitVec 28) : Word := op ++ arg

/-- The RDW selector of a number, none for the reserved ones (30_encoding.md R88). -/
def WSel.ofNumber (n : Nat) : Option WSel :=
  match n with
  | 0 => some .wptr
  | 1 => some .wpub
  | 2 => some .rptrW
  | 3 => some .wstatus
  | 4 => some .lastWerr
  | _ => none

/-- The number of an RDW selector (30_encoding.md R88). -/
def WSel.number (s : WSel) : Nat :=
  match s with
  | .wptr => 0
  | .wpub => 1
  | .rptrW => 2
  | .wstatus => 3
  | .lastWerr => 4

/-- The RDC selector of a number, none for the reserved ones (30_encoding.md R89). -/
def CSel.ofNumber (n : Nat) : Option CSel :=
  match n with
  | 0 => some .status
  | 1 => some .rptr
  | 2 => some .rpub
  | 3 => some .wptrR
  | 4 => some .occR
  | 5 => some .freeR
  | 6 => some .pending
  | 7 => some .remaining
  | 8 => some .eaddr
  | 9 => some .tmrA
  | 10 => some .tmrB
  | 11 => some .tcnt
  | 12 => some .dout
  | 13 => some .lastCerr
  | _ => none

/-- The number of an RDC selector (30_encoding.md R89). -/
def CSel.number (s : CSel) : Nat :=
  match s with
  | .status => 0
  | .rptr => 1
  | .rpub => 2
  | .wptrR => 3
  | .occR => 4
  | .freeR => 5
  | .pending => 6
  | .remaining => 7
  | .eaddr => 8
  | .tmrA => 9
  | .tmrB => 10
  | .tcnt => 11
  | .dout => 12
  | .lastCerr => 13

/-! ## The command word -/

/-- Why a command word is illegal (30_encoding.md R86, R87, R88, R89, R91). The hardware does not report which: the
names are the model's (log entry 21). -/
inductive IllegalReason where
  | reservedOpcode
  | wrongPort
  | reservedField
  | reservedSelector
deriving DecidableEq, Repr

/-- What a command word alone says (30_encoding.md R90). -/
inductive Head where
  | nop
  | feed (count : BitVec 28)
  | rdfree
  | rdw (sel : WSel)
  | init
  | start
  | stop
  | rdc (sel : CSel)
  | illegal (why : IllegalReason)
deriving DecidableEq, Repr

/-- A command whose ARG is reserved and must be 0 (30_encoding.md R87). -/
def headOfZeroArg (w : Word) (h : Head) : Head :=
  if argField w = 0 then h else .illegal .reservedField

/-- `decodeW` of 30_encoding.md R90: the write port's reading of a command word. -/
def decodeW (w : Word) : Head :=
  match (opField w).toNat with
  | 0 => headOfZeroArg w .nop
  | 1 => .feed (argField w)
  | 2 => headOfZeroArg w .rdfree
  | 3 =>
    if (argField w).toNat < 16 then
      match WSel.ofNumber (argField w).toNat with
      | some sel => .rdw sel
      | none => .illegal .reservedSelector
    else .illegal .reservedField
  | 8 | 9 | 10 | 11 => .illegal .wrongPort
  | _ => .illegal .reservedOpcode

/-- `decodeC` of 30_encoding.md R90: the control port's reading of a command word. -/
def decodeC (w : Word) : Head :=
  match (opField w).toNat with
  | 0 => headOfZeroArg w .nop
  | 8 => headOfZeroArg w .init
  | 9 => headOfZeroArg w .start
  | 10 => headOfZeroArg w .stop
  | 11 =>
    if (argField w).toNat < 16 then
      match CSel.ofNumber (argField w).toNat with
      | some sel => .rdc sel
      | none => .illegal .reservedSelector
    else .illegal .reservedField
  | 1 | 2 | 3 => .illegal .wrongPort
  | _ => .illegal .reservedOpcode

/-- The reading of a command word on the port that received it (30_encoding.md R90). -/
def headOf (p : Port) (w : Word) : Head :=
  match p with
  | .write => decodeW w
  | .control => decodeC w

/-- How many operand words follow a command word (30_encoding.md R82). -/
def Head.operands (h : Head) : Nat :=
  match h with
  | .feed count => count.toNat
  | .start => 1
  | .nop | .rdfree | .rdw _ | .init | .stop | .rdc _ | .illegal _ => 0

/-- The length in words of the command a command word begins (30_encoding.md R82). -/
def commandLength (p : Port) (w : Word) : Nat := 1 + (headOf p w).operands

/-! ## The command stream -/

/-- What a port finds at its position in its stream. -/
inductive Decoded where
  /-- A legal command of `len` words. -/
  | command (i : Instr) (len : Nat)
  /-- An illegal command word, one word long (30_encoding.md R90). -/
  | illegal (w : Word) (why : IllegalReason)
  /-- The stream ends before the operand words of a FEED or START: a breach of the host's duty (70_reset_and_hazards.md
  R273, log entry 11). -/
  | truncated
  /-- The stream holds no further word. -/
  | empty
deriving DecidableEq, Repr

/-- Decoding of the words at a port's position (30_encoding.md R82, R83, R84, R90). -/
def decode (p : Port) (ws : List Word) : Decoded :=
  match ws with
  | [] => .empty
  | w :: rest =>
    match headOf p w with
    | .nop => .command (.nop p) 1
    | .feed count =>
      if count.toNat ≤ rest.length then .command (.feed count (rest.take count.toNat)) (1 + count.toNat)
      else .truncated
    | .rdfree => .command .rdfree 1
    | .rdw sel => .command (.rdw sel) 1
    | .init => .command .init 1
    | .start =>
      match rest with
      | [] => .truncated
      | f :: _ => .command (.start f) 2
    | .stop => .command .stop 1
    | .rdc sel => .command (.rdc sel) 1
    | .illegal why => .illegal w why

/-! ## The encoder -/

/-- The words of a command (30_encoding.md R93). -/
def encode (i : Instr) : List Word :=
  match i with
  | .nop _ => [commandWord 0x0 0]
  | .feed count data => commandWord 0x1 count :: data
  | .rdfree => [commandWord 0x2 0]
  | .rdw sel => [commandWord 0x3 (BitVec.ofNat 28 sel.number)]
  | .init => [commandWord 0x8 0]
  | .start f => [commandWord 0x9 0, f]
  | .stop => [commandWord 0xA 0]
  | .rdc sel => [commandWord 0xB (BitVec.ofNat 28 sel.number)]

/-! ## The opcode table's words -/

/-- The port a table word is sent to: the write port where it is legal there, else the control port (log entry 13). -/
def tablePort (w : Word) : Port :=
  match decodeW w with
  | .illegal _ => .control
  | _ => .write

/-- `n` words of `v`, the least significant first. -/
def wordsOf (n v : Nat) : List Word :=
  match n with
  | 0 => []
  | n + 1 => BitVec.ofNat 32 v :: wordsOf n (v >>> 32)

/-- The words of the instruction whose bits are `w`, numbered as spec/opcode_table.json numbers them: the first word is
bits 31..0, and bits from `nbits` on are 0. -/
def tableWords (nbits w : Nat) : List Word :=
  let v := w % 2 ^ nbits
  let first : Word := BitVec.ofNat 32 v
  wordsOf (commandLength (tablePort first) first) v

/-- The port the words of `tableWords nbits w` are sent to. -/
def tableWordPort (nbits w : Nat) : Port := tablePort (BitVec.ofNat 32 (w % 2 ^ nbits))

/-- The instruction the decoder reads from an instruction whose bits are `w`, none where it refuses. -/
def decodeTableWord (nbits w : Nat) : Option Instr :=
  match decode (tableWordPort nbits w) (tableWords nbits w) with
  | .command i _ => some i
  | .illegal _ _ => none
  | .truncated => none
  | .empty => none

end Sys2Proof
end

