-- ==== Sys2Proof/Machine/Fetch.lean ====
section
/-! DEFINITION. Which edge comes next and what its port consumes: the schedule and the command streams (10_state.md R48,
30_encoding.md R82, R95). -/

namespace Sys2Proof.Machine

/-- The next edge: the schedule's, or a free choice where the schedule is empty (00_scope.md R11, log entry 9). -/
def State.nextEdge (s : State) : Edge :=
  match s.sched with
  | e :: _ => e
  | [] => Config.freeEdge s.edges

/-- The words a port has not consumed yet (10_state.md R48). -/
def State.words (s : State) (p : Port) : List Word :=
  match p with
  | .write => s.wstream.drop s.wpos
  | .control => s.cstream.drop s.cpos

/-- The edge leaves the schedule and is counted. -/
def State.takeEdge (s : State) : State := { s with sched := s.sched.tail, edges := s.edges + 1 }

/-- A port's position advances by a command's length (10_state.md R48, 30_encoding.md R82). -/
def State.consume (s : State) (p : Port) (len : Nat) : State :=
  match p with
  | .write => { s with wpos := s.wpos + len }
  | .control => { s with cpos := s.cpos + len }

/-- What an edge consumes: nothing where it carries no command, else what the decoder reads at the port's position. -/
def State.fetch (s : State) (e : Edge) : Decoded := if e.cmd then decode e.port (s.words e.port) else .empty

/-- `s` with the words next on a port's stream, in place of what followed its position, and an edge of that port that
consumes a command next in the schedule. -/
def State.offer (s : State) (p : Port) (ws : List Word) : State :=
  match p with
  | .write =>
    { s with
      wstream := s.wstream.take s.wpos ++ ws
      wpos := (s.wstream.take s.wpos).length
      sched := ⟨.write, true⟩ :: s.sched }
  | .control =>
    { s with
      cstream := s.cstream.take s.cpos ++ ws
      cpos := (s.cstream.take s.cpos).length
      sched := ⟨.control, true⟩ :: s.sched }

end Sys2Proof.Machine
end

