-- ==== Sys2Proof/Machine/Step.lean ====
section
/-! DEFINITION. One step: one edge of one of the two clocks, with the command it consumes, if any (00_scope.md R11). -/

namespace Sys2Proof.Machine

/-- One step (00_scope.md R11): the next edge is taken; where it consumes a command, the port's position moves past it and
the command's meaning runs (43_commands.md R190, R191); an illegal word is one word long (30_encoding.md R90); where the
edge carries no command, or the port's stream has no word left (log entry 10), it is an edge without a command. -/
def step (s : State) : Host.Outcome State Fault Refusal :=
  match s.fetch s.nextEdge with
  | .command i len => exec i (s.takeEdge.consume s.nextEdge.port len)
  | .illegal w _ => .next ((s.takeEdge.consume s.nextEdge.port 1).illegalEdge s.nextEdge.port w)
  | .truncated => .refused (.truncatedCommand s.nextEdge.port)
  | .empty => .next (s.takeEdge.idleEdge s.nextEdge.port)

/-- `s` with the instruction whose table bits are `w` next on its port, and an edge of that port that consumes it next in
the schedule, so that the next step runs it (log entry 14). -/
def State.withFetchWord (s : State) (nbits w : Nat) : State :=
  s.offer (tableWordPort nbits w) (tableWords nbits w)

end Sys2Proof.Machine
end

