-- ==== Sys2Proof/Machine/Assembler.lean ====
section
/-! DEFINITION. The assembler syntax of commands (30_encoding.md R93) and the schedule notation (R95), from text to words
and edges. Layout of the text: log entry 22. -/

namespace Sys2Proof

/-! ## Tokens -/

/-- A token of a line. -/
inductive Tok where
  | name (cs : List Char)
  | num (n : Nat)
  | comma
  | open
  | close
  | colon
deriving DecidableEq, Repr

/-- The value of a digit in base 10 or 16. -/
def digitValue (base : Nat) (ch : Char) : Option Nat :=
  let n := ch.toNat
  let v :=
    if 48 ≤ n ∧ n ≤ 57 then n - 48
    else if 65 ≤ n ∧ n ≤ 70 then n - 55
    else if 97 ≤ n ∧ n ≤ 102 then n - 87
    else base
  if v < base then some v else none

/-- The value of a list of digits after the value `acc` of those before, `_` being a separator (00_scope.md R8). -/
def digitsValue (base acc : Nat) (cs : List Char) : Option Nat :=
  match cs with
  | [] => some acc
  | ch :: rest =>
    if ch = '_' then digitsValue base acc rest
    else
      match digitValue base ch with
      | some v => digitsValue base (acc * base + v) rest
      | none => none

/-- A number in decimal or `0x` hexadecimal, or a name (30_encoding.md R93). -/
def wordTok (cs : List Char) : Option Tok :=
  match cs with
  | [] => none
  | ['0', 'x'] => none
  | '0' :: 'x' :: rest => (digitsValue 16 0 rest).map .num
  | ch :: rest => if (digitValue 10 ch).isSome then (digitsValue 10 0 (ch :: rest)).map .num else some (.name cs)

/-- The token of a delimiter; white space has none. -/
def delimTok (ch : Char) : List Tok :=
  if ch = ',' then [.comma]
  else if ch = '[' then [.open]
  else if ch = ']' then [.close]
  else if ch = ':' then [.colon]
  else []

/-- A character that ends a name or number. -/
def isDelim (ch : Char) : Bool := ch = ' ' || !(delimTok ch).isEmpty

/-- The tokens of a line; `cur` holds the characters of the name or number being read, the last one first. -/
def lex (cur cs : List Char) : Option (List Tok) :=
  match cs with
  | [] => if cur.isEmpty then some [] else (wordTok cur.reverse).map fun t => [t]
  | ch :: rest =>
    if isDelim ch then
      match (if cur.isEmpty then some [] else (wordTok cur.reverse).map fun t => [t]), lex [] rest with
      | some before, some after => some (before ++ delimTok ch ++ after)
      | _, _ => none
    else lex (ch :: cur) rest

/-! ## Commands -/

/-- A line of assembly (30_encoding.md R93), with its numbers as written; `.word` takes one value or several. -/
inductive Asm where
  | nop
  | feed (count : Nat) (samples : List Nat)
  | rdfree
  | rdw (sel : Nat)
  | init
  | start (freq : Nat)
  | stop
  | rdc (sel : Nat)
  | word (values : List Nat)
deriving DecidableEq, Repr

/-- Numbers separated by commas, one at least. -/
def numList (ts : List Tok) : Option (List Nat) :=
  match ts with
  | [.num n] => some [n]
  | .num n :: .comma :: rest => (numList rest).map (n :: ·)
  | _ => none

/-- The list of a `feed`, the opening bracket read: numbers separated by commas, none at all, and the closing bracket. -/
def bracketed (ts : List Tok) : Option (List Nat) :=
  match ts with
  | [.close] => some []
  | _ => if ts.getLast? = some .close then numList ts.dropLast else none

/-- The names of the RDW selectors, by number (30_encoding.md R93). -/
def wselNames : List (List Char) :=
  ["wptr".toList, "wpub".toList, "rptr_w".toList, "wstatus".toList, "last_werr".toList]

/-- The names of the RDC selectors, by number (30_encoding.md R93). -/
def cselNames : List (List Char) :=
  ["status".toList, "rptr".toList, "rpub".toList, "wptr_r".toList, "occ_r".toList, "free_r".toList, "pending".toList,
   "remaining".toList, "eaddr".toList, "tmr_a".toList, "tmr_b".toList, "tcnt".toList, "dout".toList, "last_cerr".toList]

/-- A selector, by number or by name. -/
def selOf (names : List (List Char)) (t : Tok) : Option Nat :=
  match t with
  | .num n => some n
  | .name cs => if names.contains cs then some (names.idxOf cs) else none
  | _ => none

/-- The operands of a mnemonic (30_encoding.md R93). A `feed` without a list is read as one with the empty list, as vector K-2
of 95_test_vectors.md writes `feed 0`: DESIGN CHOICE, log entry 22; `assemble` refuses it for every other COUNT. -/
def parseOperands (mn : List Char) (ts : List Tok) : Option Asm :=
  if mn = "nop".toList then (if ts.isEmpty then some .nop else none)
  else if mn = "rdfree".toList then (if ts.isEmpty then some .rdfree else none)
  else if mn = "init".toList then (if ts.isEmpty then some .init else none)
  else if mn = "stop".toList then (if ts.isEmpty then some .stop else none)
  else if mn = "feed".toList then
    match ts with
    | [.num n] => some (.feed n [])
    | .num n :: .comma :: .open :: rest => (bracketed rest).map (.feed n)
    | _ => none
  else if mn = "start".toList then
    match ts with
    | [.num f] => some (.start f)
    | _ => none
  else if mn = "rdw".toList then
    match ts with
    | [t] => (selOf wselNames t).map .rdw
    | _ => none
  else if mn = "rdc".toList then
    match ts with
    | [t] => (selOf cselNames t).map .rdc
    | _ => none
  else if mn = ".word".toList then (numList ts).map .word
  else none

/-- A command from its tokens. -/
def parseCommand (ts : List Tok) : Option Asm :=
  match ts with
  | .name mn :: rest => parseOperands mn rest
  | _ => none

/-- A line of assembly text (30_encoding.md R93). -/
def parseAsm (text : String) : Option Asm := (lex [] text.toList).bind parseCommand

/-- The words of a line of assembly, none where the assembler refuses it: a `feed` whose list is not COUNT long or holds a
number that is no W-bit sample, a `start 0`, a selector that is not listed, a number too large for its field
(30_encoding.md R93). -/
def assemble (c : Config) (a : Asm) : Option (List Word) :=
  match a with
  | .nop => some (encode (.nop .write))
  | .feed count xs =>
    if xs.length = count ∧ count < 2 ^ 28 ∧ ∀ x ∈ xs, x < 2 ^ c.W then
      some (encode (.feed (BitVec.ofNat 28 count) (xs.map (BitVec.ofNat 32))))
    else none
  | .rdfree => some (encode .rdfree)
  | .rdw sel => (WSel.ofNumber sel).map fun x => encode (.rdw x)
  | .init => some (encode .init)
  | .start f => if 1 ≤ f ∧ f < 2 ^ 32 then some (encode (.start (BitVec.ofNat 32 f))) else none
  | .stop => some (encode .stop)
  | .rdc sel => (CSel.ofNumber sel).map fun x => encode (.rdc x)
  | .word values => if ∀ v ∈ values, v < 2 ^ 32 then some (values.map (BitVec.ofNat 32)) else none

/-! ## Schedules -/

/-- A line of a schedule (30_encoding.md R95): an edge of a port's clock, with or without a command, some times over. -/
structure SchedLine where
  port : Port
  cmd : Option Asm
  times : Nat
deriving DecidableEq, Repr

/-- The suffix `x<n>` of a line's tokens, if there is one, and the tokens before it. -/
def splitTimes (ts : List Tok) : Option (List Tok × Nat) :=
  match ts.getLast? with
  | some (.name ('x' :: ch :: rest)) => (digitsValue 10 0 (ch :: rest)).map fun n => (ts.dropLast, n)
  | _ => some (ts, 1)

/-- The port a line names (30_encoding.md R95). -/
def portOf (t : Tok) : Option Port :=
  if t = .name ['W'] then some .write
  else if t = .name ['R'] then some .control
  else none

/-- A line of a schedule from its tokens. -/
def parseLineToks (ts : List Tok) : Option SchedLine :=
  match splitTimes ts with
  | none => none
  | some (ts, n) =>
    match ts with
    | [t] => (portOf t).map fun p => ⟨p, none, n⟩
    | t :: .colon :: rest =>
      match portOf t, parseCommand rest with
      | some p, some a => some ⟨p, some a, n⟩
      | _, _ => none
    | _ => none

/-- A line of a schedule's text (30_encoding.md R95). -/
def parseSchedLine (text : String) : Option SchedLine := (lex [] text.toList).bind parseLineToks

namespace Machine

/-- `s` with one more edge at the end of its schedule and the words it carries at the end of its port's stream. -/
def State.append (s : State) (p : Port) (ws : List Word) : State :=
  match p with
  | .write => { s with wstream := s.wstream ++ ws, sched := s.sched ++ [⟨p, !ws.isEmpty⟩] }
  | .control => { s with cstream := s.cstream ++ ws, sched := s.sched ++ [⟨p, !ws.isEmpty⟩] }

/-- `s` with `n` such edges. -/
def State.appendTimes (s : State) (p : Port) (ws : List Word) (n : Nat) : State :=
  match n with
  | 0 => s
  | n + 1 => State.appendTimes (s.append p ws) p ws n

/-- `s` with a schedule loaded: its lines' commands on the streams, its edges in the schedule; none where the assembler
refuses a command (30_encoding.md R95, 70_reset_and_hazards.md R284). -/
def State.load (s : State) (lines : List SchedLine) : Option State :=
  match lines with
  | [] => some s
  | l :: rest =>
    match l.cmd with
    | none => State.load (s.appendTimes l.port [] l.times) rest
    | some a =>
      match assemble s.cfg a with
      | some ws => State.load (s.appendTimes l.port ws l.times) rest
      | none => none

/-- `s` with the schedule of a list of lines of text loaded. -/
def State.loadText (s : State) (lines : List String) : Option State := (lines.mapM parseSchedLine).bind s.load

end Machine

end Sys2Proof
end

