-- ==== Sys2Proof/Safety.lean ====
section
/-! DEFINITION. What claims use: the invariant of reachable states (10_state.md R50), the unsent samples and the runs of the
FIFO property (70_reset_and_hazards.md R287), and the end of a run (R284). -/

namespace Sys2Proof

/-- The length of a walk around the pointer ring that starts at `a` and visits the pointers of a list in order. -/
def Config.walkFrom (c : Config) (a : Nat) (ps : List Nat) : Nat :=
  match ps with
  | [] => 0
  | b :: rest => c.diff b a + Config.walkFrom c b rest

/-- A word that holds a W-bit sample (00_scope.md R6). -/
def Config.isSample (c : Config) (v : Sample) : Bool := decide (v.toNat < 2 ^ c.W)

/-- A command word illegal on a port (30_encoding.md R90). -/
def illegalOn (p : Port) (w : Word) : Prop := ∃ why, headOf p w = .illegal why

namespace Machine

/-! ## The invariant -/

/-- The pointers from the write domain's view of the read pointer, the last stage of `rsync`, to the write commit pointer,
with every synchronizer stage between them (10_state.md R50 (e), which names the last stages only). -/
def State.ring (s : State) : List Nat :=
  s.rsync.reverse.map s.cfg.bin ++ [s.rpub, s.rptr] ++ s.wsync.reverse.map s.cfg.bin ++ [s.wpub, s.wptr]

/-- The pointers lie in ring order within one capacity (10_state.md R50 (e), for every stage). -/
abbrev State.ringOk (s : State) : Prop := s.cfg.walkFrom s.rptrW s.ring ≤ s.cfg.N

/-- Every register holds a value of its width (10_state.md R22 to R40). -/
abbrev State.fits (s : State) : Prop :=
  s.wptr < s.cfg.M ∧ s.wpub < s.cfg.M ∧ s.rptr < s.cfg.M ∧ s.rpub < s.cfg.M ∧
  s.rsync.length = s.cfg.sSync ∧ (∀ g ∈ s.rsync, g < s.cfg.M) ∧
  s.wsync.length = s.cfg.sSync ∧ (∀ g ∈ s.wsync, g < s.cfg.M) ∧
  s.eaddr < s.cfg.N ∧ s.dout.toNat < 2 ^ s.cfg.W ∧ s.out.all s.cfg.isSample = true

/-- The buffer is in canonical form, and holds W-bit samples at indices below N (20_memory.md R60, R61). -/
abbrev State.memOk (s : State) : Prop :=
  Memory.wf s.mem ∧ s.mem.all (fun e => decide (e.1 < s.cfg.N) && s.cfg.isSample e.2) = true

/-- Each port's position lies in its stream (10_state.md R48). -/
abbrev State.streamsOk (s : State) : Prop := s.wpos ≤ s.wstream.length ∧ s.cpos ≤ s.cstream.length

/-- The controller and engine registers agree (10_state.md R50 (a) to (d)), and the chunk in flight is data the read domain
sees (42_transfer.md R168), of which there is some in KICKED (R164). -/
abbrev State.ctrlOk (s : State) : Prop :=
  s.cmplEn = s.active ∧ (s.active = false → s.pending = 0 ∧ s.remaining = 0) ∧
  s.remaining ≤ s.pending ∧ s.pending ≤ s.cfg.maxChunk ∧
  s.eaddr = s.cfg.idx (s.rptr + (s.pending - s.remaining)) ∧ s.cfg.idx s.rptr + s.pending ≤ s.cfg.N ∧
  s.pending ≤ s.occR ∧ (s.active = true → s.pending = 0 → 0 < s.occR)

/-- The invariant: it holds at power-on, and every step keeps it. -/
abbrev State.Inv (s : State) : Prop := s.fits ∧ s.memOk ∧ s.streamsOk ∧ s.ctrlOk ∧ s.ringOk

/-! ## The FIFO property -/

/-- The pointer of the next sample the engine will move: the read pointer and the samples of the chunk already moved. -/
def State.sentTo (s : State) : Nat := s.rptr + (s.pending - s.remaining)

/-- The samples accepted and not yet output, oldest first. -/
def State.unsent (s : State) : List Sample :=
  (List.range (s.cfg.diff s.wptr s.sentTo)).map fun k => s.memRead (s.sentTo + k)

/-- The payload the next step accepts: that of a FEED its edge consumes with COUNT at most `free_w`, else nothing. -/
def State.accepts (s : State) : List Sample :=
  match s.fetch s.nextEdge with
  | .command (.feed count data) _ => if count.toNat ≤ s.freeW then s.payload data else []
  | _ => []

/-- The next step is a datapath reset: its edge consumes STOP, INIT or a START with a frequency above 0 (43_commands.md
R192). -/
def State.resets (s : State) : Bool :=
  match s.fetch s.nextEdge with
  | .command .init _ => true
  | .command .stop _ => true
  | .command (.start f) _ => f != 0
  | _ => false

/-- The payloads accepted in the first `k` steps of a run, in acceptance order. -/
def acceptedIn (k : Nat) (s : State) : List Sample :=
  match k with
  | 0 => []
  | k + 1 =>
    match step s with
    | .next t => s.accepts ++ acceptedIn k t
    | .fault _ => []
    | .refused _ => []

/-- No step among the first `k` of a run is a datapath reset. -/
def noResetIn (k : Nat) (s : State) : Bool :=
  match k with
  | 0 => true
  | k + 1 =>
    match step s with
    | .next t => !s.resets && noResetIn k t
    | .fault _ => true
    | .refused _ => true

/-- The states of the first `k` steps of a run, the first and the last included. -/
def visited (k : Nat) (s : State) : List State :=
  match k with
  | 0 => [s]
  | k + 1 =>
    match step s with
    | .next t => s :: visited k t
    | .fault _ => [s]
    | .refused _ => [s]

/-- How many of the first `k` steps of a run are edges of the clock of port `p`. -/
def edgesIn (p : Port) (k : Nat) (s : State) : Nat :=
  match k with
  | 0 => 0
  | k + 1 =>
    match step s with
    | .next t => (if s.nextEdge.port = p then 1 else 0) + edgesIn p k t
    | .fault _ => 0
    | .refused _ => 0

/-- `t` is the state after `k` steps from `s`. -/
def runsTo (k : Nat) (s t : State) : Prop := Host.Core.run core k s = .next t

/-! ## Edges repeated, and the end of a run -/

/-- `n` edges of a port's clock without a command, one after the other. -/
def State.idleEdges (s : State) (p : Port) (n : Nat) : State :=
  match n with
  | 0 => s
  | n + 1 => (State.idleEdges s p n).idleEdge p

/-- The datapath is quiescent (70_reset_and_hazards.md R284 (b)). -/
abbrev State.quiescent (s : State) : Prop :=
  s.ctrl = .idle ∧ s.rptr = s.wptr ∧ s.wpub = s.wptr ∧ s.rpub = s.rptr ∧
  (∀ g ∈ s.wsync, g = gray s.wpub) ∧ (∀ g ∈ s.rsync, g = gray s.rpub)

/-- The run is over: both command streams are consumed and the datapath is quiescent (70_reset_and_hazards.md R284). -/
abbrev State.over (s : State) : Prop :=
  s.words .write = [] ∧ s.words .control = [] ∧ s.quiescent

/-- The registers of a power-on state, with any streams and any schedule the host has chosen (70_reset_and_hazards.md R270,
R284). -/
def State.poweredOn (s : State) : Prop :=
  ∃ (c : Config) (ws cs : List Word) (es : List Edge),
    s = { State.powerOn c with wstream := ws, cstream := cs, sched := es }

/-! ## What an edge leaves unchanged -/

/-- The configuration, the streams, the positions and the schedule are unchanged. -/
def State.SameHost (s t : State) : Prop :=
  t.cfg = s.cfg ∧ t.wstream = s.wstream ∧ t.wpos = s.wpos ∧ t.cstream = s.cstream ∧ t.cpos = s.cpos ∧
  t.sched = s.sched ∧ t.edges = s.edges

/-- Every buffer index reads as before. -/
def State.SameMem (s t : State) : Prop := ∀ i, t.memRead i = s.memRead i

/-- The write port's error flag and word are unchanged (10_state.md R25, R26). -/
def State.SameWriteErrors (s t : State) : Prop := t.werrIll = s.werrIll ∧ t.lastWerr = s.lastWerr

/-- The control port's error flags and word are unchanged (10_state.md R39). -/
def State.SameControlErrors (s t : State) : Prop :=
  t.cerrIll = s.cerrIll ∧ t.cerrFreq = s.cerrFreq ∧ t.lastCerr = s.lastCerr

/-- The controller and engine registers are unchanged (10_state.md R27, R30 to R34). -/
def State.SameController (s t : State) : Prop :=
  t.rptr = s.rptr ∧ t.active = s.active ∧ t.cmplEn = s.cmplEn ∧ t.pending = s.pending ∧ t.eaddr = s.eaddr ∧
  t.remaining = s.remaining

/-- The converter register and the output log are unchanged (10_state.md R40, R41). -/
def State.SameConverter (s t : State) : Prop := t.dout = s.dout ∧ t.out = s.out

/-- The timer's run flag and comparators are unchanged (10_state.md R35, R37). -/
def State.SameProgram (s t : State) : Prop := t.trun = s.trun ∧ t.tmrA = s.tmrA ∧ t.tmrB = s.tmrB

/-- Every read-domain register and the output log are unchanged (10_state.md R27 to R41). -/
def State.SameReadDomain (s t : State) : Prop :=
  t.rpub = s.rpub ∧ t.wsync = s.wsync ∧ s.SameController t ∧ s.SameConverter t ∧ s.SameProgram t ∧ t.tpre = s.tpre ∧
  t.tcnt = s.tcnt ∧ t.initd = s.initd ∧ s.SameControlErrors t

/-- Every write-domain register is unchanged (10_state.md R22 to R26). -/
def State.SameWriteDomain (s t : State) : Prop :=
  t.wptr = s.wptr ∧ t.wpub = s.wpub ∧ t.rsync = s.rsync ∧ s.SameWriteErrors t

/-! ## The rules of an edge, as relations between the states before and after it -/

/-- A chain of `n` stages takes `g` into stage 0, and stage k - 1 into stage k (41_cdc.md R145, R146). -/
def ChainShift (n g : Nat) (before after : List Nat) : Prop :=
  ∀ k, after[k]? = if n ≤ k then none else if k = 0 then some g else before[k - 1]?

/-- The crossing of a write edge (41_cdc.md R143, R146). -/
def State.WriteCrossing (s t : State) : Prop :=
  t.wpub = (if s.wpub = s.wptr then s.wpub else (s.wpub + 1) % 2 ^ (s.cfg.A + 1)) ∧
  ChainShift s.cfg.sSync (s.rpub ^^^ s.rpub / 2) s.rsync t.rsync

/-- The crossing of a normal read edge (41_cdc.md R144, R145). -/
def State.ReadCrossing (s t : State) : Prop :=
  t.rpub = (if s.rpub = s.rptr then s.rpub else (s.rpub + 1) % 2 ^ (s.cfg.A + 1)) ∧
  ChainShift s.cfg.sSync (s.wpub ^^^ s.wpub / 2) s.wsync t.wsync

/-- The timer tick (60_exceptions.md R243): the prescaler toggles while the timer runs, and the counter moves at the edges
whose pre-edge prescaler is 1. -/
def State.TimerTick (s t : State) : Prop :=
  t.tpre = (if s.trun = true then !s.tpre else s.tpre) ∧
  t.tcnt.toNat =
    (if s.trun = true ∧ s.tpre = true then (if s.tmrB.toNat ≤ s.tcnt.toNat then 0 else s.tcnt.toNat + 1)
     else s.tcnt.toNat)

/-- COMPLETE, with its IDLE and ARM branches (42_transfer.md R165, R166, R167). -/
def State.CompleteEdge (s t : State) : Prop :=
  let r1 := (s.rptr + s.pending) % 2 ^ (s.cfg.A + 1)
  let k := min (s.cfg.crun r1 s.wptrR) s.cfg.maxChunk
  t.rptr = r1 ∧ s.SameConverter t ∧
  (if k = 0 then
     t.pending = 0 ∧ t.active = false ∧ t.cmplEn = false ∧ t.eaddr = s.eaddr ∧ t.remaining = s.remaining
   else
     t.eaddr = r1 % 2 ^ s.cfg.A ∧ t.remaining = k ∧ t.pending = k ∧ t.active = s.active ∧ t.cmplEn = s.cmplEn)

/-- ENGINE_XFER (42_transfer.md R170). -/
def State.XferEdge (s t : State) : Prop :=
  t.dout = s.memRead s.eaddr ∧ t.out = s.out ++ [s.memRead s.eaddr] ∧ t.eaddr = (s.eaddr + 1) % 2 ^ s.cfg.A ∧
  t.remaining + 1 = s.remaining ∧ t.rptr = s.rptr ∧ t.active = s.active ∧ t.cmplEn = s.cmplEn ∧ t.pending = s.pending

/-- KICK (42_transfer.md R163). -/
def State.KickEdge (s t : State) : Prop :=
  t.active = true ∧ t.cmplEn = true ∧ t.rptr = s.rptr ∧ t.pending = s.pending ∧ t.eaddr = s.eaddr ∧
  t.remaining = s.remaining ∧ s.SameConverter t

/-- The controller at a normal read edge: at most one action, in the order of 42_transfer.md R162. -/
def State.ControllerEdge (s t : State) : Prop :=
  if (s.trun = true ∧ s.tpre = true ∧ s.tcnt = s.tmrA) ∧ 0 < s.remaining then s.XferEdge t
  else if s.cmplEn = true ∧ s.remaining = 0 then s.CompleteEdge t
  else if s.active = false ∧ 0 < s.cfg.diff s.wptrR s.rptr then s.KickEdge t
  else s.SameController t ∧ s.SameConverter t

/-- The normal read edge (42_transfer.md R176): what it does to the read domain and the output log. -/
def State.NormalRead (s t : State) : Prop :=
  s.ReadCrossing t ∧ s.TimerTick t ∧ s.SameProgram t ∧ s.ControllerEdge t

/-- The datapath reset (43_commands.md R192). -/
def State.DatapathReset (s t : State) : Prop :=
  t.wptr = 0 ∧ t.wpub = 0 ∧ t.rsync = List.replicate s.cfg.sSync 0 ∧ t.rptr = 0 ∧ t.rpub = 0 ∧
  t.wsync = List.replicate s.cfg.sSync 0 ∧ t.active = false ∧ t.cmplEn = false ∧ t.pending = 0 ∧ t.remaining = 0 ∧
  t.eaddr = 0

/-- The timer programming for a frequency `f` (60_exceptions.md R246). -/
def State.Programmed (s t : State) (f : Nat) : Prop :=
  t.tmrA.toNat = s.cfg.cpuHz / f / 2 ∧ t.tmrB.toNat = s.cfg.cpuHz / f / 2 + 1 ∧ t.tcnt = 0 ∧ t.tpre = false ∧
  t.trun = true

/-- `s` with the next edge taken from its schedule and the position of port `p` moved by `n` words. -/
def State.moved (s : State) (p : Port) (n : Nat) : State :=
  match p with
  | .write => { s with sched := s.sched.tail, edges := s.edges + 1, wpos := s.wpos + n }
  | .control => { s with sched := s.sched.tail, edges := s.edges + 1, cpos := s.cpos + n }

/-- `s` with other entries before those of the four logs. -/
def State.withLogs (s : State) (o : List Sample) (w c : List Word) (f : List FaultEntry) : State :=
  { s with out := o ++ s.out, wresp := w ++ s.wresp, cresp := c ++ s.cresp, flog := f ++ s.flog }

/-! ## The frames of the two ports -/

/-- What every write edge leaves unchanged, whatever it carries (43_commands.md R190). -/
def State.WriteFrame (s t : State) : Prop := s.SameReadDomain t ∧ t.cresp = s.cresp ∧ s.SameHost t

/-- What every normal read edge leaves unchanged, whatever it carries (42_transfer.md R176). -/
def State.ReadFrame (s t : State) : Prop :=
  s.SameWriteDomain t ∧ s.SameMem t ∧ t.initd = s.initd ∧ t.wresp = s.wresp ∧ s.SameHost t

/-- What a datapath reset leaves unchanged, whatever command performs it (10_state.md R54). -/
def State.ResetFrame (s t : State) : Prop :=
  s.SameMem t ∧ s.SameConverter t ∧ s.SameWriteErrors t ∧ s.SameControlErrors t ∧ t.wresp = s.wresp ∧
  t.flog = s.flog ∧ s.SameHost t

end Machine

end Sys2Proof
end

