-- ==== Sys2Proof/Certificates/Slice0/Obligations.lean ====
section
/-! DEFINITION. The statements about the ADCB, from the numbered rules of spec/. -/

open Sys2Proof Sys2Proof.Machine

/-! ## Encoding (30_encoding.md) -/

/-- Decoding the words of any well-formed command, whatever follows them, gives that command and its length (30_encoding.md
R82, R83, R84, R90, R93). -/
def Obligations.DecodeOfEncodeIsTheCommand : Prop :=
  ∀ (i : Instr) (rest : List Word), i.wf = true →
    decode i.port (encode i ++ rest) = .command i (encode i).length

/-- A command the decoder reads is well-formed, belongs to that port, and its words are the ones the encoder writes: no bit
of a command word is ignored (30_encoding.md R86, R87, R90). -/
def Obligations.EncodeOfDecodeIsTheWords : Prop :=
  ∀ (p : Port) (ws : List Word) (i : Instr) (n : Nat), decode p ws = .command i n →
    i.wf = true ∧ i.port = p ∧ n = (encode i).length ∧ encode i = ws.take n

/-- The encoding examples of 30_encoding.md R96, read and written. -/
def Obligations.EncodingExamplesDecode : Prop :=
  decode .write [0x10000005, 0x00000001, 0x00000002, 0x00000003, 0x00000004, 0x00000005] =
      .command (.feed 5 [1, 2, 3, 4, 5]) 6 ∧
    decode .control [0x90000000, 0x0000AC44] = .command (.start 44100) 2 ∧
    decode .control [0xB0000005] = .command (.rdc .freeR) 1 ∧
    decode .write [0x30000002] = .command (.rdw .rptrW) 1 ∧
    encode (.feed 5 [1, 2, 3, 4, 5]) = [0x10000005, 0x00000001, 0x00000002, 0x00000003, 0x00000004, 0x00000005] ∧
    encode (.start 44100) = [0x90000000, 0x0000AC44] ∧ encode (.rdc .freeR) = [0xB0000005] ∧
    encode (.rdw .rptrW) = [0x30000002] ∧
    decode .write [0x00000001] = .illegal 0x00000001 .reservedField ∧
    decode .control [0x00000001] = .illegal 0x00000001 .reservedField ∧
    decode .write [0x80000000] = .illegal 0x80000000 .wrongPort ∧
    decode .control [0xB000000E] = .illegal 0xB000000E .reservedSelector

/-- What each 32-bit word is on the write port: the five legal forms, and every other word illegal (30_encoding.md R85, R90,
`decodeW`). -/
def Obligations.WritePortReadsEveryWord : Prop :=
  ∀ w : Word,
    (decodeW w = .nop ↔ w.toNat = 0) ∧
    (∀ count : BitVec 28, decodeW w = .feed count ↔ w.toNat = 0x10000000 + count.toNat) ∧
    (decodeW w = .rdfree ↔ w.toNat = 0x20000000) ∧
    (∀ sel : WSel, decodeW w = .rdw sel ↔ w.toNat = 0x30000000 + sel.number) ∧
    ((∃ why, decodeW w = .illegal why) ↔
      ¬(w.toNat = 0 ∨ (0x10000000 ≤ w.toNat ∧ w.toNat ≤ 0x20000000) ∨
        (0x30000000 ≤ w.toNat ∧ w.toNat ≤ 0x30000004)))

/-- What each 32-bit word is on the control port: the five legal forms, and every other word illegal (30_encoding.md R85,
R90, `decodeC`). -/
def Obligations.ControlPortReadsEveryWord : Prop :=
  ∀ w : Word,
    (decodeC w = .nop ↔ w.toNat = 0) ∧
    (decodeC w = .init ↔ w.toNat = 0x80000000) ∧
    (decodeC w = .start ↔ w.toNat = 0x90000000) ∧
    (decodeC w = .stop ↔ w.toNat = 0xA0000000) ∧
    (∀ sel : CSel, decodeC w = .rdc sel ↔ w.toNat = 0xB0000000 + sel.number) ∧
    ((∃ why, decodeC w = .illegal why) ↔
      ¬(w.toNat = 0 ∨ w.toNat = 0x80000000 ∨ w.toNat = 0x90000000 ∨ w.toNat = 0xA0000000 ∨
        (0xB0000000 ≤ w.toNat ∧ w.toNat ≤ 0xB000000D)))

/-- Port legality (30_encoding.md R86): an opcode of the other port makes a word illegal, and an opcode 0 word reads the same
on both; each opcode is legal in some word of its own port. -/
def Obligations.OpcodesAreLegalOnTheirPort : Prop :=
  ∀ w : Word,
    (0x1 ≤ w.toNat / 2 ^ 28 ∧ w.toNat / 2 ^ 28 ≤ 0x3 →
      (∃ why, decodeC w = .illegal why) ∧
      ∃ v : Word, v.toNat / 2 ^ 28 = w.toNat / 2 ^ 28 ∧ ∀ why, decodeW v ≠ .illegal why) ∧
    (0x8 ≤ w.toNat / 2 ^ 28 ∧ w.toNat / 2 ^ 28 ≤ 0xB →
      (∃ why, decodeW w = .illegal why) ∧
      ∃ v : Word, v.toNat / 2 ^ 28 = w.toNat / 2 ^ 28 ∧ ∀ why, decodeC v ≠ .illegal why) ∧
    (w.toNat / 2 ^ 28 = 0x0 → decodeW w = decodeC w ∧ decodeW 0 = .nop)

/-- Reserved fields must be zero (30_encoding.md R87): a non-zero one makes the word illegal on both ports, two command words
that read as the same legal command are the same word, and a FEED data word counts by its low W bits alone. -/
def Obligations.ReservedFieldsMustBeZero : Prop :=
  (∀ (p : Port) (w : Word), w.toNat / 2 ^ 28 ∈ [0x0, 0x2, 0x8, 0x9, 0xA] → w.toNat % 2 ^ 28 ≠ 0 →
    ∃ why, headOf p w = .illegal why) ∧
  (∀ (p : Port) (w : Word), w.toNat / 2 ^ 28 ∈ [0x3, 0xB] → w.toNat % 2 ^ 28 / 16 ≠ 0 →
    ∃ why, headOf p w = .illegal why) ∧
  (∀ (p : Port) (v w : Word), headOf p v = headOf p w → (∀ why, headOf p v ≠ .illegal why) → v = w) ∧
  (∀ (c : Config) (d e : Word), c.sampleOf d = c.sampleOf e ↔ d.toNat % 2 ^ c.W = e.toNat % 2 ^ c.W)

/-- The length of a command follows from its command word alone, and the words after a FEED or START word are operands,
whatever their value (30_encoding.md R82). -/
def Obligations.LengthFollowsFromTheCommandWord : Prop :=
  (∀ w : Word, w.toNat / 2 ^ 28 = 0x1 → commandLength .write w = 1 + w.toNat % 2 ^ 28) ∧
  (∀ w : Word, w.toNat = 0x90000000 → commandLength .control w = 2) ∧
  (∀ w : Word, w.toNat / 2 ^ 28 ≠ 0x1 → commandLength .write w = 1) ∧
  (∀ w : Word, w.toNat ≠ 0x90000000 → commandLength .control w = 1) ∧
  (∀ (p : Port) (w : Word) (rest : List Word) (i : Instr) (n : Nat),
    decode p (w :: rest) = .command i n → n = commandLength p w) ∧
  (∀ (p : Port) (w v : Word) (rest : List Word) (why : IllegalReason),
    decode p (w :: rest) = .illegal v why → v = w ∧ commandLength p w = 1) ∧
  (∀ (w : Word) (xs rest : List Word), w.toNat = 0x10000000 + xs.length → xs.length < 2 ^ 28 →
    decode .write (w :: xs ++ rest) = .command (.feed (BitVec.ofNat 28 xs.length) xs) (1 + xs.length)) ∧
  (∀ (f : Word) (rest : List Word), decode .control (0x90000000 :: f :: rest) = .command (.start f) 2)

/-- The assembler (30_encoding.md R93): what it emits for a command decodes, on that command's port and whatever follows, to
that command with the samples, the frequency and the selector number written, a raw word is emitted as it is, and it refuses
exactly the lines the rule names and the COUNT and FREQ values that fit no field (R81, R84). -/
def Obligations.AssembledCommandsDecode : Prop :=
  ∀ c : Config,
    (∀ (a : Asm) (ws rest : List Word), assemble c a = some ws →
      match a with
      | .nop => ∀ p, decode p (ws ++ rest) = .command (.nop p) ws.length
      | .feed count xs =>
        ∃ n data, decode .write (ws ++ rest) = .command (.feed n data) ws.length ∧ (Instr.feed n data).wf = true ∧
          n.toNat = count ∧ data.map BitVec.toNat = xs ∧ data.map (fun d => (c.sampleOf d).toNat) = xs
      | .rdfree => decode .write (ws ++ rest) = .command .rdfree ws.length
      | .rdw k => ∃ sel, decode .write (ws ++ rest) = .command (.rdw sel) ws.length ∧ sel.number = k
      | .init => decode .control (ws ++ rest) = .command .init ws.length
      | .start f => ∃ g, decode .control (ws ++ rest) = .command (.start g) ws.length ∧ g.toNat = f ∧ g ≠ 0
      | .stop => decode .control (ws ++ rest) = .command .stop ws.length
      | .rdc k => ∃ sel, decode .control (ws ++ rest) = .command (.rdc sel) ws.length ∧ sel.number = k
      | .word values => ws.map BitVec.toNat = values) ∧
    (∀ count xs, assemble c (.feed count xs) = none ↔
      (xs.length ≠ count ∨ 2 ^ 28 ≤ count ∨ ∃ x ∈ xs, 2 ^ c.W ≤ x)) ∧
    (∀ f, assemble c (.start f) = none ↔ f = 0 ∨ 2 ^ 32 ≤ f) ∧
    (∀ k, assemble c (.rdw k) = none ↔ 5 ≤ k) ∧
    (∀ k, assemble c (.rdc k) = none ↔ 14 ≤ k) ∧
    ∀ a ∈ [Asm.nop, .rdfree, .init, .stop], assemble c a ≠ none

/-! ## Parameters and power-on (00_scope.md R6, 10_state.md R53) -/

/-- A configuration that violates a constraint of 00_scope.md R6 is refused, and one that meets them is built as asked. -/
def Obligations.IllegalParametersAreRefused : Prop :=
  ∀ A W maxChunk sSync cpuHz initFreqHz : Nat,
    (Config.ofParams A W maxChunk sSync cpuHz initFreqHz = none ↔
      (A < 1 ∨ 27 < A ∨ W < 1 ∨ 32 < W ∨ maxChunk < 1 ∨ 2 ^ A < maxChunk ∨ sSync < 2 ∨ cpuHz < 1 ∨
        2 ^ 32 - 1 < cpuHz ∨ initFreqHz < 1 ∨ 2 ^ 32 - 1 < initFreqHz)) ∧
    (∀ c, Config.ofParams A W maxChunk sSync cpuHz initFreqHz = some c →
      c.A = A ∧ c.W = W ∧ c.maxChunk = maxChunk ∧ c.sSync = sSync ∧ c.cpuHz = cpuHz ∧ c.initFreqHz = initFreqHz ∧
        c.N = 2 ^ A ∧ c.P = A + 1 ∧ c.M = 2 * c.N)

/-- Power-on reset (10_state.md R53): every register 0, the logs empty, the controller IDLE, the buffer empty, the timer
stopped. -/
def Obligations.PowerOnClearsEveryRegister : Prop :=
  ∀ (c : Config) (s : State), s = State.powerOn c →
    s.cfg = c ∧ s.wptr = 0 ∧ s.wpub = 0 ∧ (∀ k < c.sSync, s.rsync[k]? = some 0) ∧ s.werrIll = false ∧ s.lastWerr = 0 ∧
    s.rptr = 0 ∧ s.rpub = 0 ∧ (∀ k < c.sSync, s.wsync[k]? = some 0) ∧ s.active = false ∧ s.cmplEn = false ∧
    s.pending = 0 ∧ s.eaddr = 0 ∧ s.remaining = 0 ∧ s.trun = false ∧ s.tpre = false ∧ s.tcnt = 0 ∧ s.tmrA = 0 ∧
    s.tmrB = 0 ∧ s.initd = false ∧ s.cerrIll = false ∧ s.cerrFreq = false ∧ s.lastCerr = 0 ∧ s.dout = 0 ∧
    s.out = [] ∧ s.wresp = [] ∧ s.cresp = [] ∧ s.flog = [] ∧
    s.ctrl = .idle ∧ s.freeTrue = c.N ∧ s.freeW = c.N ∧ s.freeR = c.N ∧ s.status = 0 ∧ s.trig = false

/-- The power-on state of every configuration, and the machine's reset state, meet the invariant of Safety.lean, which
adds to 10_state.md R50 the conditions that make it inductive. -/
def Obligations.PowerOnMeetsTheInvariant : Prop :=
  (∀ s : State, s.poweredOn → s.Inv) ∧ State.reset.Inv

/-! ## The gray code and the crossing (41_cdc.md) -/

/-- `gray`, bit by bit, and the rule's example (41_cdc.md R140). -/
def Obligations.GrayCodeBits : Prop :=
  (∀ (c : Config) (x : Nat), x < c.M →
    gray x = x ^^^ x / 2 ∧ gray x < c.M ∧ (gray x).testBit (c.P - 1) = x.testBit (c.P - 1) ∧
    ∀ i < c.P - 1, (gray x).testBit i = Bool.xor (x.testBit (i + 1)) (x.testBit i)) ∧
  (List.range 16).map gray = [0, 1, 3, 2, 6, 7, 5, 4, 12, 13, 15, 14, 10, 11, 9, 8]

/-- `bin`, bit by bit, the inverse of `gray`, and the rule's examples (41_cdc.md R141). -/
def Obligations.BinDecodesTheGrayCode : Prop :=
  ∀ (c : Config) (g : Nat), g < c.M →
    c.bin g < c.M ∧ (c.bin g).testBit (c.P - 1) = g.testBit (c.P - 1) ∧
    (∀ i < c.P - 1, (c.bin g).testBit i = Bool.xor ((c.bin g).testBit (i + 1)) (g.testBit i)) ∧
    c.bin (gray g) = g ∧ (c.P = 4 → c.bin 12 = 8 ∧ c.bin 9 = 14)

/-- Successive gray codes differ in exactly one bit, the step from M - 1 to 0 included (41_cdc.md R142). -/
def Obligations.GrayStepChangesOneBit : Prop :=
  ∀ (c : Config) (x : Nat), x < c.M →
    (∃ k < c.P, gray ((x + 1) % c.M) = gray x ^^^ 2 ^ k) ∧ gray (c.M - 1) = 2 ^ (c.P - 1) ∧ gray 0 = 0

/-- Between datapath resets each published gray code changes in at most one bit at any step, so a capture sees the code before
it or the code after it (41_cdc.md R148, 70_reset_and_hazards.md R278). -/
def Obligations.PublishedCodeChangesOneBitAtMost : Prop :=
  ∀ s t : State, s.Inv → step s = .next t → s.resets = false →
    (t.wpub = s.wpub ∨ ∃ k < s.cfg.P, gray t.wpub = gray s.wpub ^^^ 2 ^ k) ∧
    (t.rpub = s.rpub ∨ ∃ k < s.cfg.P, gray t.rpub = gray s.rpub ^^^ 2 ^ k)

/-- Between datapath resets the published pointers and the synchronized views never move backward and never pass their commit
pointers, and a published pointer moves by one at most (41_cdc.md R149 (a); for the views see log entry 24). -/
def Obligations.ViewsMoveForwardOnly : Prop :=
  ∀ s t : State, s.Inv → step s = .next t → s.resets = false →
    s.cfg.diff t.wpub s.wpub ≤ 1 ∧ s.cfg.diff t.wpub s.wpub ≤ s.cfg.diff s.wptr s.wpub ∧
    s.cfg.diff t.rpub s.rpub ≤ 1 ∧ s.cfg.diff t.rpub s.rpub ≤ s.cfg.diff s.rptr s.rpub ∧
    s.cfg.diff t.wptrR s.wptrR ≤ s.cfg.diff s.wptr s.wptrR ∧
    s.cfg.diff t.rptrW s.rptrW ≤ s.cfg.diff s.rptr s.rptrW

/-- Catch-up (41_cdc.md R149 (b), (c)), in any run without a datapath reset, whatever the interleaving and the commands: a
commit pointer that rests is published once its domain has taken as many edges as it is ahead, and a published pointer that
rests is seen by the other side once that side has taken S_SYNC edges. -/
def Obligations.CrossingCatchesUp : Prop :=
  ∀ (k : Nat) (s t : State), s.Inv → runsTo k s t → noResetIn k s = true →
    ((∀ u ∈ visited k s, u.wptr = s.wptr) →
      (s.cfg.diff s.wptr s.wpub ≤ edgesIn .write k s → t.wpub = s.wptr) ∧
      (s.wpub = s.wptr → s.cfg.sSync ≤ edgesIn .control k s → t.wptrR = s.wptr)) ∧
    ((∀ u ∈ visited k s, u.rptr = s.rptr) →
      (s.cfg.diff s.rptr s.rpub ≤ edgesIn .control k s → t.rpub = s.rptr) ∧
      (s.rpub = s.rptr → s.cfg.sSync ≤ edgesIn .write k s → t.rptrW = s.rptr))

/-! ## The buffer (40_buffer.md) -/

/-- `crun`: the three cases; the greatest run from `r` that crosses neither the write boundary nor the array end; the source's
formula but on a full buffer; the examples (40_buffer.md R124). -/
def Obligations.CrunIsTheContiguousRun : Prop :=
  ∀ (c : Config) (r w : Nat), r < c.M → w < c.M →
    c.crun r w =
      (if w = r then 0 else if r % c.N < w % c.N then w % c.N - r % c.N else c.N - r % c.N) ∧
    (c.diff w r ≤ c.N →
      c.crun r w = min (c.diff w r) (c.N - r % c.N) ∧
      (c.crun r w = 0 ↔ w = r) ∧
      (c.diff w r ≠ c.N →
        c.crun r w = if r % c.N ≤ w % c.N then w % c.N - r % c.N else c.N - r % c.N)) ∧
    (c.N = 8 → c.crun 2 7 = 5 ∧ c.crun 6 9 = 2 ∧ c.crun 2 10 = 6)

/-- The capacity identities (40_buffer.md R126, with the definitions of R120, R121, R122). -/
def Obligations.CapacityIdentities : Prop :=
  ∀ s : State, s.Inv →
    s.freeTrue + (s.wptr + (s.cfg.M - s.rptr)) % s.cfg.M = s.cfg.N ∧
    s.freeW + (s.wptr + (s.cfg.M - s.rptrW)) % s.cfg.M = s.cfg.N ∧
    s.freeR + (s.wptrR + (s.cfg.M - s.rptr)) % s.cfg.M = s.cfg.N ∧
    s.freeTrue + s.occupied = s.cfg.N ∧ s.freeR + s.occR = s.cfg.N

/-- Each domain's view is conservative for its own decision (40_buffer.md R121, R122, 10_state.md R50 (f)). -/
def Obligations.ViewsAreConservative : Prop :=
  ∀ s : State, s.Inv →
    s.freeW ≤ s.freeTrue ∧ s.freeTrue ≤ s.freeR ∧ s.freeR ≤ s.cfg.N ∧ s.occR ≤ s.occupied ∧ s.occupied ≤ s.cfg.N

/-! ## The step -/

/-- A step whose edge consumes a command is that command's meaning, on the state with the edge taken from the schedule and the
port's position moved past the command's words (00_scope.md R11, 10_state.md R48). -/
def Obligations.StepRunsTheDecodedCommand : Prop :=
  ∀ (s : State) (p : Port) (i : Instr) (n : Nat), s.nextEdge = ⟨p, true⟩ →
    decode p (s.words p) = .command i n → step s = exec i (s.moved p n)

/-- A step whose edge carries no command completes as an edge without a command: it gives no response (30_encoding.md R92,
43_commands.md R190, R191). That an edge scheduled to consume a command does the same where its port's stream is empty is the
model's choice (log entry 10). -/
def Obligations.StepWithoutCommandIsAPlainEdge : Prop :=
  ∀ (s : State) (e : Edge), s.nextEdge = e → (e.cmd = false ∨ s.words e.port = []) →
    ∃ t, step s = .next t ∧ t.wresp = s.wresp ∧ t.cresp = s.cresp ∧ t.flog = s.flog ∧
      (s.moved e.port 0).SameWriteErrors t ∧ (s.moved e.port 0).SameControlErrors t ∧
      (match e.port with
       | .write =>
         (s.moved .write 0).WriteCrossing t ∧ (s.moved .write 0).WriteFrame t ∧ t.wptr = s.wptr ∧
           (s.moved .write 0).SameMem t
       | .control => (s.moved .control 0).NormalRead t ∧ (s.moved .control 0).ReadFrame t)

/-- IllegalCommand on the write port (60_exceptions.md R231): the flag, the word, the response, the log entry, one word
consumed, and otherwise an edge without a command; and the words it names as illegal. -/
def Obligations.IllegalWordOnTheWritePort : Prop :=
  (∀ (s : State) (w : Word) (rest : List Word), s.nextEdge = ⟨.write, true⟩ → s.words .write = w :: rest →
    illegalOn .write w →
    ∃ t, step s = .next t ∧ t.werrIll = true ∧ t.lastWerr = w ∧ t.wresp = s.wresp ++ [0xFFFFFFFF] ∧
      t.flog = s.flog ++ [⟨.illegalCommand, .write, w⟩] ∧ (s.moved .write 1).WriteCrossing t ∧
      (s.moved .write 1).WriteFrame t ∧ t.wptr = s.wptr ∧ (s.moved .write 1).SameMem t ∧ t.words .write = rest) ∧
  (∀ w : Word, 0x8 ≤ w.toNat / 2 ^ 28 → illegalOn .write w) ∧
  (∀ w : Word, 0x30000005 ≤ w.toNat → w.toNat ≤ 0x3000000F → illegalOn .write w) ∧
  (∀ w : Word, w.toNat / 2 ^ 28 = 0x1 → ¬illegalOn .write w)

/-- IllegalCommand on the control port (60_exceptions.md R232): the flag, the word, the response, the log entry, one word
consumed, and otherwise a normal read edge; and the words it names as illegal. -/
def Obligations.IllegalWordOnTheControlPort : Prop :=
  (∀ (s : State) (w : Word) (rest : List Word), s.nextEdge = ⟨.control, true⟩ → s.words .control = w :: rest →
    illegalOn .control w →
    ∃ t, step s = .next t ∧ t.cerrIll = true ∧ t.cerrFreq = s.cerrFreq ∧ t.lastCerr = w ∧
      t.cresp = s.cresp ++ [0xFFFFFFFF] ∧ t.flog = s.flog ++ [⟨.illegalCommand, .control, w⟩] ∧
      (s.moved .control 1).NormalRead t ∧ (s.moved .control 1).ReadFrame t ∧ t.words .control = rest) ∧
  (∀ w : Word, 0x1 ≤ w.toNat / 2 ^ 28 → w.toNat / 2 ^ 28 ≤ 0x3 → illegalOn .control w) ∧
  (∀ w : Word, 0x90000000 < w.toNat → w.toNat ≤ 0x9FFFFFFF → illegalOn .control w) ∧
  (∀ w : Word, 0xB000000E ≤ w.toNat → illegalOn .control w)

/-- A step stops only where the host has sent fewer operand words than a FEED or START needs (log entry 11; 70_reset_and_hazards.md
R273): no fault, no other refusal. -/
def Obligations.StepStopsOnlyOnMissingOperands : Prop :=
  ∀ s : State,
    (∃ t, step s = .next t) ∨
    (∃ (p : Port) (w : Word) (rest : List Word), step s = .refused (.truncatedCommand p) ∧ s.nextEdge = ⟨p, true⟩ ∧
      s.words p = w :: rest ∧ (s.words p).length < commandLength p w)

/-! ## The commands (43_commands.md) -/

/-- NOP (43_commands.md R193): it responds 0 on its port, and the edge is one without a command; its word, and the words of
its opcode that are illegal. -/
def Obligations.NopRespondsZero : Prop :=
  (∀ s : State,
    (∃ t, exec (.nop .write) s = .next t ∧ t.wresp = s.wresp ++ [0] ∧ s.WriteCrossing t ∧ s.WriteFrame t ∧
      t.wptr = s.wptr ∧ s.SameWriteErrors t ∧ s.SameMem t ∧ t.flog = s.flog) ∧
    (∃ t, exec (.nop .control) s = .next t ∧ t.cresp = s.cresp ++ [0] ∧ s.NormalRead t ∧ s.ReadFrame t ∧
      s.SameControlErrors t ∧ t.flog = s.flog)) ∧
  (∀ p, encode (.nop p) = [0x00000000] ∧ decode p [0x00000000] = .command (.nop p) 1) ∧
  (∀ (p : Port) (w : Word), w.toNat / 2 ^ 28 = 0x0 → w.toNat ≠ 0 → illegalOn p w)

/-- FEED (43_commands.md R194, 40_buffer.md R123, 30_encoding.md R83): accepted where COUNT is at most the pre-edge `free_w`,
it responds 1, stores sample k of the payload at index `idx(wptr + k)` and no other, and moves `wptr`; else it responds 0
and stores nothing; and its words. -/
def Obligations.FeedStoresOrRefuses : Prop :=
  (∀ (count : BitVec 28) (data : List Word) (s : State), data.length = count.toNat →
    ∃ t, exec (.feed count data) s = .next t ∧ s.WriteCrossing t ∧ s.WriteFrame t ∧ s.SameWriteErrors t ∧
      t.flog = s.flog ∧
      (if count.toNat ≤ s.freeW then
         t.wresp = s.wresp ++ [1] ∧ t.wptr = (s.wptr + count.toNat) % 2 ^ (s.cfg.A + 1) ∧
         (∀ (k : Nat) (d : Word), data[k]? = some d →
           (t.memRead (s.wptr + k)).toNat = d.toNat % 2 ^ s.cfg.W) ∧
         (∀ i, (∀ k < count.toNat, i % 2 ^ s.cfg.A ≠ (s.wptr + k) % 2 ^ s.cfg.A) → t.memRead i = s.memRead i)
       else t.wresp = s.wresp ++ [0] ∧ t.wptr = s.wptr ∧ s.SameMem t)) ∧
  (∀ (count : BitVec 28) (data : List Word), ∃ w : Word,
    w.toNat = 0x10000000 + count.toNat ∧ encode (.feed count data) = w :: data ∧ illegalOn .control w)

/-- A FEED larger than the buffer is always refused (70_reset_and_hazards.md R282, 43_commands.md R194). -/
def Obligations.FeedLargerThanTheBufferIsRefused : Prop :=
  ∀ (count : BitVec 28) (data : List Word) (s : State), data.length = count.toNat → s.cfg.N < count.toNat →
    ∃ t, exec (.feed count data) s = .next t ∧ t.wresp = s.wresp ++ [0] ∧ t.wptr = s.wptr ∧ s.SameMem t

/-- A FEED term whose list is not COUNT words long is refused, not executed (60_exceptions.md R235); that `exec` refuses it too is
log entry 12. -/
def Obligations.MalformedFeedIsRefused : Prop :=
  ∀ (count : BitVec 28) (data : List Word) (s : State), data.length ≠ count.toNat →
    (Instr.feed count data).wf = false ∧ exec (.feed count data) s = .refused .feedLength

/-- RDFREE (43_commands.md R195): it responds the pre-edge `free_w`, and the edge is one without a command; its word, and
the words of its opcode that are illegal. -/
def Obligations.RdfreeRespondsFreeW : Prop :=
  (∀ s : State,
    ∃ (t : State) (v : Word), exec .rdfree s = .next t ∧ t.wresp = s.wresp ++ [v] ∧
      v.toNat = s.cfg.N - s.cfg.diff s.wptr (s.cfg.bin (s.rsync.getD (s.cfg.sSync - 1) 0)) ∧
      s.WriteCrossing t ∧ s.WriteFrame t ∧ t.wptr = s.wptr ∧ s.SameWriteErrors t ∧ s.SameMem t ∧ t.flog = s.flog) ∧
  encode .rdfree = [0x20000000] ∧
  (∀ w : Word, w.toNat / 2 ^ 28 = 0x2 → illegalOn .control w ∧ (w.toNat ≠ 0x20000000 → illegalOn .write w)) ∧
  (∀ s : State, s.Inv → s.freeW ≤ s.freeTrue)

/-- RDW (43_commands.md R196, 30_encoding.md R88): it responds the pre-edge value its selector names, and the edge is one
without a command; its words, and the words of its opcode that are illegal. -/
def Obligations.RdwRespondsItsRegister : Prop :=
  (∀ (sel : WSel) (s : State), s.fits →
    ∃ (t : State) (v : Word), exec (.rdw sel) s = .next t ∧ t.wresp = s.wresp ++ [v] ∧
      (match sel with
       | .wptr => v.toNat = s.wptr
       | .wpub => v.toNat = s.wpub
       | .rptrW => v.toNat = s.cfg.bin (s.rsync.getD (s.cfg.sSync - 1) 0)
       | .wstatus => v.toNat = s.werrIll.toNat
       | .lastWerr => v = s.lastWerr) ∧
      s.WriteCrossing t ∧ s.WriteFrame t ∧ t.wptr = s.wptr ∧ s.SameWriteErrors t ∧ s.SameMem t ∧ t.flog = s.flog) ∧
  [WSel.wptr, .wpub, .rptrW, .wstatus, .lastWerr].map (fun sel => encode (.rdw sel)) =
    [[0x30000000], [0x30000001], [0x30000002], [0x30000003], [0x30000004]] ∧
  (∀ w : Word, w.toNat / 2 ^ 28 = 0x3 → illegalOn .control w ∧ (0x30000005 ≤ w.toNat → illegalOn .write w))

/-- INIT (43_commands.md R197): the datapath reset, the timer programmed for INIT_FREQ_HZ, `initd`, the response 0; its word,
and the words of its opcode that are illegal. -/
def Obligations.InitResetsAndProgramsTheTimer : Prop :=
  (∀ s : State, ∃ t, exec .init s = .next t ∧ s.DatapathReset t ∧ s.Programmed t s.cfg.initFreqHz ∧ t.initd = true ∧
    t.cresp = s.cresp ++ [0] ∧ s.ResetFrame t) ∧
  encode .init = [0x80000000] ∧
  (∀ w : Word, w.toNat / 2 ^ 28 = 0x8 → illegalOn .write w ∧ (w.toNat ≠ 0x80000000 → illegalOn .control w))

/-- START (43_commands.md R198, 60_exceptions.md R233): with a frequency above 0 the datapath reset and the timer programmed for
it; with 0 the fault ZeroFrequency on an otherwise normal read edge; its words, and the words of its opcode that are
illegal. -/
def Obligations.StartProgramsOrRefusesZero : Prop :=
  (∀ s : State,
    (∀ f : Word, f ≠ 0 →
      ∃ t, exec (.start f) s = .next t ∧ s.DatapathReset t ∧ s.Programmed t f.toNat ∧ t.initd = s.initd ∧
        t.cresp = s.cresp ++ [0] ∧ s.ResetFrame t) ∧
    (∃ t, exec (.start 0) s = .next t ∧ t.cerrFreq = true ∧ t.cerrIll = s.cerrIll ∧ t.lastCerr = 0x90000000 ∧
      t.cresp = s.cresp ++ [0xFFFFFFFF] ∧ t.flog = s.flog ++ [⟨.zeroFrequency, .control, 0x90000000⟩] ∧
      s.NormalRead t ∧ s.ReadFrame t)) ∧
  (∀ f, encode (.start f) = [0x90000000, f]) ∧
  (∀ w : Word, w.toNat / 2 ^ 28 = 0x9 → illegalOn .write w ∧ (w.toNat ≠ 0x90000000 → illegalOn .control w))

/-- STOP (43_commands.md R199): the timer tick, the datapath reset, the response 0; the timer keeps running and keeps its
comparators; a FEED of any size up to N is accepted next; its word, and the words of its opcode that are illegal. -/
def Obligations.StopResetsAndKeepsTheTimer : Prop :=
  (∀ s : State, ∃ t, exec .stop s = .next t ∧ s.TimerTick t ∧ s.SameProgram t ∧ s.DatapathReset t ∧ t.initd = s.initd ∧
    t.cresp = s.cresp ++ [0] ∧ s.ResetFrame t ∧
    ∀ (count : BitVec 28) (data : List Word), data.length = count.toNat → count.toNat ≤ s.cfg.N →
      ∃ u, exec (.feed count data) t = .next u ∧ u.wresp = s.wresp ++ [1]) ∧
  encode .stop = [0xA0000000] ∧
  (∀ w : Word, w.toNat / 2 ^ 28 = 0xA → illegalOn .write w ∧ (w.toNat ≠ 0xA0000000 → illegalOn .control w))

/-- RDC (43_commands.md R200, 30_encoding.md R89): it responds the pre-edge value its selector names, and the edge is
otherwise a normal read edge; its words, and the words of its opcode that are illegal. -/
def Obligations.RdcRespondsItsRegister : Prop :=
  (∀ (sel : CSel) (s : State), s.Inv →
    ∃ (t : State) (v : Word), exec (.rdc sel) s = .next t ∧ t.cresp = s.cresp ++ [v] ∧
      (match sel with
       | .status => v = s.status
       | .rptr => v.toNat = s.rptr
       | .rpub => v.toNat = s.rpub
       | .wptrR => v.toNat = s.cfg.bin (s.wsync.getD (s.cfg.sSync - 1) 0)
       | .occR => v.toNat = s.cfg.diff s.wptrR s.rptr
       | .freeR => v.toNat = s.cfg.N - s.cfg.diff s.wptrR s.rptr
       | .pending => v.toNat = s.pending
       | .remaining => v.toNat = s.remaining
       | .eaddr => v.toNat = s.eaddr
       | .tmrA => v = s.tmrA
       | .tmrB => v = s.tmrB
       | .tcnt => v = s.tcnt
       | .dout => v = s.dout
       | .lastCerr => v = s.lastCerr) ∧
      s.NormalRead t ∧ s.ReadFrame t ∧ s.SameControlErrors t ∧ t.flog = s.flog) ∧
  [CSel.status, .rptr, .rpub, .wptrR, .occR, .freeR, .pending, .remaining, .eaddr, .tmrA, .tmrB, .tcnt, .dout,
    .lastCerr].map (fun sel => encode (.rdc sel)) = (List.range 14).map (fun k => [BitVec.ofNat 32 (0xB0000000 + k)]) ∧
  (∀ w : Word, w.toNat / 2 ^ 28 = 0xB → illegalOn .write w ∧ (0xB000000E ≤ w.toNat → illegalOn .control w))

/-- The status words, bit by bit (10_state.md R45, R46), with the controller state code of R44 and 42_transfer.md R160. -/
def Obligations.StatusWordLayout : Prop :=
  ∀ s : State,
    s.status.toNat =
      s.active.toNat + 2 * s.cmplEn.toNat + 4 * s.trun.toNat + 8 * s.initd.toNat + 16 * s.cerrIll.toNat +
        32 * s.cerrFreq.toNat +
        64 * (if s.active = false then 0 else if s.pending = 0 then 1 else if 0 < s.remaining then 2 else 3) +
        256 * s.tpre.toNat ∧
    s.wstatus.toNat = s.werrIll.toNat

/-- Every consumed command gives exactly one response on its port, with the value of 30_encoding.md R92, an illegal word gives
ALL1, and an edge that consumes no command gives none. -/
def Obligations.EveryCommandRespondsOnce : Prop :=
  (∀ (i : Instr) (s : State), i.wf = true →
    ∃ (t : State) (v : Word), exec i s = .next t ∧
      (match i.port with
       | .write => t.wresp = s.wresp ++ [v] ∧ t.cresp = s.cresp
       | .control => t.cresp = s.cresp ++ [v] ∧ t.wresp = s.wresp) ∧
      (match i with
       | .nop _ => v = 0
       | .feed count _ => v = if count.toNat ≤ s.freeW then 1 else 0
       | .rdfree => v = BitVec.ofNat 32 s.freeW
       | .rdw sel => v = s.readW sel
       | .init => v = 0
       | .start f => v = if f = 0 then 0xFFFFFFFF else 0
       | .stop => v = 0
       | .rdc sel => v = s.readC sel)) ∧
  (∀ (s t : State), step s = .next t →
    (∀ i n, s.fetch s.nextEdge = .command i n →
      ∃ v, (match i.port with
        | .write => t.wresp = s.wresp ++ [v] ∧ t.cresp = s.cresp
        | .control => t.cresp = s.cresp ++ [v] ∧ t.wresp = s.wresp)) ∧
    (∀ w why, s.fetch s.nextEdge = .illegal w why →
      (match s.nextEdge.port with
        | .write => t.wresp = s.wresp ++ [0xFFFFFFFF] ∧ t.cresp = s.cresp
        | .control => t.cresp = s.cresp ++ [0xFFFFFFFF] ∧ t.wresp = s.wresp)) ∧
    (s.fetch s.nextEdge = .empty → t.wresp = s.wresp ∧ t.cresp = s.cresp))

/-! ## The transfer controller (42_transfer.md) -/

/-- The choice of the controller's action, and that at most one is enabled in a reachable state (42_transfer.md R162). -/
def Obligations.AtMostOneControllerAction : Prop :=
  ∀ s : State,
    (s.action = .engineXfer ↔ s.trig = true ∧ 0 < s.remaining) ∧
    (s.action = .complete ↔ ¬(s.trig = true ∧ 0 < s.remaining) ∧ s.cmplSig = true) ∧
    (s.action = .kick ↔
      ¬(s.trig = true ∧ 0 < s.remaining) ∧ s.cmplSig = false ∧ s.active = false ∧ 0 < s.occR) ∧
    ¬((s.trig = true ∧ 0 < s.remaining) ∧ s.cmplSig = true) ∧
    (s.Inv → s.active = false → s.cmplSig = false ∧ ¬(s.trig = true ∧ 0 < s.remaining))

/-- The transition table of the controller: the action and the next state of each row (42_transfer.md R174). -/
def Obligations.ControllerTransitionTable : Prop :=
  ∀ s : State, s.Inv →
    let u := s.idleEdge .control
    let c := min (s.cfg.crun ((s.rptr + s.pending) % s.cfg.M) s.wptrR) s.cfg.maxChunk
    (s.ctrl = .idle → s.occR = 0 → s.action = .none ∧ u.ctrl = .idle) ∧
    (s.ctrl = .idle → 0 < s.occR → s.action = .kick ∧ u.ctrl = .kicked) ∧
    (s.ctrl = .kicked → s.action = .complete ∧ s.pending = 0 ∧ 1 ≤ c ∧ u.pending = c ∧ u.ctrl = .busy) ∧
    (s.ctrl = .busy → s.trig = false → s.action = .none ∧ u.ctrl = .busy) ∧
    (s.ctrl = .busy → s.trig = true → 1 < s.remaining → s.action = .engineXfer ∧ u.ctrl = .busy) ∧
    (s.ctrl = .busy → s.trig = true → s.remaining = 1 → s.action = .engineXfer ∧ u.ctrl = .done) ∧
    (s.ctrl = .done → 0 < c → s.action = .complete ∧ u.pending = c ∧ u.ctrl = .busy) ∧
    (s.ctrl = .done → c = 0 → s.action = .complete ∧ u.ctrl = .idle) ∧
    (∀ t, exec .stop s = .next t → s.DatapathReset t ∧ t.ctrl = .idle) ∧
    (∀ t, exec .init s = .next t → s.DatapathReset t ∧ t.ctrl = .idle) ∧
    (∀ f t, f ≠ 0 → exec (.start f) s = .next t → s.DatapathReset t ∧ t.ctrl = .idle)

/-- Every armed chunk is bounded by MAX_CHUNK, by the array end and by the data the read domain sees, and a completion moves
the read pointer by the chunk just finished (42_transfer.md R168, R165). -/
def Obligations.ArmedChunkIsBounded : Prop :=
  ∀ s t : State, s.Inv → t = s.idleEdge .control → s.action = .complete →
    t.rptr = (s.rptr + s.pending) % s.cfg.M ∧ s.pending ≤ s.cfg.maxChunk ∧
    (0 < t.pending →
      1 ≤ t.remaining ∧ t.remaining = t.pending ∧ t.pending ≤ s.cfg.maxChunk ∧
      t.pending ≤ s.cfg.N - t.rptr % s.cfg.N ∧ t.pending ≤ s.cfg.diff s.wptrR t.rptr ∧ t.pending ≤ s.occR ∧
      t.eaddr = t.rptr % s.cfg.N)

/-- One completion for each chunk: the edge that takes COMPLETE removes the completion signal (42_transfer.md R169,
70_reset_and_hazards.md R279), and while the signal stands the next normal read edge takes COMPLETE. -/
def Obligations.CompletionIsTakenOnce : Prop :=
  ∀ s : State, s.cmplSig = true → s.action = .complete ∧ (s.idleEdge .control).cmplSig = false

/-- Underrun: a read edge with `remaining = 0` moves no sample, trigger or not, and raises no fault; a stopped timer never
triggers (42_transfer.md R171). -/
def Obligations.UnderrunHoldsTheConverter : Prop :=
  (∀ s : State, s.Inv → s.remaining = 0 →
    s.SameConverter (s.idleEdge .control) ∧ (s.idleEdge .control).eaddr = s.eaddr ∧
      (s.idleEdge .control).flog = s.flog ∧ s.SameControlErrors (s.idleEdge .control)) ∧
  (∀ s : State, s.Inv → (s.ctrl = .idle ∨ s.ctrl = .kicked ∨ s.ctrl = .done) → s.remaining = 0) ∧
  (∀ s : State, s.trun = false → s.trig = false)

/-- With the timer stopped a BUSY controller stays BUSY and outputs nothing, however many read edges pass
(70_reset_and_hazards.md R277). -/
def Obligations.StoppedTimerHoldsTheChunk : Prop :=
  ∀ (s : State) (n : Nat), s.Inv → s.trun = false → s.ctrl = .busy →
    s.SameController (s.idleEdges .control n) ∧ s.SameConverter (s.idleEdges .control n) ∧
      (s.idleEdges .control n).ctrl = .busy

/-! ## The pacing timer (60_exceptions.md) -/

/-- The divider, its corners and its examples (60_exceptions.md R245). -/
def Obligations.DividerIsTheFloorOfTheHalfQuotient : Prop :=
  ∀ (c : Config) (f : Nat), 1 ≤ f →
    divider c.cpuHz f = c.cpuHz / f / 2 ∧ divider c.cpuHz f = c.cpuHz / (2 * f) ∧ divider c.cpuHz f ≤ 2 ^ 31 - 1 ∧ divider c.cpuHz f + 1 < 2 ^ 32 ∧
    (c.cpuHz < f → divider c.cpuHz f = 0) ∧ (c.cpuHz / f = 1 → divider c.cpuHz f = 0) ∧
    (c.cpuHz = 4 → divider c.cpuHz 1 = 2 ∧ divider c.cpuHz 2 = 1 ∧ divider c.cpuHz 3 = 0)

/-- The trigger's period (60_exceptions.md R247): after a START or INIT with divider d, the read edge with number n + 1 after it
is a trigger edge exactly if n + 1 is 2(d + 1) and a multiple of 2(d + 2) more. -/
def Obligations.TriggerPeriod : Prop :=
  ∀ (s t : State) (n d : Nat),
    ((∃ f : Word, f ≠ 0 ∧ exec (.start f) s = .next t ∧ d = s.cfg.cpuHz / f.toNat / 2) ∨
      (exec .init s = .next t ∧ d = s.cfg.cpuHz / s.cfg.initFreqHz / 2)) →
    ((t.idleEdges .control n).trig = true ↔
      2 * (d + 1) ≤ n + 1 ∧ (n + 1 - 2 * (d + 1)) % (2 * (d + 2)) = 0)

/-- A chunk's next sample leaves at the next trigger, at most 2(tmr_b + 1) read edges later (70_reset_and_hazards.md R283). -/
def Obligations.NextSampleLeavesWithinATimerPeriod : Prop :=
  ∀ s : State, s.trun = true → 0 < s.remaining → s.tcnt.toNat ≤ s.tmrB.toNat → s.tmrA.toNat ≤ s.tmrB.toNat →
    ∃ n, 1 ≤ n ∧ n ≤ 2 * (s.tmrB.toNat + 1) ∧ (s.idleEdges .control n).out = s.out ++ [s.memRead s.eaddr] ∧
      (s.idleEdges .control n).remaining + 1 = s.remaining

/-! ## Whole-machine rules -/

/-- Every step keeps the invariant. -/
def Obligations.EveryStepKeepsTheInvariant : Prop :=
  ∀ s t : State, s.Inv → step s = .next t → t.Inv

/-- The invariants of 10_state.md R50, (a) to (f), in every state a run from power-on reaches. -/
def Obligations.ReachableStatesMeetTheRegisterInvariants : Prop :=
  ∀ (k : Nat) (r s : State), r.poweredOn → runsTo k r s →
    s.cmplEn = s.active ∧
    (s.active = false → s.pending = 0 ∧ s.remaining = 0) ∧
    (s.remaining ≤ s.pending ∧ s.pending ≤ s.cfg.maxChunk ∧ (0 < s.remaining → 0 < s.pending)) ∧
    (s.eaddr = ((s.rptr + (s.pending - s.remaining)) % s.cfg.M) % s.cfg.N ∧
      s.rptr % s.cfg.N + s.pending ≤ s.cfg.N) ∧
    (s.cfg.diff s.rpub s.rptrW + s.cfg.diff s.rptr s.rpub + s.cfg.diff s.wptrR s.rptr + s.cfg.diff s.wpub s.wptrR +
        s.cfg.diff s.wptr s.wpub = s.cfg.diff s.wptr s.rptrW ∧
      s.cfg.diff s.wptr s.rptrW ≤ s.cfg.N) ∧
    (s.freeW ≤ s.freeTrue ∧ s.freeTrue ≤ s.cfg.N ∧ s.cfg.diff s.wptrR s.rptr ≤ s.cfg.diff s.wptr s.rptr)

/-- The writers of every state element (10_state.md R47): an element changes at a step only if one of its writers acts. -/
def Obligations.OnlyTheListedWritersWrite : Prop :=
  ∀ s t : State, step s = .next t →
    let feeds := ∃ count data n, s.fetch s.nextEdge = .command (.feed count data) n ∧ count.toNat ≤ s.freeW
    let programs := ∃ i n, s.fetch s.nextEdge = .command i n ∧ (i = .init ∨ ∃ f, f ≠ 0 ∧ i = .start f)
    let acts := fun a => s.nextEdge.port = .control ∧ s.resets = false ∧ s.action = a
    let illegal := fun p => s.nextEdge.port = p ∧ ∃ w why, s.fetch s.nextEdge = .illegal w why
    let zeroFreq := ∃ n, s.fetch s.nextEdge = .command (.start 0) n
    t.cfg = s.cfg ∧
    (t.wptr ≠ s.wptr → feeds ∨ s.resets = true) ∧
    (t.wpub ≠ s.wpub ∨ t.rsync ≠ s.rsync → s.nextEdge.port = .write ∨ s.resets = true) ∧
    (t.werrIll ≠ s.werrIll ∨ t.lastWerr ≠ s.lastWerr → illegal .write) ∧
    (t.rptr ≠ s.rptr ∨ t.pending ≠ s.pending → acts .complete ∨ s.resets = true) ∧
    (t.rpub ≠ s.rpub ∨ t.wsync ≠ s.wsync → s.nextEdge.port = .control) ∧
    (t.active ≠ s.active ∨ t.cmplEn ≠ s.cmplEn → acts .kick ∨ acts .complete ∨ s.resets = true) ∧
    (t.eaddr ≠ s.eaddr ∨ t.remaining ≠ s.remaining → acts .complete ∨ acts .engineXfer ∨ s.resets = true) ∧
    (t.trun ≠ s.trun ∨ t.tmrA ≠ s.tmrA ∨ t.tmrB ≠ s.tmrB → programs) ∧
    (t.tpre ≠ s.tpre ∨ t.tcnt ≠ s.tcnt → s.nextEdge.port = .control ∧ (s.trun = true ∨ programs)) ∧
    (t.initd ≠ s.initd → ∃ n, s.fetch s.nextEdge = .command .init n) ∧
    (t.cerrIll ≠ s.cerrIll → illegal .control) ∧
    (t.cerrFreq ≠ s.cerrFreq → zeroFreq) ∧
    (t.lastCerr ≠ s.lastCerr → illegal .control ∨ zeroFreq) ∧
    (t.dout ≠ s.dout ∨ t.out ≠ s.out → acts .engineXfer) ∧
    (¬s.SameMem t → feeds)

/-- The sticky flags and the error words (60_exceptions.md R236): a flag once set stays set at every step, and a flag or word
changes only as an IllegalCommand or a ZeroFrequency makes it. -/
def Obligations.ErrorFlagsAreSticky : Prop :=
  ∀ s t : State, step s = .next t →
    (s.werrIll = true → t.werrIll = true) ∧ (s.cerrIll = true → t.cerrIll = true) ∧
    (s.cerrFreq = true → t.cerrFreq = true) ∧
    (match s.fetch s.nextEdge with
     | .illegal w _ =>
       (match s.nextEdge.port with
        | .write => t.werrIll = true ∧ t.lastWerr = w ∧ s.SameControlErrors t
        | .control => t.cerrIll = true ∧ t.lastCerr = w ∧ t.cerrFreq = s.cerrFreq ∧ s.SameWriteErrors t)
     | .command (.start f) _ =>
       s.SameWriteErrors t ∧
         (if f = 0 then t.cerrFreq = true ∧ t.lastCerr = 0x90000000 ∧ t.cerrIll = s.cerrIll
          else s.SameControlErrors t)
     | _ => s.SameWriteErrors t ∧ s.SameControlErrors t)

/-- The fault log gains an entry at exactly the steps that raise a fault (60_exceptions.md R230, R234). -/
def Obligations.FaultLogRecordsEveryFault : Prop :=
  ∀ s t : State, step s = .next t →
    t.flog = s.flog ++
      (match s.fetch s.nextEdge with
       | .illegal w _ => [⟨.illegalCommand, s.nextEdge.port, w⟩]
       | .command (.start f) _ => if f = 0 then [⟨.zeroFrequency, .control, 0x90000000⟩] else []
       | _ => [])

/-- No log is ever cleared, by a STOP, INIT or START least of all: each step adds at its end (10_state.md R41, R42,
60_exceptions.md R230). -/
def Obligations.LogsOnlyGrow : Prop :=
  ∀ (k : Nat) (s t : State), runsTo k s t →
    s.out <+: t.out ∧ s.wresp <+: t.wresp ∧ s.cresp <+: t.cresp ∧ s.flog <+: t.flog

/-- Nothing reads the four logs: a run with other entries before them is the same run (10_state.md R41, R42). -/
def Obligations.LogsInfluenceNothing : Prop :=
  ∀ (k : Nat) (s t : State) (o : List Sample) (w c : List Word) (f : List FaultEntry), runsTo k s t →
    runsTo k (s.withLogs o w c f) (t.withLogs o w c f)

/-- `initd` is a status flag only: no step's behaviour depends on it but a STATUS readback (10_state.md R38). -/
def Obligations.InitdInfluencesNothing : Prop :=
  ∀ (s t : State) (b : Bool), step s = .next t → (∀ n, s.fetch s.nextEdge ≠ .command (.rdc .status) n) →
    ∃ b', step { s with initd := b } = .next { t with initd := b' } ∧
      ((∃ n, s.fetch s.nextEdge = .command .init n) → b' = true) ∧
      ((∀ n, s.fetch s.nextEdge ≠ .command .init n) → b' = b)

/-! ## The FIFO property (70_reset_and_hazards.md R287) -/

/-- Every step but a datapath reset keeps the sequence of samples: what is output leaves the head of the unsent samples, what
a FEED adds joins their tail, and nothing else changes either (20_memory.md R70, R73). -/
def Obligations.EveryStepKeepsTheSampleOrder : Prop :=
  ∀ s t : State, s.Inv → step s = .next t → s.resets = false →
    t.out ++ t.unsent = s.out ++ s.unsent ++ s.accepts

/-- A datapath reset discards every unsent sample and outputs none (70_reset_and_hazards.md R276, R280); the buffer's contents
stay (10_state.md R54). -/
def Obligations.ResetDiscardsTheUnsentSamples : Prop :=
  ∀ s t : State, step s = .next t → s.resets = true →
    t.unsent = [] ∧ t.out = s.out ∧ t.dout = s.dout ∧ s.SameMem t ∧ t.ctrl = .idle ∧ t.freeTrue = s.cfg.N ∧
      t.freeW = s.cfg.N ∧ t.freeR = s.cfg.N

/-- A FEED never overwrites a sample that has not been released, the chunk in flight among them: each still reads as before
it. The indices an accepted FEED stores at are disjoint from theirs (20_memory.md R64, R73). -/
def Obligations.FeedNeverOverwritesAnUnsentSample : Prop :=
  ∀ (count : BitVec 28) (data : List Word) (s t : State), s.Inv → exec (.feed count data) s = .next t →
    (∀ j < s.occupied, t.memRead (s.rptr + j) = s.memRead (s.rptr + j)) ∧
    (count.toNat ≤ s.freeW → ∀ k < count.toNat, ∀ j < s.occupied,
      (s.wptr + k) % s.cfg.N ≠ (s.rptr + j) % s.cfg.N)

/-- The FIFO property (70_reset_and_hazards.md R287): from power-on or a datapath reset, and until the next one, the output log
gains a prefix of the accepted payloads in acceptance order, and the whole of them where the run is quiescent. -/
def Obligations.OutputIsAPrefixOfTheAcceptedPayloads : Prop :=
  ∀ (k : Nat) (s t : State),
    (s.poweredOn ∨ ∃ (j : Nat) (r q : State), r.poweredOn ∧ runsTo j r q ∧ q.resets = true ∧ step q = .next s) →
    runsTo k s t → noResetIn k s = true →
    (∃ xs, t.out = s.out ++ xs ∧ xs <+: acceptedIn k s) ∧
    (t.over → t.out = s.out ++ acceptedIn k s)

/-- In a quiescent state an edge without a command changes the timer's `tpre` and `tcnt` only (70_reset_and_hazards.md
R284). -/
def Obligations.QuiescentEdgesMoveTheTimerOnly : Prop :=
  ∀ (s : State) (p : Port), s.Inv → s.quiescent →
    s.idleEdge p = { s with tpre := (s.idleEdge p).tpre, tcnt := (s.idleEdge p).tcnt } ∧ (s.idleEdge p).quiescent ∧
      (p = .write → s.idleEdge p = s)
end

