-- ==== Sys2Proof/Laws/Decode.lean ====
section
/-! SUPPORT. The fields of a command word, the selectors' numbers, and what each encoded command word reads as. -/

namespace Sys2Proof

/-- A command word as a number: OP above ARG. -/
theorem commandWord_toNat (op : BitVec 4) (arg : BitVec 28) :
    (commandWord op arg).toNat = op.toNat * 2 ^ 28 + arg.toNat := by
  have h := Nat.shiftLeft_add_eq_or_of_lt arg.isLt op.toNat
  rw [Nat.shiftLeft_eq] at h
  simp only [commandWord, BitVec.toNat_append, Nat.shiftLeft_eq]
  exact h.symm

/-- OP as a number: the top four bits. -/
theorem opField_toNat (w : Word) : (opField w).toNat = w.toNat / 2 ^ 28 := by
  have := w.isLt
  simp only [opField, BitVec.extractLsb'_toNat, Nat.shiftRight_eq_div_pow]
  omega

/-- ARG as a number: the low 28 bits. -/
theorem argField_toNat (w : Word) : (argField w).toNat = w.toNat % 2 ^ 28 := by
  simp [argField, BitVec.extractLsb'_toNat]

/-- OP of a command word is the OP it was made with. -/
@[simp] theorem opField_commandWord (op : BitVec 4) (arg : BitVec 28) : opField (commandWord op arg) = op := by
  have := arg.isLt
  apply BitVec.eq_of_toNat_eq
  rw [opField_toNat, commandWord_toNat]
  omega

/-- ARG of a command word is the ARG it was made with. -/
@[simp] theorem argField_commandWord (op : BitVec 4) (arg : BitVec 28) : argField (commandWord op arg) = arg := by
  have := arg.isLt
  apply BitVec.eq_of_toNat_eq
  rw [argField_toNat, commandWord_toNat]
  omega

/-- A word is the command word of its two fields. -/
theorem commandWord_fields (w : Word) : commandWord (opField w) (argField w) = w := by
  apply BitVec.eq_of_toNat_eq
  rw [commandWord_toNat, opField_toNat, argField_toNat]
  omega

/-- The number of a selector names it. -/
@[simp] theorem WSel.ofNumber_number (sel : WSel) : WSel.ofNumber sel.number = some sel := by cases sel <;> rfl

/-- The number of a selector names it. -/
@[simp] theorem CSel.ofNumber_number (sel : CSel) : CSel.ofNumber sel.number = some sel := by cases sel <;> rfl

/-- RDW selectors are the numbers 0 to 4. -/
theorem WSel.number_lt (sel : WSel) : sel.number < 5 := by cases sel <;> decide

/-- RDC selectors are the numbers 0 to 13. -/
theorem CSel.number_lt (sel : CSel) : sel.number < 14 := by cases sel <;> decide

/-- A number that names an RDW selector is that selector's. -/
theorem WSel.number_of_ofNumber {n : Nat} {sel : WSel} (h : WSel.ofNumber n = some sel) : sel.number = n := by
  unfold WSel.ofNumber at h
  split at h <;> first | (cases h; rfl) | cases h

/-- A number that names an RDC selector is that selector's. -/
theorem CSel.number_of_ofNumber {n : Nat} {sel : CSel} (h : CSel.ofNumber n = some sel) : sel.number = n := by
  unfold CSel.ofNumber at h
  split at h <;> first | (cases h; rfl) | cases h

/-- The NOP word reads as NOP on both ports. -/
@[simp] theorem headOf_nop (p : Port) : headOf p (commandWord 0x0#4 0#28) = .nop := by cases p <;> decide

/-- A FEED word reads as FEED of its COUNT on the write port. -/
@[simp] theorem headOf_feed (count : BitVec 28) : headOf .write (commandWord 0x1#4 count) = .feed count := by
  simp [headOf, decodeW]

/-- The RDFREE word reads as RDFREE on the write port. -/
@[simp] theorem headOf_rdfree : headOf .write (commandWord 0x2#4 0#28) = .rdfree := by decide

/-- An RDW word reads as RDW of its selector on the write port. -/
@[simp] theorem headOf_rdw (sel : WSel) : headOf .write (commandWord 0x3#4 (BitVec.ofNat 28 sel.number)) = .rdw sel := by
  cases sel <;> decide

/-- The INIT word reads as INIT on the control port. -/
@[simp] theorem headOf_init : headOf .control (commandWord 0x8#4 0#28) = .init := by decide

/-- The START word reads as START on the control port. -/
@[simp] theorem headOf_start : headOf .control (commandWord 0x9#4 0#28) = .start := by decide

/-- The STOP word reads as STOP on the control port. -/
@[simp] theorem headOf_stop : headOf .control (commandWord 0xA#4 0#28) = .stop := by decide

/-- An RDC word reads as RDC of its selector on the control port. -/
@[simp] theorem headOf_rdc (sel : CSel) :
    headOf .control (commandWord 0xB#4 (BitVec.ofNat 28 sel.number)) = .rdc sel := by
  cases sel <;> decide

/-- The heads a port can read: those of its own commands, NOP, and illegal (30_encoding.md R86). -/
def Head.isOn (h : Head) (p : Port) : Bool :=
  match h with
  | .nop => true
  | .feed _ => p == .write
  | .rdfree => p == .write
  | .rdw _ => p == .write
  | .init => p == .control
  | .start => p == .control
  | .stop => p == .control
  | .rdc _ => p == .control
  | .illegal _ => true

/-- Each port reads heads of its own only (30_encoding.md R86). -/
theorem headOf_isOn (p : Port) (w : Word) : (headOf p w).isOn p = true := by
  cases p <;> simp only [headOf, decodeW, decodeC, headOfZeroArg] <;> split <;> (try split) <;> (try split) <;> rfl

/-- What a command the decoder reads says of its head (30_encoding.md R82, R83, R84). -/
theorem decode_command_cases {p : Port} {w : Word} {rest : List Word} {i : Instr} {n : Nat}
    (h : decode p (w :: rest) = .command i n) :
    (headOf p w = .nop ∧ i = .nop p ∧ n = 1) ∨
    (∃ count, headOf p w = .feed count ∧ count.toNat ≤ rest.length ∧ i = .feed count (rest.take count.toNat) ∧
      n = 1 + count.toNat) ∨
    (headOf p w = .rdfree ∧ i = .rdfree ∧ n = 1) ∨
    (∃ sel, headOf p w = .rdw sel ∧ i = .rdw sel ∧ n = 1) ∨
    (headOf p w = .init ∧ i = .init ∧ n = 1) ∨
    (∃ f tail, headOf p w = .start ∧ rest = f :: tail ∧ i = .start f ∧ n = 2) ∨
    (headOf p w = .stop ∧ i = .stop ∧ n = 1) ∨
    (∃ sel, headOf p w = .rdc sel ∧ i = .rdc sel ∧ n = 1) := by
  cases hd : headOf p w <;> simp only [decode, hd] at h
  case feed count =>
    split at h
    · cases h; simp_all
    · cases h
  case start =>
    cases rest with
    | nil => cases h
    | cons f tail => cases h; simp
  all_goals cases h
  all_goals simp

/-- A command the decoder reads belongs to the port that received it (30_encoding.md R86). -/
theorem port_of_decode {p : Port} {ws : List Word} {i : Instr} {n : Nat} (h : decode p ws = .command i n) :
    i.port = p := by
  cases ws with
  | nil => cases h
  | cons w rest =>
    have ho := headOf_isOn p w
    rcases decode_command_cases h with ⟨hd, rfl, -⟩ | ⟨_, hd, -, rfl, -⟩ | ⟨hd, rfl, -⟩ | ⟨_, hd, rfl, -⟩ | ⟨hd, rfl, -⟩ |
      ⟨_, _, hd, -, rfl, -⟩ | ⟨hd, rfl, -⟩ | ⟨_, hd, rfl, -⟩ <;> cases p <;> first | rfl | (rw [hd] at ho; cases ho)

end Sys2Proof
end

