-- ==== Sys2Proof/Laws/Memory.lean ====
section
/-! SUPPORT. Memory: a read after a write, the other places, and the canonical form, which every memory operation keeps. -/

namespace Sys2Proof.Machine

/-- A read of the index just written gives the sample written. -/
@[simp] theorem Memory.find_insert_same (m : Memory) (i : Nat) (v : Sample) :
    Memory.find (Memory.insert m i v) i = some v := by
  induction m with
  | nil => simp [Memory.insert, Memory.find]
  | cons e rest ih =>
    obtain ⟨j, u⟩ := e
    simp only [Memory.insert]
    split
    · simp [Memory.find]
    · split
      · simp [Memory.find]
      · rename_i h1 h2
        simp [Memory.find, h2, ih]

/-- A write leaves every other index alone. -/
theorem Memory.find_insert_other (m : Memory) (i k : Nat) (v : Sample) (h : k ≠ i) :
    Memory.find (Memory.insert m i v) k = Memory.find m k := by
  induction m with
  | nil => simp [Memory.insert, Memory.find, h]
  | cons e rest ih =>
    obtain ⟨j, u⟩ := e
    simp only [Memory.insert]
    split
    · simp [Memory.find, h]
    · split
      · subst_vars
        simp [Memory.find, h]
      · simp [Memory.find, ih]

/-- The indices a write lists are those listed before and the one written. -/
theorem Memory.mem_insert (m : Memory) (i : Nat) (v : Sample) (e : Nat × Sample) (h : e ∈ Memory.insert m i v) :
    e = (i, v) ∨ e ∈ m := by
  induction m with
  | nil => simpa [Memory.insert] using h
  | cons x rest ih =>
    obtain ⟨j, u⟩ := x
    simp only [Memory.insert] at h
    split at h
    · simpa using h
    · split at h
      · rcases List.mem_cons.mp h with h | h
        · exact .inl h
        · exact .inr (List.mem_cons_of_mem _ h)
      · rcases List.mem_cons.mp h with h | h
        · exact .inr (h ▸ List.mem_cons_self)
        · rcases ih h with h | h
          · exact .inl h
          · exact .inr (List.mem_cons_of_mem _ h)

/-- A write keeps the canonical form. -/
theorem Memory.insert_wf (m : Memory) (i : Nat) (v : Sample) (h : Memory.wf m) : Memory.wf (Memory.insert m i v) := by
  induction m with
  | nil => simp [Memory.insert, Memory.wf]
  | cons e rest ih =>
    obtain ⟨j, u⟩ := e
    simp only [Memory.wf, List.map_cons, List.pairwise_cons] at h
    simp only [Memory.insert]
    split
    · rename_i hij
      simp only [Memory.wf, List.map_cons, List.pairwise_cons]
      refine ⟨fun a ha => ?_, h⟩
      rcases List.mem_cons.mp ha with rfl | ha
      · exact hij
      · exact lt_trans hij (h.1 a ha)
    · split
      · subst_vars
        simpa [Memory.wf] using h
      · rename_i h1 h2
        simp only [Memory.wf, List.map_cons, List.pairwise_cons]
        refine ⟨fun a ha => ?_, ih h.2⟩
        obtain ⟨x, hx, rfl⟩ := List.mem_map.mp ha
        rcases Memory.mem_insert rest i v x hx with rfl | hx
        · simp only; omega
        · exact h.1 _ (List.mem_map_of_mem hx)

/-- Writing a list of samples keeps the canonical form. -/
theorem writeSamples_wf (c : Config) (xs : List Sample) (p : Nat) (m : Memory) (h : Memory.wf m) :
    Memory.wf (Config.writeSamples c p xs m) := by
  induction xs generalizing p m with
  | nil => exact h
  | cons v rest ih => exact ih _ _ (Memory.insert_wf m _ v h)

/-- The memory of a power-on state has the canonical form. -/
theorem powerOn_mem_wf (c : Config) : Memory.wf (State.powerOn c).mem := List.Pairwise.nil

/-- The entries a list of samples leaves in memory: those before, and one of the samples at an index below N. -/
theorem mem_writeSamples (c : Config) (xs : List Sample) (p : Nat) (m : Memory) (e : Nat × Sample)
    (h : e ∈ Config.writeSamples c p xs m) : e ∈ m ∨ (e.1 < c.N ∧ e.2 ∈ xs) := by
  induction xs generalizing p m with
  | nil => exact .inl h
  | cons v rest ih =>
    rcases ih _ _ h with h | h
    · rcases Memory.mem_insert _ _ _ _ h with rfl | h
      · exact .inr ⟨Nat.mod_lt _ (Nat.two_pow_pos _), List.mem_cons_self⟩
      · exact .inl h
    · exact .inr ⟨h.1, List.mem_cons_of_mem _ h.2⟩

/-- Stepping a pointer and then adding is adding one more. -/
theorem idx_padd_add (c : Config) (p k : Nat) : c.idx (c.padd p 1 + k) = c.idx (p + (k + 1)) := by
  have hM : c.M = 2 * c.N := by simp [Config.M, Config.N, Config.P, Nat.pow_succ, Nat.mul_comm]
  unfold Config.idx Config.padd
  rw [hM, Nat.add_mod, Nat.mod_mod_of_dvd _ (Dvd.intro_left 2 rfl), ← Nat.add_mod]
  congr 1
  omega

/-- An index that none of the samples' pointers names keeps its contents. -/
theorem find_writeSamples_other (c : Config) (xs : List Sample) (p i : Nat) (m : Memory)
    (h : ∀ k < xs.length, i ≠ c.idx (p + k)) :
    Memory.find (Config.writeSamples c p xs m) i = Memory.find m i := by
  induction xs generalizing p m with
  | nil => rfl
  | cons v rest ih =>
    simp only [Config.writeSamples]
    rw [ih _ _ fun k hk => by
      rw [idx_padd_add]
      exact h (k + 1) (by simp only [List.length_cons]; omega)]
    exact Memory.find_insert_other _ _ _ _ (by simpa using h 0 (by simp))

/-- Sample k of a list that fits in the buffer stands at the index its pointer names. -/
theorem find_writeSamples_same (c : Config) (xs : List Sample) (p k : Nat) (m : Memory) (v : Sample)
    (hlen : xs.length ≤ c.N) (hk : xs[k]? = some v) :
    Memory.find (Config.writeSamples c p xs m) (c.idx (p + k)) = some v := by
  induction xs generalizing p m k with
  | nil => simp at hk
  | cons u rest ih =>
    simp only [List.length_cons] at hlen
    simp only [Config.writeSamples]
    cases k with
    | zero =>
      simp only [List.getElem?_cons_zero, Option.some.injEq] at hk
      subst hk
      rw [find_writeSamples_other]
      · simp
      · intro j hj
        rw [idx_padd_add]
        unfold Config.idx
        intro h
        have h1 : (p + 0) % c.N = (p + (j + 1)) % c.N := h
        have h2 := (Nat.ModEq.add_left_cancel' p h1 : 0 ≡ j + 1 [MOD c.N])
        have h3 := (Nat.modEq_zero_iff_dvd.mp h2.symm)
        have := Nat.le_of_dvd (by omega) h3
        omega
    | succ k =>
      simp only [List.getElem?_cons_succ] at hk
      have := ih (c.padd p 1) k (Memory.insert m (c.idx p) u) (by omega) hk
      rwa [idx_padd_add] at this

end Sys2Proof.Machine
end

