-- ==== Sys2Proof/Laws/Pointer.lean ====
section
/-! SUPPORT. The parameters, pointer arithmetic and the chains: the facts every later proof cites. -/

namespace Sys2Proof

variable (c : Config)

theorem Config.N_pos : 0 < c.N := Nat.two_pow_pos _

theorem Config.M_pos : 0 < c.M := Nat.two_pow_pos _

theorem Config.M_eq : c.M = 2 * c.N := by
  simp [Config.M, Config.N, Config.P, Nat.pow_succ, Nat.mul_comm]

/-- The capacity is at most 2^27 samples (00_scope.md R6). -/
theorem Config.N_le : c.N ≤ 2 ^ 27 := Nat.pow_le_pow_right (by decide) c.legal.1.2

theorem Config.maxChunk_pos : 0 < c.maxChunk := c.legal.2.2.1.1

theorem Config.maxChunk_le : c.maxChunk ≤ c.N := c.legal.2.2.1.2

theorem Config.sSync_ge : 2 ≤ c.sSync := c.legal.2.2.2.1

theorem Config.cpuHz_lt : c.cpuHz < 2 ^ 32 := Nat.lt_of_le_of_lt c.legal.2.2.2.2.1.2 (by decide)

theorem Config.idx_lt (p : Nat) : c.idx p < c.N := Nat.mod_lt _ c.N_pos

theorem Config.padd_lt (a b : Nat) : c.padd a b < c.M := Nat.mod_lt _ c.M_pos

theorem Config.diff_lt (a b : Nat) : c.diff a b < c.M := Nat.mod_lt _ c.M_pos

/-- The distance from `b` forward to `a`, for pointers in range: no wrap, or one. -/
theorem Config.diff_eq (a b : Nat) (ha : a < c.M) (hb : b < c.M) :
    c.diff a b = if b ≤ a then a - b else a + c.M - b := by
  unfold Config.diff
  rw [Nat.mod_eq_of_lt hb]
  split
  · rw [show a + (c.M - b) = (a - b) + c.M by omega, Nat.add_mod_right, Nat.mod_eq_of_lt (by omega)]
  · rw [show a + (c.M - b) = a + c.M - b by omega, Nat.mod_eq_of_lt (by omega)]

@[simp] theorem Config.diff_self (a : Nat) (ha : a < c.M) : c.diff a a = 0 := by
  rw [c.diff_eq a a ha ha]; simp

theorem xorShifts_zero (k : Nat) : xorShifts k 0 = 0 := by
  induction k with
  | zero => rfl
  | succ k ih => simp [xorShifts, ih]

@[simp] theorem Config.bin_zero : c.bin 0 = 0 := xorShifts_zero _

@[simp] theorem gray_zero : gray 0 = 0 := rfl

/-- The gray code of a pointer has the pointer's width. -/
theorem gray_lt (x k : Nat) (h : x < 2 ^ k) : gray x < 2 ^ k :=
  Nat.xor_lt_two_pow h (Nat.lt_of_le_of_lt (Nat.shiftRight_le x 1) h)

theorem xorShifts_lt (k g n : Nat) (h : g < 2 ^ n) : xorShifts k g < 2 ^ n := by
  induction k generalizing g with
  | zero => exact Nat.two_pow_pos _
  | succ k ih => exact Nat.xor_lt_two_pow h (ih _ (Nat.lt_of_le_of_lt (Nat.shiftRight_le g 1) h))

/-- The binary pointer of a gray code has its width. -/
theorem Config.bin_lt (g : Nat) (h : g < c.M) : c.bin g < c.M := xorShifts_lt _ _ _ h

theorem xorShifts_xor (k a b : Nat) : xorShifts k (a ^^^ b) = xorShifts k a ^^^ xorShifts k b := by
  induction k generalizing a b with
  | zero => simp [xorShifts]
  | succ k ih =>
    simp only [xorShifts, Nat.shiftRight_xor_distrib, ih]
    ac_rfl

/-- The stages of a chain after a shift. -/
theorem Config.getElem?_shiftIn (g : Nat) (chain : List Nat) (k : Nat) :
    (c.shiftIn g chain)[k]? = if c.sSync ≤ k then none else if k = 0 then some g else chain[k - 1]? := by
  simp only [Config.shiftIn, List.getElem?_take]
  by_cases h : k < c.sSync
  · rw [if_pos h, if_neg (by omega)]
    cases k <;> simp
  · rw [if_neg h, if_pos (by omega)]

@[simp] theorem Config.length_shiftIn (g : Nat) (chain : List Nat) (h : chain.length = c.sSync) :
    (c.shiftIn g chain).length = c.sSync := by
  have := c.sSync_ge
  simp [Config.shiftIn, h]

end Sys2Proof
end

