-- ==== Sys2Proof/Laws/State.lean ====
section
/-! SUPPORT. One lemma per field per update of the state: what each named update writes, and what it leaves. -/

namespace Sys2Proof.Machine

variable (s : State)

/-! ### dpreset -/

@[simp] theorem State.dpreset_cfg : s.dpreset.cfg = s.cfg := rfl
@[simp] theorem State.dpreset_wptr : s.dpreset.wptr = 0 := rfl
@[simp] theorem State.dpreset_wpub : s.dpreset.wpub = 0 := rfl
@[simp] theorem State.dpreset_rsync : s.dpreset.rsync = List.replicate s.cfg.sSync 0 := rfl
@[simp] theorem State.dpreset_werrIll : s.dpreset.werrIll = s.werrIll := rfl
@[simp] theorem State.dpreset_lastWerr : s.dpreset.lastWerr = s.lastWerr := rfl
@[simp] theorem State.dpreset_rptr : s.dpreset.rptr = 0 := rfl
@[simp] theorem State.dpreset_rpub : s.dpreset.rpub = 0 := rfl
@[simp] theorem State.dpreset_wsync : s.dpreset.wsync = List.replicate s.cfg.sSync 0 := rfl
@[simp] theorem State.dpreset_active : s.dpreset.active = false := rfl
@[simp] theorem State.dpreset_cmplEn : s.dpreset.cmplEn = false := rfl
@[simp] theorem State.dpreset_pending : s.dpreset.pending = 0 := rfl
@[simp] theorem State.dpreset_eaddr : s.dpreset.eaddr = 0 := rfl
@[simp] theorem State.dpreset_remaining : s.dpreset.remaining = 0 := rfl
@[simp] theorem State.dpreset_trun : s.dpreset.trun = s.trun := rfl
@[simp] theorem State.dpreset_tpre : s.dpreset.tpre = s.tpre := rfl
@[simp] theorem State.dpreset_tcnt : s.dpreset.tcnt = s.tcnt := rfl
@[simp] theorem State.dpreset_tmrA : s.dpreset.tmrA = s.tmrA := rfl
@[simp] theorem State.dpreset_tmrB : s.dpreset.tmrB = s.tmrB := rfl
@[simp] theorem State.dpreset_initd : s.dpreset.initd = s.initd := rfl
@[simp] theorem State.dpreset_cerrIll : s.dpreset.cerrIll = s.cerrIll := rfl
@[simp] theorem State.dpreset_cerrFreq : s.dpreset.cerrFreq = s.cerrFreq := rfl
@[simp] theorem State.dpreset_lastCerr : s.dpreset.lastCerr = s.lastCerr := rfl
@[simp] theorem State.dpreset_dout : s.dpreset.dout = s.dout := rfl
@[simp] theorem State.dpreset_mem : s.dpreset.mem = s.mem := rfl
@[simp] theorem State.dpreset_out : s.dpreset.out = s.out := rfl
@[simp] theorem State.dpreset_wresp : s.dpreset.wresp = s.wresp := rfl
@[simp] theorem State.dpreset_cresp : s.dpreset.cresp = s.cresp := rfl
@[simp] theorem State.dpreset_flog : s.dpreset.flog = s.flog := rfl
@[simp] theorem State.dpreset_wstream : s.dpreset.wstream = s.wstream := rfl
@[simp] theorem State.dpreset_wpos : s.dpreset.wpos = s.wpos := rfl
@[simp] theorem State.dpreset_cstream : s.dpreset.cstream = s.cstream := rfl
@[simp] theorem State.dpreset_cpos : s.dpreset.cpos = s.cpos := rfl
@[simp] theorem State.dpreset_sched : s.dpreset.sched = s.sched := rfl
@[simp] theorem State.dpreset_edges : s.dpreset.edges = s.edges := rfl

/-! ### bufWrite -/

@[simp] theorem State.bufWrite_cfg (xs : List Sample) : (s.bufWrite xs).cfg = s.cfg := rfl
@[simp] theorem State.bufWrite_wptr (xs : List Sample) : (s.bufWrite xs).wptr = s.cfg.padd s.wptr xs.length := rfl
@[simp] theorem State.bufWrite_wpub (xs : List Sample) : (s.bufWrite xs).wpub = s.wpub := rfl
@[simp] theorem State.bufWrite_rsync (xs : List Sample) : (s.bufWrite xs).rsync = s.rsync := rfl
@[simp] theorem State.bufWrite_werrIll (xs : List Sample) : (s.bufWrite xs).werrIll = s.werrIll := rfl
@[simp] theorem State.bufWrite_lastWerr (xs : List Sample) : (s.bufWrite xs).lastWerr = s.lastWerr := rfl
@[simp] theorem State.bufWrite_rptr (xs : List Sample) : (s.bufWrite xs).rptr = s.rptr := rfl
@[simp] theorem State.bufWrite_rpub (xs : List Sample) : (s.bufWrite xs).rpub = s.rpub := rfl
@[simp] theorem State.bufWrite_wsync (xs : List Sample) : (s.bufWrite xs).wsync = s.wsync := rfl
@[simp] theorem State.bufWrite_active (xs : List Sample) : (s.bufWrite xs).active = s.active := rfl
@[simp] theorem State.bufWrite_cmplEn (xs : List Sample) : (s.bufWrite xs).cmplEn = s.cmplEn := rfl
@[simp] theorem State.bufWrite_pending (xs : List Sample) : (s.bufWrite xs).pending = s.pending := rfl
@[simp] theorem State.bufWrite_eaddr (xs : List Sample) : (s.bufWrite xs).eaddr = s.eaddr := rfl
@[simp] theorem State.bufWrite_remaining (xs : List Sample) : (s.bufWrite xs).remaining = s.remaining := rfl
@[simp] theorem State.bufWrite_trun (xs : List Sample) : (s.bufWrite xs).trun = s.trun := rfl
@[simp] theorem State.bufWrite_tpre (xs : List Sample) : (s.bufWrite xs).tpre = s.tpre := rfl
@[simp] theorem State.bufWrite_tcnt (xs : List Sample) : (s.bufWrite xs).tcnt = s.tcnt := rfl
@[simp] theorem State.bufWrite_tmrA (xs : List Sample) : (s.bufWrite xs).tmrA = s.tmrA := rfl
@[simp] theorem State.bufWrite_tmrB (xs : List Sample) : (s.bufWrite xs).tmrB = s.tmrB := rfl
@[simp] theorem State.bufWrite_initd (xs : List Sample) : (s.bufWrite xs).initd = s.initd := rfl
@[simp] theorem State.bufWrite_cerrIll (xs : List Sample) : (s.bufWrite xs).cerrIll = s.cerrIll := rfl
@[simp] theorem State.bufWrite_cerrFreq (xs : List Sample) : (s.bufWrite xs).cerrFreq = s.cerrFreq := rfl
@[simp] theorem State.bufWrite_lastCerr (xs : List Sample) : (s.bufWrite xs).lastCerr = s.lastCerr := rfl
@[simp] theorem State.bufWrite_dout (xs : List Sample) : (s.bufWrite xs).dout = s.dout := rfl
@[simp] theorem State.bufWrite_mem (xs : List Sample) : (s.bufWrite xs).mem = Config.writeSamples s.cfg s.wptr xs s.mem := rfl
@[simp] theorem State.bufWrite_out (xs : List Sample) : (s.bufWrite xs).out = s.out := rfl
@[simp] theorem State.bufWrite_wresp (xs : List Sample) : (s.bufWrite xs).wresp = s.wresp := rfl
@[simp] theorem State.bufWrite_cresp (xs : List Sample) : (s.bufWrite xs).cresp = s.cresp := rfl
@[simp] theorem State.bufWrite_flog (xs : List Sample) : (s.bufWrite xs).flog = s.flog := rfl
@[simp] theorem State.bufWrite_wstream (xs : List Sample) : (s.bufWrite xs).wstream = s.wstream := rfl
@[simp] theorem State.bufWrite_wpos (xs : List Sample) : (s.bufWrite xs).wpos = s.wpos := rfl
@[simp] theorem State.bufWrite_cstream (xs : List Sample) : (s.bufWrite xs).cstream = s.cstream := rfl
@[simp] theorem State.bufWrite_cpos (xs : List Sample) : (s.bufWrite xs).cpos = s.cpos := rfl
@[simp] theorem State.bufWrite_sched (xs : List Sample) : (s.bufWrite xs).sched = s.sched := rfl
@[simp] theorem State.bufWrite_edges (xs : List Sample) : (s.bufWrite xs).edges = s.edges := rfl

/-! ### timerTick -/

@[simp] theorem State.timerTick_cfg : s.timerTick.cfg = s.cfg := rfl
@[simp] theorem State.timerTick_wptr : s.timerTick.wptr = s.wptr := rfl
@[simp] theorem State.timerTick_wpub : s.timerTick.wpub = s.wpub := rfl
@[simp] theorem State.timerTick_rsync : s.timerTick.rsync = s.rsync := rfl
@[simp] theorem State.timerTick_werrIll : s.timerTick.werrIll = s.werrIll := rfl
@[simp] theorem State.timerTick_lastWerr : s.timerTick.lastWerr = s.lastWerr := rfl
@[simp] theorem State.timerTick_rptr : s.timerTick.rptr = s.rptr := rfl
@[simp] theorem State.timerTick_rpub : s.timerTick.rpub = s.rpub := rfl
@[simp] theorem State.timerTick_wsync : s.timerTick.wsync = s.wsync := rfl
@[simp] theorem State.timerTick_active : s.timerTick.active = s.active := rfl
@[simp] theorem State.timerTick_cmplEn : s.timerTick.cmplEn = s.cmplEn := rfl
@[simp] theorem State.timerTick_pending : s.timerTick.pending = s.pending := rfl
@[simp] theorem State.timerTick_eaddr : s.timerTick.eaddr = s.eaddr := rfl
@[simp] theorem State.timerTick_remaining : s.timerTick.remaining = s.remaining := rfl
@[simp] theorem State.timerTick_trun : s.timerTick.trun = s.trun := rfl
@[simp] theorem State.timerTick_tpre : s.timerTick.tpre = (if s.trun then !s.tpre else s.tpre) := rfl
@[simp] theorem State.timerTick_tcnt : s.timerTick.tcnt = (if s.trun && s.tpre then s.tickedCount else s.tcnt) := rfl
@[simp] theorem State.timerTick_tmrA : s.timerTick.tmrA = s.tmrA := rfl
@[simp] theorem State.timerTick_tmrB : s.timerTick.tmrB = s.tmrB := rfl
@[simp] theorem State.timerTick_initd : s.timerTick.initd = s.initd := rfl
@[simp] theorem State.timerTick_cerrIll : s.timerTick.cerrIll = s.cerrIll := rfl
@[simp] theorem State.timerTick_cerrFreq : s.timerTick.cerrFreq = s.cerrFreq := rfl
@[simp] theorem State.timerTick_lastCerr : s.timerTick.lastCerr = s.lastCerr := rfl
@[simp] theorem State.timerTick_dout : s.timerTick.dout = s.dout := rfl
@[simp] theorem State.timerTick_mem : s.timerTick.mem = s.mem := rfl
@[simp] theorem State.timerTick_out : s.timerTick.out = s.out := rfl
@[simp] theorem State.timerTick_wresp : s.timerTick.wresp = s.wresp := rfl
@[simp] theorem State.timerTick_cresp : s.timerTick.cresp = s.cresp := rfl
@[simp] theorem State.timerTick_flog : s.timerTick.flog = s.flog := rfl
@[simp] theorem State.timerTick_wstream : s.timerTick.wstream = s.wstream := rfl
@[simp] theorem State.timerTick_wpos : s.timerTick.wpos = s.wpos := rfl
@[simp] theorem State.timerTick_cstream : s.timerTick.cstream = s.cstream := rfl
@[simp] theorem State.timerTick_cpos : s.timerTick.cpos = s.cpos := rfl
@[simp] theorem State.timerTick_sched : s.timerTick.sched = s.sched := rfl
@[simp] theorem State.timerTick_edges : s.timerTick.edges = s.edges := rfl

/-! ### tprog -/

@[simp] theorem State.tprog_cfg (f : Nat) : (s.tprog f).cfg = s.cfg := rfl
@[simp] theorem State.tprog_wptr (f : Nat) : (s.tprog f).wptr = s.wptr := rfl
@[simp] theorem State.tprog_wpub (f : Nat) : (s.tprog f).wpub = s.wpub := rfl
@[simp] theorem State.tprog_rsync (f : Nat) : (s.tprog f).rsync = s.rsync := rfl
@[simp] theorem State.tprog_werrIll (f : Nat) : (s.tprog f).werrIll = s.werrIll := rfl
@[simp] theorem State.tprog_lastWerr (f : Nat) : (s.tprog f).lastWerr = s.lastWerr := rfl
@[simp] theorem State.tprog_rptr (f : Nat) : (s.tprog f).rptr = s.rptr := rfl
@[simp] theorem State.tprog_rpub (f : Nat) : (s.tprog f).rpub = s.rpub := rfl
@[simp] theorem State.tprog_wsync (f : Nat) : (s.tprog f).wsync = s.wsync := rfl
@[simp] theorem State.tprog_active (f : Nat) : (s.tprog f).active = s.active := rfl
@[simp] theorem State.tprog_cmplEn (f : Nat) : (s.tprog f).cmplEn = s.cmplEn := rfl
@[simp] theorem State.tprog_pending (f : Nat) : (s.tprog f).pending = s.pending := rfl
@[simp] theorem State.tprog_eaddr (f : Nat) : (s.tprog f).eaddr = s.eaddr := rfl
@[simp] theorem State.tprog_remaining (f : Nat) : (s.tprog f).remaining = s.remaining := rfl
@[simp] theorem State.tprog_trun (f : Nat) : (s.tprog f).trun = true := rfl
@[simp] theorem State.tprog_tpre (f : Nat) : (s.tprog f).tpre = false := rfl
@[simp] theorem State.tprog_tcnt (f : Nat) : (s.tprog f).tcnt = 0 := rfl
@[simp] theorem State.tprog_tmrA (f : Nat) : (s.tprog f).tmrA = BitVec.ofNat 32 (divider s.cfg.cpuHz f) := rfl
@[simp] theorem State.tprog_tmrB (f : Nat) : (s.tprog f).tmrB = BitVec.ofNat 32 (divider s.cfg.cpuHz f + 1) := rfl
@[simp] theorem State.tprog_initd (f : Nat) : (s.tprog f).initd = s.initd := rfl
@[simp] theorem State.tprog_cerrIll (f : Nat) : (s.tprog f).cerrIll = s.cerrIll := rfl
@[simp] theorem State.tprog_cerrFreq (f : Nat) : (s.tprog f).cerrFreq = s.cerrFreq := rfl
@[simp] theorem State.tprog_lastCerr (f : Nat) : (s.tprog f).lastCerr = s.lastCerr := rfl
@[simp] theorem State.tprog_dout (f : Nat) : (s.tprog f).dout = s.dout := rfl
@[simp] theorem State.tprog_mem (f : Nat) : (s.tprog f).mem = s.mem := rfl
@[simp] theorem State.tprog_out (f : Nat) : (s.tprog f).out = s.out := rfl
@[simp] theorem State.tprog_wresp (f : Nat) : (s.tprog f).wresp = s.wresp := rfl
@[simp] theorem State.tprog_cresp (f : Nat) : (s.tprog f).cresp = s.cresp := rfl
@[simp] theorem State.tprog_flog (f : Nat) : (s.tprog f).flog = s.flog := rfl
@[simp] theorem State.tprog_wstream (f : Nat) : (s.tprog f).wstream = s.wstream := rfl
@[simp] theorem State.tprog_wpos (f : Nat) : (s.tprog f).wpos = s.wpos := rfl
@[simp] theorem State.tprog_cstream (f : Nat) : (s.tprog f).cstream = s.cstream := rfl
@[simp] theorem State.tprog_cpos (f : Nat) : (s.tprog f).cpos = s.cpos := rfl
@[simp] theorem State.tprog_sched (f : Nat) : (s.tprog f).sched = s.sched := rfl
@[simp] theorem State.tprog_edges (f : Nat) : (s.tprog f).edges = s.edges := rfl

/-! ### kick -/

@[simp] theorem State.kick_cfg : s.kick.cfg = s.cfg := rfl
@[simp] theorem State.kick_wptr : s.kick.wptr = s.wptr := rfl
@[simp] theorem State.kick_wpub : s.kick.wpub = s.wpub := rfl
@[simp] theorem State.kick_rsync : s.kick.rsync = s.rsync := rfl
@[simp] theorem State.kick_werrIll : s.kick.werrIll = s.werrIll := rfl
@[simp] theorem State.kick_lastWerr : s.kick.lastWerr = s.lastWerr := rfl
@[simp] theorem State.kick_rptr : s.kick.rptr = s.rptr := rfl
@[simp] theorem State.kick_rpub : s.kick.rpub = s.rpub := rfl
@[simp] theorem State.kick_wsync : s.kick.wsync = s.wsync := rfl
@[simp] theorem State.kick_active : s.kick.active = true := rfl
@[simp] theorem State.kick_cmplEn : s.kick.cmplEn = true := rfl
@[simp] theorem State.kick_pending : s.kick.pending = s.pending := rfl
@[simp] theorem State.kick_eaddr : s.kick.eaddr = s.eaddr := rfl
@[simp] theorem State.kick_remaining : s.kick.remaining = s.remaining := rfl
@[simp] theorem State.kick_trun : s.kick.trun = s.trun := rfl
@[simp] theorem State.kick_tpre : s.kick.tpre = s.tpre := rfl
@[simp] theorem State.kick_tcnt : s.kick.tcnt = s.tcnt := rfl
@[simp] theorem State.kick_tmrA : s.kick.tmrA = s.tmrA := rfl
@[simp] theorem State.kick_tmrB : s.kick.tmrB = s.tmrB := rfl
@[simp] theorem State.kick_initd : s.kick.initd = s.initd := rfl
@[simp] theorem State.kick_cerrIll : s.kick.cerrIll = s.cerrIll := rfl
@[simp] theorem State.kick_cerrFreq : s.kick.cerrFreq = s.cerrFreq := rfl
@[simp] theorem State.kick_lastCerr : s.kick.lastCerr = s.lastCerr := rfl
@[simp] theorem State.kick_dout : s.kick.dout = s.dout := rfl
@[simp] theorem State.kick_mem : s.kick.mem = s.mem := rfl
@[simp] theorem State.kick_out : s.kick.out = s.out := rfl
@[simp] theorem State.kick_wresp : s.kick.wresp = s.wresp := rfl
@[simp] theorem State.kick_cresp : s.kick.cresp = s.cresp := rfl
@[simp] theorem State.kick_flog : s.kick.flog = s.flog := rfl
@[simp] theorem State.kick_wstream : s.kick.wstream = s.wstream := rfl
@[simp] theorem State.kick_wpos : s.kick.wpos = s.wpos := rfl
@[simp] theorem State.kick_cstream : s.kick.cstream = s.cstream := rfl
@[simp] theorem State.kick_cpos : s.kick.cpos = s.cpos := rfl
@[simp] theorem State.kick_sched : s.kick.sched = s.sched := rfl
@[simp] theorem State.kick_edges : s.kick.edges = s.edges := rfl

/-! ### completeIdle -/

@[simp] theorem State.completeIdle_cfg (r1 : Nat) : (s.completeIdle r1).cfg = s.cfg := rfl
@[simp] theorem State.completeIdle_wptr (r1 : Nat) : (s.completeIdle r1).wptr = s.wptr := rfl
@[simp] theorem State.completeIdle_wpub (r1 : Nat) : (s.completeIdle r1).wpub = s.wpub := rfl
@[simp] theorem State.completeIdle_rsync (r1 : Nat) : (s.completeIdle r1).rsync = s.rsync := rfl
@[simp] theorem State.completeIdle_werrIll (r1 : Nat) : (s.completeIdle r1).werrIll = s.werrIll := rfl
@[simp] theorem State.completeIdle_lastWerr (r1 : Nat) : (s.completeIdle r1).lastWerr = s.lastWerr := rfl
@[simp] theorem State.completeIdle_rptr (r1 : Nat) : (s.completeIdle r1).rptr = r1 := rfl
@[simp] theorem State.completeIdle_rpub (r1 : Nat) : (s.completeIdle r1).rpub = s.rpub := rfl
@[simp] theorem State.completeIdle_wsync (r1 : Nat) : (s.completeIdle r1).wsync = s.wsync := rfl
@[simp] theorem State.completeIdle_active (r1 : Nat) : (s.completeIdle r1).active = false := rfl
@[simp] theorem State.completeIdle_cmplEn (r1 : Nat) : (s.completeIdle r1).cmplEn = false := rfl
@[simp] theorem State.completeIdle_pending (r1 : Nat) : (s.completeIdle r1).pending = 0 := rfl
@[simp] theorem State.completeIdle_eaddr (r1 : Nat) : (s.completeIdle r1).eaddr = s.eaddr := rfl
@[simp] theorem State.completeIdle_remaining (r1 : Nat) : (s.completeIdle r1).remaining = s.remaining := rfl
@[simp] theorem State.completeIdle_trun (r1 : Nat) : (s.completeIdle r1).trun = s.trun := rfl
@[simp] theorem State.completeIdle_tpre (r1 : Nat) : (s.completeIdle r1).tpre = s.tpre := rfl
@[simp] theorem State.completeIdle_tcnt (r1 : Nat) : (s.completeIdle r1).tcnt = s.tcnt := rfl
@[simp] theorem State.completeIdle_tmrA (r1 : Nat) : (s.completeIdle r1).tmrA = s.tmrA := rfl
@[simp] theorem State.completeIdle_tmrB (r1 : Nat) : (s.completeIdle r1).tmrB = s.tmrB := rfl
@[simp] theorem State.completeIdle_initd (r1 : Nat) : (s.completeIdle r1).initd = s.initd := rfl
@[simp] theorem State.completeIdle_cerrIll (r1 : Nat) : (s.completeIdle r1).cerrIll = s.cerrIll := rfl
@[simp] theorem State.completeIdle_cerrFreq (r1 : Nat) : (s.completeIdle r1).cerrFreq = s.cerrFreq := rfl
@[simp] theorem State.completeIdle_lastCerr (r1 : Nat) : (s.completeIdle r1).lastCerr = s.lastCerr := rfl
@[simp] theorem State.completeIdle_dout (r1 : Nat) : (s.completeIdle r1).dout = s.dout := rfl
@[simp] theorem State.completeIdle_mem (r1 : Nat) : (s.completeIdle r1).mem = s.mem := rfl
@[simp] theorem State.completeIdle_out (r1 : Nat) : (s.completeIdle r1).out = s.out := rfl
@[simp] theorem State.completeIdle_wresp (r1 : Nat) : (s.completeIdle r1).wresp = s.wresp := rfl
@[simp] theorem State.completeIdle_cresp (r1 : Nat) : (s.completeIdle r1).cresp = s.cresp := rfl
@[simp] theorem State.completeIdle_flog (r1 : Nat) : (s.completeIdle r1).flog = s.flog := rfl
@[simp] theorem State.completeIdle_wstream (r1 : Nat) : (s.completeIdle r1).wstream = s.wstream := rfl
@[simp] theorem State.completeIdle_wpos (r1 : Nat) : (s.completeIdle r1).wpos = s.wpos := rfl
@[simp] theorem State.completeIdle_cstream (r1 : Nat) : (s.completeIdle r1).cstream = s.cstream := rfl
@[simp] theorem State.completeIdle_cpos (r1 : Nat) : (s.completeIdle r1).cpos = s.cpos := rfl
@[simp] theorem State.completeIdle_sched (r1 : Nat) : (s.completeIdle r1).sched = s.sched := rfl
@[simp] theorem State.completeIdle_edges (r1 : Nat) : (s.completeIdle r1).edges = s.edges := rfl

/-! ### completeArm -/

@[simp] theorem State.completeArm_cfg (r1 k : Nat) : (s.completeArm r1 k).cfg = s.cfg := rfl
@[simp] theorem State.completeArm_wptr (r1 k : Nat) : (s.completeArm r1 k).wptr = s.wptr := rfl
@[simp] theorem State.completeArm_wpub (r1 k : Nat) : (s.completeArm r1 k).wpub = s.wpub := rfl
@[simp] theorem State.completeArm_rsync (r1 k : Nat) : (s.completeArm r1 k).rsync = s.rsync := rfl
@[simp] theorem State.completeArm_werrIll (r1 k : Nat) : (s.completeArm r1 k).werrIll = s.werrIll := rfl
@[simp] theorem State.completeArm_lastWerr (r1 k : Nat) : (s.completeArm r1 k).lastWerr = s.lastWerr := rfl
@[simp] theorem State.completeArm_rptr (r1 k : Nat) : (s.completeArm r1 k).rptr = r1 := rfl
@[simp] theorem State.completeArm_rpub (r1 k : Nat) : (s.completeArm r1 k).rpub = s.rpub := rfl
@[simp] theorem State.completeArm_wsync (r1 k : Nat) : (s.completeArm r1 k).wsync = s.wsync := rfl
@[simp] theorem State.completeArm_active (r1 k : Nat) : (s.completeArm r1 k).active = s.active := rfl
@[simp] theorem State.completeArm_cmplEn (r1 k : Nat) : (s.completeArm r1 k).cmplEn = s.cmplEn := rfl
@[simp] theorem State.completeArm_pending (r1 k : Nat) : (s.completeArm r1 k).pending = k := rfl
@[simp] theorem State.completeArm_eaddr (r1 k : Nat) : (s.completeArm r1 k).eaddr = s.cfg.idx r1 := rfl
@[simp] theorem State.completeArm_remaining (r1 k : Nat) : (s.completeArm r1 k).remaining = k := rfl
@[simp] theorem State.completeArm_trun (r1 k : Nat) : (s.completeArm r1 k).trun = s.trun := rfl
@[simp] theorem State.completeArm_tpre (r1 k : Nat) : (s.completeArm r1 k).tpre = s.tpre := rfl
@[simp] theorem State.completeArm_tcnt (r1 k : Nat) : (s.completeArm r1 k).tcnt = s.tcnt := rfl
@[simp] theorem State.completeArm_tmrA (r1 k : Nat) : (s.completeArm r1 k).tmrA = s.tmrA := rfl
@[simp] theorem State.completeArm_tmrB (r1 k : Nat) : (s.completeArm r1 k).tmrB = s.tmrB := rfl
@[simp] theorem State.completeArm_initd (r1 k : Nat) : (s.completeArm r1 k).initd = s.initd := rfl
@[simp] theorem State.completeArm_cerrIll (r1 k : Nat) : (s.completeArm r1 k).cerrIll = s.cerrIll := rfl
@[simp] theorem State.completeArm_cerrFreq (r1 k : Nat) : (s.completeArm r1 k).cerrFreq = s.cerrFreq := rfl
@[simp] theorem State.completeArm_lastCerr (r1 k : Nat) : (s.completeArm r1 k).lastCerr = s.lastCerr := rfl
@[simp] theorem State.completeArm_dout (r1 k : Nat) : (s.completeArm r1 k).dout = s.dout := rfl
@[simp] theorem State.completeArm_mem (r1 k : Nat) : (s.completeArm r1 k).mem = s.mem := rfl
@[simp] theorem State.completeArm_out (r1 k : Nat) : (s.completeArm r1 k).out = s.out := rfl
@[simp] theorem State.completeArm_wresp (r1 k : Nat) : (s.completeArm r1 k).wresp = s.wresp := rfl
@[simp] theorem State.completeArm_cresp (r1 k : Nat) : (s.completeArm r1 k).cresp = s.cresp := rfl
@[simp] theorem State.completeArm_flog (r1 k : Nat) : (s.completeArm r1 k).flog = s.flog := rfl
@[simp] theorem State.completeArm_wstream (r1 k : Nat) : (s.completeArm r1 k).wstream = s.wstream := rfl
@[simp] theorem State.completeArm_wpos (r1 k : Nat) : (s.completeArm r1 k).wpos = s.wpos := rfl
@[simp] theorem State.completeArm_cstream (r1 k : Nat) : (s.completeArm r1 k).cstream = s.cstream := rfl
@[simp] theorem State.completeArm_cpos (r1 k : Nat) : (s.completeArm r1 k).cpos = s.cpos := rfl
@[simp] theorem State.completeArm_sched (r1 k : Nat) : (s.completeArm r1 k).sched = s.sched := rfl
@[simp] theorem State.completeArm_edges (r1 k : Nat) : (s.completeArm r1 k).edges = s.edges := rfl

/-! ### engineXfer -/

@[simp] theorem State.engineXfer_cfg : s.engineXfer.cfg = s.cfg := rfl
@[simp] theorem State.engineXfer_wptr : s.engineXfer.wptr = s.wptr := rfl
@[simp] theorem State.engineXfer_wpub : s.engineXfer.wpub = s.wpub := rfl
@[simp] theorem State.engineXfer_rsync : s.engineXfer.rsync = s.rsync := rfl
@[simp] theorem State.engineXfer_werrIll : s.engineXfer.werrIll = s.werrIll := rfl
@[simp] theorem State.engineXfer_lastWerr : s.engineXfer.lastWerr = s.lastWerr := rfl
@[simp] theorem State.engineXfer_rptr : s.engineXfer.rptr = s.rptr := rfl
@[simp] theorem State.engineXfer_rpub : s.engineXfer.rpub = s.rpub := rfl
@[simp] theorem State.engineXfer_wsync : s.engineXfer.wsync = s.wsync := rfl
@[simp] theorem State.engineXfer_active : s.engineXfer.active = s.active := rfl
@[simp] theorem State.engineXfer_cmplEn : s.engineXfer.cmplEn = s.cmplEn := rfl
@[simp] theorem State.engineXfer_pending : s.engineXfer.pending = s.pending := rfl
@[simp] theorem State.engineXfer_eaddr : s.engineXfer.eaddr = s.cfg.idx (s.eaddr + 1) := rfl
@[simp] theorem State.engineXfer_remaining : s.engineXfer.remaining = s.remaining - 1 := rfl
@[simp] theorem State.engineXfer_trun : s.engineXfer.trun = s.trun := rfl
@[simp] theorem State.engineXfer_tpre : s.engineXfer.tpre = s.tpre := rfl
@[simp] theorem State.engineXfer_tcnt : s.engineXfer.tcnt = s.tcnt := rfl
@[simp] theorem State.engineXfer_tmrA : s.engineXfer.tmrA = s.tmrA := rfl
@[simp] theorem State.engineXfer_tmrB : s.engineXfer.tmrB = s.tmrB := rfl
@[simp] theorem State.engineXfer_initd : s.engineXfer.initd = s.initd := rfl
@[simp] theorem State.engineXfer_cerrIll : s.engineXfer.cerrIll = s.cerrIll := rfl
@[simp] theorem State.engineXfer_cerrFreq : s.engineXfer.cerrFreq = s.cerrFreq := rfl
@[simp] theorem State.engineXfer_lastCerr : s.engineXfer.lastCerr = s.lastCerr := rfl
@[simp] theorem State.engineXfer_dout : s.engineXfer.dout = s.memRead s.eaddr := rfl
@[simp] theorem State.engineXfer_mem : s.engineXfer.mem = s.mem := rfl
@[simp] theorem State.engineXfer_out : s.engineXfer.out = s.out ++ [s.memRead s.eaddr] := rfl
@[simp] theorem State.engineXfer_wresp : s.engineXfer.wresp = s.wresp := rfl
@[simp] theorem State.engineXfer_cresp : s.engineXfer.cresp = s.cresp := rfl
@[simp] theorem State.engineXfer_flog : s.engineXfer.flog = s.flog := rfl
@[simp] theorem State.engineXfer_wstream : s.engineXfer.wstream = s.wstream := rfl
@[simp] theorem State.engineXfer_wpos : s.engineXfer.wpos = s.wpos := rfl
@[simp] theorem State.engineXfer_cstream : s.engineXfer.cstream = s.cstream := rfl
@[simp] theorem State.engineXfer_cpos : s.engineXfer.cpos = s.cpos := rfl
@[simp] theorem State.engineXfer_sched : s.engineXfer.sched = s.sched := rfl
@[simp] theorem State.engineXfer_edges : s.engineXfer.edges = s.edges := rfl

/-! ### writeEdge -/

@[simp] theorem State.writeEdge_cfg : s.writeEdge.cfg = s.cfg := rfl
@[simp] theorem State.writeEdge_wptr : s.writeEdge.wptr = s.wptr := rfl
@[simp] theorem State.writeEdge_wpub : s.writeEdge.wpub = s.cfg.publish s.wpub s.wptr := rfl
@[simp] theorem State.writeEdge_rsync : s.writeEdge.rsync = s.cfg.shiftIn (gray s.rpub) s.rsync := rfl
@[simp] theorem State.writeEdge_werrIll : s.writeEdge.werrIll = s.werrIll := rfl
@[simp] theorem State.writeEdge_lastWerr : s.writeEdge.lastWerr = s.lastWerr := rfl
@[simp] theorem State.writeEdge_rptr : s.writeEdge.rptr = s.rptr := rfl
@[simp] theorem State.writeEdge_rpub : s.writeEdge.rpub = s.rpub := rfl
@[simp] theorem State.writeEdge_wsync : s.writeEdge.wsync = s.wsync := rfl
@[simp] theorem State.writeEdge_active : s.writeEdge.active = s.active := rfl
@[simp] theorem State.writeEdge_cmplEn : s.writeEdge.cmplEn = s.cmplEn := rfl
@[simp] theorem State.writeEdge_pending : s.writeEdge.pending = s.pending := rfl
@[simp] theorem State.writeEdge_eaddr : s.writeEdge.eaddr = s.eaddr := rfl
@[simp] theorem State.writeEdge_remaining : s.writeEdge.remaining = s.remaining := rfl
@[simp] theorem State.writeEdge_trun : s.writeEdge.trun = s.trun := rfl
@[simp] theorem State.writeEdge_tpre : s.writeEdge.tpre = s.tpre := rfl
@[simp] theorem State.writeEdge_tcnt : s.writeEdge.tcnt = s.tcnt := rfl
@[simp] theorem State.writeEdge_tmrA : s.writeEdge.tmrA = s.tmrA := rfl
@[simp] theorem State.writeEdge_tmrB : s.writeEdge.tmrB = s.tmrB := rfl
@[simp] theorem State.writeEdge_initd : s.writeEdge.initd = s.initd := rfl
@[simp] theorem State.writeEdge_cerrIll : s.writeEdge.cerrIll = s.cerrIll := rfl
@[simp] theorem State.writeEdge_cerrFreq : s.writeEdge.cerrFreq = s.cerrFreq := rfl
@[simp] theorem State.writeEdge_lastCerr : s.writeEdge.lastCerr = s.lastCerr := rfl
@[simp] theorem State.writeEdge_dout : s.writeEdge.dout = s.dout := rfl
@[simp] theorem State.writeEdge_mem : s.writeEdge.mem = s.mem := rfl
@[simp] theorem State.writeEdge_out : s.writeEdge.out = s.out := rfl
@[simp] theorem State.writeEdge_wresp : s.writeEdge.wresp = s.wresp := rfl
@[simp] theorem State.writeEdge_cresp : s.writeEdge.cresp = s.cresp := rfl
@[simp] theorem State.writeEdge_flog : s.writeEdge.flog = s.flog := rfl
@[simp] theorem State.writeEdge_wstream : s.writeEdge.wstream = s.wstream := rfl
@[simp] theorem State.writeEdge_wpos : s.writeEdge.wpos = s.wpos := rfl
@[simp] theorem State.writeEdge_cstream : s.writeEdge.cstream = s.cstream := rfl
@[simp] theorem State.writeEdge_cpos : s.writeEdge.cpos = s.cpos := rfl
@[simp] theorem State.writeEdge_sched : s.writeEdge.sched = s.sched := rfl
@[simp] theorem State.writeEdge_edges : s.writeEdge.edges = s.edges := rfl

/-! ### readCrossing -/

@[simp] theorem State.readCrossing_cfg : s.readCrossing.cfg = s.cfg := rfl
@[simp] theorem State.readCrossing_wptr : s.readCrossing.wptr = s.wptr := rfl
@[simp] theorem State.readCrossing_wpub : s.readCrossing.wpub = s.wpub := rfl
@[simp] theorem State.readCrossing_rsync : s.readCrossing.rsync = s.rsync := rfl
@[simp] theorem State.readCrossing_werrIll : s.readCrossing.werrIll = s.werrIll := rfl
@[simp] theorem State.readCrossing_lastWerr : s.readCrossing.lastWerr = s.lastWerr := rfl
@[simp] theorem State.readCrossing_rptr : s.readCrossing.rptr = s.rptr := rfl
@[simp] theorem State.readCrossing_rpub : s.readCrossing.rpub = s.cfg.publish s.rpub s.rptr := rfl
@[simp] theorem State.readCrossing_wsync : s.readCrossing.wsync = s.cfg.shiftIn (gray s.wpub) s.wsync := rfl
@[simp] theorem State.readCrossing_active : s.readCrossing.active = s.active := rfl
@[simp] theorem State.readCrossing_cmplEn : s.readCrossing.cmplEn = s.cmplEn := rfl
@[simp] theorem State.readCrossing_pending : s.readCrossing.pending = s.pending := rfl
@[simp] theorem State.readCrossing_eaddr : s.readCrossing.eaddr = s.eaddr := rfl
@[simp] theorem State.readCrossing_remaining : s.readCrossing.remaining = s.remaining := rfl
@[simp] theorem State.readCrossing_trun : s.readCrossing.trun = s.trun := rfl
@[simp] theorem State.readCrossing_tpre : s.readCrossing.tpre = s.tpre := rfl
@[simp] theorem State.readCrossing_tcnt : s.readCrossing.tcnt = s.tcnt := rfl
@[simp] theorem State.readCrossing_tmrA : s.readCrossing.tmrA = s.tmrA := rfl
@[simp] theorem State.readCrossing_tmrB : s.readCrossing.tmrB = s.tmrB := rfl
@[simp] theorem State.readCrossing_initd : s.readCrossing.initd = s.initd := rfl
@[simp] theorem State.readCrossing_cerrIll : s.readCrossing.cerrIll = s.cerrIll := rfl
@[simp] theorem State.readCrossing_cerrFreq : s.readCrossing.cerrFreq = s.cerrFreq := rfl
@[simp] theorem State.readCrossing_lastCerr : s.readCrossing.lastCerr = s.lastCerr := rfl
@[simp] theorem State.readCrossing_dout : s.readCrossing.dout = s.dout := rfl
@[simp] theorem State.readCrossing_mem : s.readCrossing.mem = s.mem := rfl
@[simp] theorem State.readCrossing_out : s.readCrossing.out = s.out := rfl
@[simp] theorem State.readCrossing_wresp : s.readCrossing.wresp = s.wresp := rfl
@[simp] theorem State.readCrossing_cresp : s.readCrossing.cresp = s.cresp := rfl
@[simp] theorem State.readCrossing_flog : s.readCrossing.flog = s.flog := rfl
@[simp] theorem State.readCrossing_wstream : s.readCrossing.wstream = s.wstream := rfl
@[simp] theorem State.readCrossing_wpos : s.readCrossing.wpos = s.wpos := rfl
@[simp] theorem State.readCrossing_cstream : s.readCrossing.cstream = s.cstream := rfl
@[simp] theorem State.readCrossing_cpos : s.readCrossing.cpos = s.cpos := rfl
@[simp] theorem State.readCrossing_sched : s.readCrossing.sched = s.sched := rfl
@[simp] theorem State.readCrossing_edges : s.readCrossing.edges = s.edges := rfl

/-! ### takeEdge -/

@[simp] theorem State.takeEdge_cfg : s.takeEdge.cfg = s.cfg := rfl
@[simp] theorem State.takeEdge_wptr : s.takeEdge.wptr = s.wptr := rfl
@[simp] theorem State.takeEdge_wpub : s.takeEdge.wpub = s.wpub := rfl
@[simp] theorem State.takeEdge_rsync : s.takeEdge.rsync = s.rsync := rfl
@[simp] theorem State.takeEdge_werrIll : s.takeEdge.werrIll = s.werrIll := rfl
@[simp] theorem State.takeEdge_lastWerr : s.takeEdge.lastWerr = s.lastWerr := rfl
@[simp] theorem State.takeEdge_rptr : s.takeEdge.rptr = s.rptr := rfl
@[simp] theorem State.takeEdge_rpub : s.takeEdge.rpub = s.rpub := rfl
@[simp] theorem State.takeEdge_wsync : s.takeEdge.wsync = s.wsync := rfl
@[simp] theorem State.takeEdge_active : s.takeEdge.active = s.active := rfl
@[simp] theorem State.takeEdge_cmplEn : s.takeEdge.cmplEn = s.cmplEn := rfl
@[simp] theorem State.takeEdge_pending : s.takeEdge.pending = s.pending := rfl
@[simp] theorem State.takeEdge_eaddr : s.takeEdge.eaddr = s.eaddr := rfl
@[simp] theorem State.takeEdge_remaining : s.takeEdge.remaining = s.remaining := rfl
@[simp] theorem State.takeEdge_trun : s.takeEdge.trun = s.trun := rfl
@[simp] theorem State.takeEdge_tpre : s.takeEdge.tpre = s.tpre := rfl
@[simp] theorem State.takeEdge_tcnt : s.takeEdge.tcnt = s.tcnt := rfl
@[simp] theorem State.takeEdge_tmrA : s.takeEdge.tmrA = s.tmrA := rfl
@[simp] theorem State.takeEdge_tmrB : s.takeEdge.tmrB = s.tmrB := rfl
@[simp] theorem State.takeEdge_initd : s.takeEdge.initd = s.initd := rfl
@[simp] theorem State.takeEdge_cerrIll : s.takeEdge.cerrIll = s.cerrIll := rfl
@[simp] theorem State.takeEdge_cerrFreq : s.takeEdge.cerrFreq = s.cerrFreq := rfl
@[simp] theorem State.takeEdge_lastCerr : s.takeEdge.lastCerr = s.lastCerr := rfl
@[simp] theorem State.takeEdge_dout : s.takeEdge.dout = s.dout := rfl
@[simp] theorem State.takeEdge_mem : s.takeEdge.mem = s.mem := rfl
@[simp] theorem State.takeEdge_out : s.takeEdge.out = s.out := rfl
@[simp] theorem State.takeEdge_wresp : s.takeEdge.wresp = s.wresp := rfl
@[simp] theorem State.takeEdge_cresp : s.takeEdge.cresp = s.cresp := rfl
@[simp] theorem State.takeEdge_flog : s.takeEdge.flog = s.flog := rfl
@[simp] theorem State.takeEdge_wstream : s.takeEdge.wstream = s.wstream := rfl
@[simp] theorem State.takeEdge_wpos : s.takeEdge.wpos = s.wpos := rfl
@[simp] theorem State.takeEdge_cstream : s.takeEdge.cstream = s.cstream := rfl
@[simp] theorem State.takeEdge_cpos : s.takeEdge.cpos = s.cpos := rfl
@[simp] theorem State.takeEdge_sched : s.takeEdge.sched = s.sched.tail := rfl
@[simp] theorem State.takeEdge_edges : s.takeEdge.edges = s.edges + 1 := rfl

/-! ### respond_write -/

@[simp] theorem State.respond_write_cfg (v : Word) : (s.respond .write v).cfg = s.cfg := rfl
@[simp] theorem State.respond_write_wptr (v : Word) : (s.respond .write v).wptr = s.wptr := rfl
@[simp] theorem State.respond_write_wpub (v : Word) : (s.respond .write v).wpub = s.wpub := rfl
@[simp] theorem State.respond_write_rsync (v : Word) : (s.respond .write v).rsync = s.rsync := rfl
@[simp] theorem State.respond_write_werrIll (v : Word) : (s.respond .write v).werrIll = s.werrIll := rfl
@[simp] theorem State.respond_write_lastWerr (v : Word) : (s.respond .write v).lastWerr = s.lastWerr := rfl
@[simp] theorem State.respond_write_rptr (v : Word) : (s.respond .write v).rptr = s.rptr := rfl
@[simp] theorem State.respond_write_rpub (v : Word) : (s.respond .write v).rpub = s.rpub := rfl
@[simp] theorem State.respond_write_wsync (v : Word) : (s.respond .write v).wsync = s.wsync := rfl
@[simp] theorem State.respond_write_active (v : Word) : (s.respond .write v).active = s.active := rfl
@[simp] theorem State.respond_write_cmplEn (v : Word) : (s.respond .write v).cmplEn = s.cmplEn := rfl
@[simp] theorem State.respond_write_pending (v : Word) : (s.respond .write v).pending = s.pending := rfl
@[simp] theorem State.respond_write_eaddr (v : Word) : (s.respond .write v).eaddr = s.eaddr := rfl
@[simp] theorem State.respond_write_remaining (v : Word) : (s.respond .write v).remaining = s.remaining := rfl
@[simp] theorem State.respond_write_trun (v : Word) : (s.respond .write v).trun = s.trun := rfl
@[simp] theorem State.respond_write_tpre (v : Word) : (s.respond .write v).tpre = s.tpre := rfl
@[simp] theorem State.respond_write_tcnt (v : Word) : (s.respond .write v).tcnt = s.tcnt := rfl
@[simp] theorem State.respond_write_tmrA (v : Word) : (s.respond .write v).tmrA = s.tmrA := rfl
@[simp] theorem State.respond_write_tmrB (v : Word) : (s.respond .write v).tmrB = s.tmrB := rfl
@[simp] theorem State.respond_write_initd (v : Word) : (s.respond .write v).initd = s.initd := rfl
@[simp] theorem State.respond_write_cerrIll (v : Word) : (s.respond .write v).cerrIll = s.cerrIll := rfl
@[simp] theorem State.respond_write_cerrFreq (v : Word) : (s.respond .write v).cerrFreq = s.cerrFreq := rfl
@[simp] theorem State.respond_write_lastCerr (v : Word) : (s.respond .write v).lastCerr = s.lastCerr := rfl
@[simp] theorem State.respond_write_dout (v : Word) : (s.respond .write v).dout = s.dout := rfl
@[simp] theorem State.respond_write_mem (v : Word) : (s.respond .write v).mem = s.mem := rfl
@[simp] theorem State.respond_write_out (v : Word) : (s.respond .write v).out = s.out := rfl
@[simp] theorem State.respond_write_wresp (v : Word) : (s.respond .write v).wresp = s.wresp ++ [v] := rfl
@[simp] theorem State.respond_write_cresp (v : Word) : (s.respond .write v).cresp = s.cresp := rfl
@[simp] theorem State.respond_write_flog (v : Word) : (s.respond .write v).flog = s.flog := rfl
@[simp] theorem State.respond_write_wstream (v : Word) : (s.respond .write v).wstream = s.wstream := rfl
@[simp] theorem State.respond_write_wpos (v : Word) : (s.respond .write v).wpos = s.wpos := rfl
@[simp] theorem State.respond_write_cstream (v : Word) : (s.respond .write v).cstream = s.cstream := rfl
@[simp] theorem State.respond_write_cpos (v : Word) : (s.respond .write v).cpos = s.cpos := rfl
@[simp] theorem State.respond_write_sched (v : Word) : (s.respond .write v).sched = s.sched := rfl
@[simp] theorem State.respond_write_edges (v : Word) : (s.respond .write v).edges = s.edges := rfl

/-! ### respond_control -/

@[simp] theorem State.respond_control_cfg (v : Word) : (s.respond .control v).cfg = s.cfg := rfl
@[simp] theorem State.respond_control_wptr (v : Word) : (s.respond .control v).wptr = s.wptr := rfl
@[simp] theorem State.respond_control_wpub (v : Word) : (s.respond .control v).wpub = s.wpub := rfl
@[simp] theorem State.respond_control_rsync (v : Word) : (s.respond .control v).rsync = s.rsync := rfl
@[simp] theorem State.respond_control_werrIll (v : Word) : (s.respond .control v).werrIll = s.werrIll := rfl
@[simp] theorem State.respond_control_lastWerr (v : Word) : (s.respond .control v).lastWerr = s.lastWerr := rfl
@[simp] theorem State.respond_control_rptr (v : Word) : (s.respond .control v).rptr = s.rptr := rfl
@[simp] theorem State.respond_control_rpub (v : Word) : (s.respond .control v).rpub = s.rpub := rfl
@[simp] theorem State.respond_control_wsync (v : Word) : (s.respond .control v).wsync = s.wsync := rfl
@[simp] theorem State.respond_control_active (v : Word) : (s.respond .control v).active = s.active := rfl
@[simp] theorem State.respond_control_cmplEn (v : Word) : (s.respond .control v).cmplEn = s.cmplEn := rfl
@[simp] theorem State.respond_control_pending (v : Word) : (s.respond .control v).pending = s.pending := rfl
@[simp] theorem State.respond_control_eaddr (v : Word) : (s.respond .control v).eaddr = s.eaddr := rfl
@[simp] theorem State.respond_control_remaining (v : Word) : (s.respond .control v).remaining = s.remaining := rfl
@[simp] theorem State.respond_control_trun (v : Word) : (s.respond .control v).trun = s.trun := rfl
@[simp] theorem State.respond_control_tpre (v : Word) : (s.respond .control v).tpre = s.tpre := rfl
@[simp] theorem State.respond_control_tcnt (v : Word) : (s.respond .control v).tcnt = s.tcnt := rfl
@[simp] theorem State.respond_control_tmrA (v : Word) : (s.respond .control v).tmrA = s.tmrA := rfl
@[simp] theorem State.respond_control_tmrB (v : Word) : (s.respond .control v).tmrB = s.tmrB := rfl
@[simp] theorem State.respond_control_initd (v : Word) : (s.respond .control v).initd = s.initd := rfl
@[simp] theorem State.respond_control_cerrIll (v : Word) : (s.respond .control v).cerrIll = s.cerrIll := rfl
@[simp] theorem State.respond_control_cerrFreq (v : Word) : (s.respond .control v).cerrFreq = s.cerrFreq := rfl
@[simp] theorem State.respond_control_lastCerr (v : Word) : (s.respond .control v).lastCerr = s.lastCerr := rfl
@[simp] theorem State.respond_control_dout (v : Word) : (s.respond .control v).dout = s.dout := rfl
@[simp] theorem State.respond_control_mem (v : Word) : (s.respond .control v).mem = s.mem := rfl
@[simp] theorem State.respond_control_out (v : Word) : (s.respond .control v).out = s.out := rfl
@[simp] theorem State.respond_control_wresp (v : Word) : (s.respond .control v).wresp = s.wresp := rfl
@[simp] theorem State.respond_control_cresp (v : Word) : (s.respond .control v).cresp = s.cresp ++ [v] := rfl
@[simp] theorem State.respond_control_flog (v : Word) : (s.respond .control v).flog = s.flog := rfl
@[simp] theorem State.respond_control_wstream (v : Word) : (s.respond .control v).wstream = s.wstream := rfl
@[simp] theorem State.respond_control_wpos (v : Word) : (s.respond .control v).wpos = s.wpos := rfl
@[simp] theorem State.respond_control_cstream (v : Word) : (s.respond .control v).cstream = s.cstream := rfl
@[simp] theorem State.respond_control_cpos (v : Word) : (s.respond .control v).cpos = s.cpos := rfl
@[simp] theorem State.respond_control_sched (v : Word) : (s.respond .control v).sched = s.sched := rfl
@[simp] theorem State.respond_control_edges (v : Word) : (s.respond .control v).edges = s.edges := rfl

/-! ### consume_write -/

@[simp] theorem State.consume_write_cfg (n : Nat) : (s.consume .write n).cfg = s.cfg := rfl
@[simp] theorem State.consume_write_wptr (n : Nat) : (s.consume .write n).wptr = s.wptr := rfl
@[simp] theorem State.consume_write_wpub (n : Nat) : (s.consume .write n).wpub = s.wpub := rfl
@[simp] theorem State.consume_write_rsync (n : Nat) : (s.consume .write n).rsync = s.rsync := rfl
@[simp] theorem State.consume_write_werrIll (n : Nat) : (s.consume .write n).werrIll = s.werrIll := rfl
@[simp] theorem State.consume_write_lastWerr (n : Nat) : (s.consume .write n).lastWerr = s.lastWerr := rfl
@[simp] theorem State.consume_write_rptr (n : Nat) : (s.consume .write n).rptr = s.rptr := rfl
@[simp] theorem State.consume_write_rpub (n : Nat) : (s.consume .write n).rpub = s.rpub := rfl
@[simp] theorem State.consume_write_wsync (n : Nat) : (s.consume .write n).wsync = s.wsync := rfl
@[simp] theorem State.consume_write_active (n : Nat) : (s.consume .write n).active = s.active := rfl
@[simp] theorem State.consume_write_cmplEn (n : Nat) : (s.consume .write n).cmplEn = s.cmplEn := rfl
@[simp] theorem State.consume_write_pending (n : Nat) : (s.consume .write n).pending = s.pending := rfl
@[simp] theorem State.consume_write_eaddr (n : Nat) : (s.consume .write n).eaddr = s.eaddr := rfl
@[simp] theorem State.consume_write_remaining (n : Nat) : (s.consume .write n).remaining = s.remaining := rfl
@[simp] theorem State.consume_write_trun (n : Nat) : (s.consume .write n).trun = s.trun := rfl
@[simp] theorem State.consume_write_tpre (n : Nat) : (s.consume .write n).tpre = s.tpre := rfl
@[simp] theorem State.consume_write_tcnt (n : Nat) : (s.consume .write n).tcnt = s.tcnt := rfl
@[simp] theorem State.consume_write_tmrA (n : Nat) : (s.consume .write n).tmrA = s.tmrA := rfl
@[simp] theorem State.consume_write_tmrB (n : Nat) : (s.consume .write n).tmrB = s.tmrB := rfl
@[simp] theorem State.consume_write_initd (n : Nat) : (s.consume .write n).initd = s.initd := rfl
@[simp] theorem State.consume_write_cerrIll (n : Nat) : (s.consume .write n).cerrIll = s.cerrIll := rfl
@[simp] theorem State.consume_write_cerrFreq (n : Nat) : (s.consume .write n).cerrFreq = s.cerrFreq := rfl
@[simp] theorem State.consume_write_lastCerr (n : Nat) : (s.consume .write n).lastCerr = s.lastCerr := rfl
@[simp] theorem State.consume_write_dout (n : Nat) : (s.consume .write n).dout = s.dout := rfl
@[simp] theorem State.consume_write_mem (n : Nat) : (s.consume .write n).mem = s.mem := rfl
@[simp] theorem State.consume_write_out (n : Nat) : (s.consume .write n).out = s.out := rfl
@[simp] theorem State.consume_write_wresp (n : Nat) : (s.consume .write n).wresp = s.wresp := rfl
@[simp] theorem State.consume_write_cresp (n : Nat) : (s.consume .write n).cresp = s.cresp := rfl
@[simp] theorem State.consume_write_flog (n : Nat) : (s.consume .write n).flog = s.flog := rfl
@[simp] theorem State.consume_write_wstream (n : Nat) : (s.consume .write n).wstream = s.wstream := rfl
@[simp] theorem State.consume_write_wpos (n : Nat) : (s.consume .write n).wpos = s.wpos + n := rfl
@[simp] theorem State.consume_write_cstream (n : Nat) : (s.consume .write n).cstream = s.cstream := rfl
@[simp] theorem State.consume_write_cpos (n : Nat) : (s.consume .write n).cpos = s.cpos := rfl
@[simp] theorem State.consume_write_sched (n : Nat) : (s.consume .write n).sched = s.sched := rfl
@[simp] theorem State.consume_write_edges (n : Nat) : (s.consume .write n).edges = s.edges := rfl

/-! ### consume_control -/

@[simp] theorem State.consume_control_cfg (n : Nat) : (s.consume .control n).cfg = s.cfg := rfl
@[simp] theorem State.consume_control_wptr (n : Nat) : (s.consume .control n).wptr = s.wptr := rfl
@[simp] theorem State.consume_control_wpub (n : Nat) : (s.consume .control n).wpub = s.wpub := rfl
@[simp] theorem State.consume_control_rsync (n : Nat) : (s.consume .control n).rsync = s.rsync := rfl
@[simp] theorem State.consume_control_werrIll (n : Nat) : (s.consume .control n).werrIll = s.werrIll := rfl
@[simp] theorem State.consume_control_lastWerr (n : Nat) : (s.consume .control n).lastWerr = s.lastWerr := rfl
@[simp] theorem State.consume_control_rptr (n : Nat) : (s.consume .control n).rptr = s.rptr := rfl
@[simp] theorem State.consume_control_rpub (n : Nat) : (s.consume .control n).rpub = s.rpub := rfl
@[simp] theorem State.consume_control_wsync (n : Nat) : (s.consume .control n).wsync = s.wsync := rfl
@[simp] theorem State.consume_control_active (n : Nat) : (s.consume .control n).active = s.active := rfl
@[simp] theorem State.consume_control_cmplEn (n : Nat) : (s.consume .control n).cmplEn = s.cmplEn := rfl
@[simp] theorem State.consume_control_pending (n : Nat) : (s.consume .control n).pending = s.pending := rfl
@[simp] theorem State.consume_control_eaddr (n : Nat) : (s.consume .control n).eaddr = s.eaddr := rfl
@[simp] theorem State.consume_control_remaining (n : Nat) : (s.consume .control n).remaining = s.remaining := rfl
@[simp] theorem State.consume_control_trun (n : Nat) : (s.consume .control n).trun = s.trun := rfl
@[simp] theorem State.consume_control_tpre (n : Nat) : (s.consume .control n).tpre = s.tpre := rfl
@[simp] theorem State.consume_control_tcnt (n : Nat) : (s.consume .control n).tcnt = s.tcnt := rfl
@[simp] theorem State.consume_control_tmrA (n : Nat) : (s.consume .control n).tmrA = s.tmrA := rfl
@[simp] theorem State.consume_control_tmrB (n : Nat) : (s.consume .control n).tmrB = s.tmrB := rfl
@[simp] theorem State.consume_control_initd (n : Nat) : (s.consume .control n).initd = s.initd := rfl
@[simp] theorem State.consume_control_cerrIll (n : Nat) : (s.consume .control n).cerrIll = s.cerrIll := rfl
@[simp] theorem State.consume_control_cerrFreq (n : Nat) : (s.consume .control n).cerrFreq = s.cerrFreq := rfl
@[simp] theorem State.consume_control_lastCerr (n : Nat) : (s.consume .control n).lastCerr = s.lastCerr := rfl
@[simp] theorem State.consume_control_dout (n : Nat) : (s.consume .control n).dout = s.dout := rfl
@[simp] theorem State.consume_control_mem (n : Nat) : (s.consume .control n).mem = s.mem := rfl
@[simp] theorem State.consume_control_out (n : Nat) : (s.consume .control n).out = s.out := rfl
@[simp] theorem State.consume_control_wresp (n : Nat) : (s.consume .control n).wresp = s.wresp := rfl
@[simp] theorem State.consume_control_cresp (n : Nat) : (s.consume .control n).cresp = s.cresp := rfl
@[simp] theorem State.consume_control_flog (n : Nat) : (s.consume .control n).flog = s.flog := rfl
@[simp] theorem State.consume_control_wstream (n : Nat) : (s.consume .control n).wstream = s.wstream := rfl
@[simp] theorem State.consume_control_wpos (n : Nat) : (s.consume .control n).wpos = s.wpos := rfl
@[simp] theorem State.consume_control_cstream (n : Nat) : (s.consume .control n).cstream = s.cstream := rfl
@[simp] theorem State.consume_control_cpos (n : Nat) : (s.consume .control n).cpos = s.cpos + n := rfl
@[simp] theorem State.consume_control_sched (n : Nat) : (s.consume .control n).sched = s.sched := rfl
@[simp] theorem State.consume_control_edges (n : Nat) : (s.consume .control n).edges = s.edges := rfl

/-! ### illegal_write -/

@[simp] theorem State.illegal_write_cfg (w : Word) : (s.raiseFault .illegalCommand .write w).cfg = s.cfg := rfl
@[simp] theorem State.illegal_write_wptr (w : Word) : (s.raiseFault .illegalCommand .write w).wptr = s.wptr := rfl
@[simp] theorem State.illegal_write_wpub (w : Word) : (s.raiseFault .illegalCommand .write w).wpub = s.wpub := rfl
@[simp] theorem State.illegal_write_rsync (w : Word) : (s.raiseFault .illegalCommand .write w).rsync = s.rsync := rfl
@[simp] theorem State.illegal_write_werrIll (w : Word) : (s.raiseFault .illegalCommand .write w).werrIll = true := rfl
@[simp] theorem State.illegal_write_lastWerr (w : Word) : (s.raiseFault .illegalCommand .write w).lastWerr = w := rfl
@[simp] theorem State.illegal_write_rptr (w : Word) : (s.raiseFault .illegalCommand .write w).rptr = s.rptr := rfl
@[simp] theorem State.illegal_write_rpub (w : Word) : (s.raiseFault .illegalCommand .write w).rpub = s.rpub := rfl
@[simp] theorem State.illegal_write_wsync (w : Word) : (s.raiseFault .illegalCommand .write w).wsync = s.wsync := rfl
@[simp] theorem State.illegal_write_active (w : Word) : (s.raiseFault .illegalCommand .write w).active = s.active := rfl
@[simp] theorem State.illegal_write_cmplEn (w : Word) : (s.raiseFault .illegalCommand .write w).cmplEn = s.cmplEn := rfl
@[simp] theorem State.illegal_write_pending (w : Word) : (s.raiseFault .illegalCommand .write w).pending = s.pending := rfl
@[simp] theorem State.illegal_write_eaddr (w : Word) : (s.raiseFault .illegalCommand .write w).eaddr = s.eaddr := rfl
@[simp] theorem State.illegal_write_remaining (w : Word) : (s.raiseFault .illegalCommand .write w).remaining = s.remaining := rfl
@[simp] theorem State.illegal_write_trun (w : Word) : (s.raiseFault .illegalCommand .write w).trun = s.trun := rfl
@[simp] theorem State.illegal_write_tpre (w : Word) : (s.raiseFault .illegalCommand .write w).tpre = s.tpre := rfl
@[simp] theorem State.illegal_write_tcnt (w : Word) : (s.raiseFault .illegalCommand .write w).tcnt = s.tcnt := rfl
@[simp] theorem State.illegal_write_tmrA (w : Word) : (s.raiseFault .illegalCommand .write w).tmrA = s.tmrA := rfl
@[simp] theorem State.illegal_write_tmrB (w : Word) : (s.raiseFault .illegalCommand .write w).tmrB = s.tmrB := rfl
@[simp] theorem State.illegal_write_initd (w : Word) : (s.raiseFault .illegalCommand .write w).initd = s.initd := rfl
@[simp] theorem State.illegal_write_cerrIll (w : Word) : (s.raiseFault .illegalCommand .write w).cerrIll = s.cerrIll := rfl
@[simp] theorem State.illegal_write_cerrFreq (w : Word) : (s.raiseFault .illegalCommand .write w).cerrFreq = s.cerrFreq := rfl
@[simp] theorem State.illegal_write_lastCerr (w : Word) : (s.raiseFault .illegalCommand .write w).lastCerr = s.lastCerr := rfl
@[simp] theorem State.illegal_write_dout (w : Word) : (s.raiseFault .illegalCommand .write w).dout = s.dout := rfl
@[simp] theorem State.illegal_write_mem (w : Word) : (s.raiseFault .illegalCommand .write w).mem = s.mem := rfl
@[simp] theorem State.illegal_write_out (w : Word) : (s.raiseFault .illegalCommand .write w).out = s.out := rfl
@[simp] theorem State.illegal_write_wresp (w : Word) : (s.raiseFault .illegalCommand .write w).wresp = s.wresp ++ [all1] := rfl
@[simp] theorem State.illegal_write_cresp (w : Word) : (s.raiseFault .illegalCommand .write w).cresp = s.cresp := rfl
@[simp] theorem State.illegal_write_flog (w : Word) : (s.raiseFault .illegalCommand .write w).flog = s.flog ++ [⟨.illegalCommand, .write, w⟩] := rfl
@[simp] theorem State.illegal_write_wstream (w : Word) : (s.raiseFault .illegalCommand .write w).wstream = s.wstream := rfl
@[simp] theorem State.illegal_write_wpos (w : Word) : (s.raiseFault .illegalCommand .write w).wpos = s.wpos := rfl
@[simp] theorem State.illegal_write_cstream (w : Word) : (s.raiseFault .illegalCommand .write w).cstream = s.cstream := rfl
@[simp] theorem State.illegal_write_cpos (w : Word) : (s.raiseFault .illegalCommand .write w).cpos = s.cpos := rfl
@[simp] theorem State.illegal_write_sched (w : Word) : (s.raiseFault .illegalCommand .write w).sched = s.sched := rfl
@[simp] theorem State.illegal_write_edges (w : Word) : (s.raiseFault .illegalCommand .write w).edges = s.edges := rfl

/-! ### illegal_control -/

@[simp] theorem State.illegal_control_cfg (w : Word) : (s.raiseFault .illegalCommand .control w).cfg = s.cfg := rfl
@[simp] theorem State.illegal_control_wptr (w : Word) : (s.raiseFault .illegalCommand .control w).wptr = s.wptr := rfl
@[simp] theorem State.illegal_control_wpub (w : Word) : (s.raiseFault .illegalCommand .control w).wpub = s.wpub := rfl
@[simp] theorem State.illegal_control_rsync (w : Word) : (s.raiseFault .illegalCommand .control w).rsync = s.rsync := rfl
@[simp] theorem State.illegal_control_werrIll (w : Word) : (s.raiseFault .illegalCommand .control w).werrIll = s.werrIll := rfl
@[simp] theorem State.illegal_control_lastWerr (w : Word) : (s.raiseFault .illegalCommand .control w).lastWerr = s.lastWerr := rfl
@[simp] theorem State.illegal_control_rptr (w : Word) : (s.raiseFault .illegalCommand .control w).rptr = s.rptr := rfl
@[simp] theorem State.illegal_control_rpub (w : Word) : (s.raiseFault .illegalCommand .control w).rpub = s.rpub := rfl
@[simp] theorem State.illegal_control_wsync (w : Word) : (s.raiseFault .illegalCommand .control w).wsync = s.wsync := rfl
@[simp] theorem State.illegal_control_active (w : Word) : (s.raiseFault .illegalCommand .control w).active = s.active := rfl
@[simp] theorem State.illegal_control_cmplEn (w : Word) : (s.raiseFault .illegalCommand .control w).cmplEn = s.cmplEn := rfl
@[simp] theorem State.illegal_control_pending (w : Word) : (s.raiseFault .illegalCommand .control w).pending = s.pending := rfl
@[simp] theorem State.illegal_control_eaddr (w : Word) : (s.raiseFault .illegalCommand .control w).eaddr = s.eaddr := rfl
@[simp] theorem State.illegal_control_remaining (w : Word) : (s.raiseFault .illegalCommand .control w).remaining = s.remaining := rfl
@[simp] theorem State.illegal_control_trun (w : Word) : (s.raiseFault .illegalCommand .control w).trun = s.trun := rfl
@[simp] theorem State.illegal_control_tpre (w : Word) : (s.raiseFault .illegalCommand .control w).tpre = s.tpre := rfl
@[simp] theorem State.illegal_control_tcnt (w : Word) : (s.raiseFault .illegalCommand .control w).tcnt = s.tcnt := rfl
@[simp] theorem State.illegal_control_tmrA (w : Word) : (s.raiseFault .illegalCommand .control w).tmrA = s.tmrA := rfl
@[simp] theorem State.illegal_control_tmrB (w : Word) : (s.raiseFault .illegalCommand .control w).tmrB = s.tmrB := rfl
@[simp] theorem State.illegal_control_initd (w : Word) : (s.raiseFault .illegalCommand .control w).initd = s.initd := rfl
@[simp] theorem State.illegal_control_cerrIll (w : Word) : (s.raiseFault .illegalCommand .control w).cerrIll = true := rfl
@[simp] theorem State.illegal_control_cerrFreq (w : Word) : (s.raiseFault .illegalCommand .control w).cerrFreq = s.cerrFreq := rfl
@[simp] theorem State.illegal_control_lastCerr (w : Word) : (s.raiseFault .illegalCommand .control w).lastCerr = w := rfl
@[simp] theorem State.illegal_control_dout (w : Word) : (s.raiseFault .illegalCommand .control w).dout = s.dout := rfl
@[simp] theorem State.illegal_control_mem (w : Word) : (s.raiseFault .illegalCommand .control w).mem = s.mem := rfl
@[simp] theorem State.illegal_control_out (w : Word) : (s.raiseFault .illegalCommand .control w).out = s.out := rfl
@[simp] theorem State.illegal_control_wresp (w : Word) : (s.raiseFault .illegalCommand .control w).wresp = s.wresp := rfl
@[simp] theorem State.illegal_control_cresp (w : Word) : (s.raiseFault .illegalCommand .control w).cresp = s.cresp ++ [all1] := rfl
@[simp] theorem State.illegal_control_flog (w : Word) : (s.raiseFault .illegalCommand .control w).flog = s.flog ++ [⟨.illegalCommand, .control, w⟩] := rfl
@[simp] theorem State.illegal_control_wstream (w : Word) : (s.raiseFault .illegalCommand .control w).wstream = s.wstream := rfl
@[simp] theorem State.illegal_control_wpos (w : Word) : (s.raiseFault .illegalCommand .control w).wpos = s.wpos := rfl
@[simp] theorem State.illegal_control_cstream (w : Word) : (s.raiseFault .illegalCommand .control w).cstream = s.cstream := rfl
@[simp] theorem State.illegal_control_cpos (w : Word) : (s.raiseFault .illegalCommand .control w).cpos = s.cpos := rfl
@[simp] theorem State.illegal_control_sched (w : Word) : (s.raiseFault .illegalCommand .control w).sched = s.sched := rfl
@[simp] theorem State.illegal_control_edges (w : Word) : (s.raiseFault .illegalCommand .control w).edges = s.edges := rfl

/-! ### zeroFreq_control -/

@[simp] theorem State.zeroFreq_control_cfg (w : Word) : (s.raiseFault .zeroFrequency .control w).cfg = s.cfg := rfl
@[simp] theorem State.zeroFreq_control_wptr (w : Word) : (s.raiseFault .zeroFrequency .control w).wptr = s.wptr := rfl
@[simp] theorem State.zeroFreq_control_wpub (w : Word) : (s.raiseFault .zeroFrequency .control w).wpub = s.wpub := rfl
@[simp] theorem State.zeroFreq_control_rsync (w : Word) : (s.raiseFault .zeroFrequency .control w).rsync = s.rsync := rfl
@[simp] theorem State.zeroFreq_control_werrIll (w : Word) : (s.raiseFault .zeroFrequency .control w).werrIll = s.werrIll := rfl
@[simp] theorem State.zeroFreq_control_lastWerr (w : Word) : (s.raiseFault .zeroFrequency .control w).lastWerr = s.lastWerr := rfl
@[simp] theorem State.zeroFreq_control_rptr (w : Word) : (s.raiseFault .zeroFrequency .control w).rptr = s.rptr := rfl
@[simp] theorem State.zeroFreq_control_rpub (w : Word) : (s.raiseFault .zeroFrequency .control w).rpub = s.rpub := rfl
@[simp] theorem State.zeroFreq_control_wsync (w : Word) : (s.raiseFault .zeroFrequency .control w).wsync = s.wsync := rfl
@[simp] theorem State.zeroFreq_control_active (w : Word) : (s.raiseFault .zeroFrequency .control w).active = s.active := rfl
@[simp] theorem State.zeroFreq_control_cmplEn (w : Word) : (s.raiseFault .zeroFrequency .control w).cmplEn = s.cmplEn := rfl
@[simp] theorem State.zeroFreq_control_pending (w : Word) : (s.raiseFault .zeroFrequency .control w).pending = s.pending := rfl
@[simp] theorem State.zeroFreq_control_eaddr (w : Word) : (s.raiseFault .zeroFrequency .control w).eaddr = s.eaddr := rfl
@[simp] theorem State.zeroFreq_control_remaining (w : Word) : (s.raiseFault .zeroFrequency .control w).remaining = s.remaining := rfl
@[simp] theorem State.zeroFreq_control_trun (w : Word) : (s.raiseFault .zeroFrequency .control w).trun = s.trun := rfl
@[simp] theorem State.zeroFreq_control_tpre (w : Word) : (s.raiseFault .zeroFrequency .control w).tpre = s.tpre := rfl
@[simp] theorem State.zeroFreq_control_tcnt (w : Word) : (s.raiseFault .zeroFrequency .control w).tcnt = s.tcnt := rfl
@[simp] theorem State.zeroFreq_control_tmrA (w : Word) : (s.raiseFault .zeroFrequency .control w).tmrA = s.tmrA := rfl
@[simp] theorem State.zeroFreq_control_tmrB (w : Word) : (s.raiseFault .zeroFrequency .control w).tmrB = s.tmrB := rfl
@[simp] theorem State.zeroFreq_control_initd (w : Word) : (s.raiseFault .zeroFrequency .control w).initd = s.initd := rfl
@[simp] theorem State.zeroFreq_control_cerrIll (w : Word) : (s.raiseFault .zeroFrequency .control w).cerrIll = s.cerrIll := rfl
@[simp] theorem State.zeroFreq_control_cerrFreq (w : Word) : (s.raiseFault .zeroFrequency .control w).cerrFreq = true := rfl
@[simp] theorem State.zeroFreq_control_lastCerr (w : Word) : (s.raiseFault .zeroFrequency .control w).lastCerr = w := rfl
@[simp] theorem State.zeroFreq_control_dout (w : Word) : (s.raiseFault .zeroFrequency .control w).dout = s.dout := rfl
@[simp] theorem State.zeroFreq_control_mem (w : Word) : (s.raiseFault .zeroFrequency .control w).mem = s.mem := rfl
@[simp] theorem State.zeroFreq_control_out (w : Word) : (s.raiseFault .zeroFrequency .control w).out = s.out := rfl
@[simp] theorem State.zeroFreq_control_wresp (w : Word) : (s.raiseFault .zeroFrequency .control w).wresp = s.wresp := rfl
@[simp] theorem State.zeroFreq_control_cresp (w : Word) : (s.raiseFault .zeroFrequency .control w).cresp = s.cresp ++ [all1] := rfl
@[simp] theorem State.zeroFreq_control_flog (w : Word) : (s.raiseFault .zeroFrequency .control w).flog = s.flog ++ [⟨.zeroFrequency, .control, w⟩] := rfl
@[simp] theorem State.zeroFreq_control_wstream (w : Word) : (s.raiseFault .zeroFrequency .control w).wstream = s.wstream := rfl
@[simp] theorem State.zeroFreq_control_wpos (w : Word) : (s.raiseFault .zeroFrequency .control w).wpos = s.wpos := rfl
@[simp] theorem State.zeroFreq_control_cstream (w : Word) : (s.raiseFault .zeroFrequency .control w).cstream = s.cstream := rfl
@[simp] theorem State.zeroFreq_control_cpos (w : Word) : (s.raiseFault .zeroFrequency .control w).cpos = s.cpos := rfl
@[simp] theorem State.zeroFreq_control_sched (w : Word) : (s.raiseFault .zeroFrequency .control w).sched = s.sched := rfl
@[simp] theorem State.zeroFreq_control_edges (w : Word) : (s.raiseFault .zeroFrequency .control w).edges = s.edges := rfl

end Sys2Proof.Machine
end

