-- ==== Sys2Proof/Laws/Edges.lean ====
section
/-! SUPPORT. What each shared operation does, said once: the edges without a command, the controller, the datapath reset, the
timer, and the cases of a step. Later proofs cite these lemmas and unfold nothing. -/

namespace Sys2Proof.Machine

variable (s : State)

/-! ## Derived values and the operations -/

/-- The gray code, with the shift written as a division. -/
theorem gray_eq (x : Nat) : gray x = x ^^^ x / 2 := by simp [gray, Nat.shiftRight_one]

theorem publish_eq (c : Config) (a b : Nat) :
    c.publish a b = if a = b then a else (a + 1) % 2 ^ (c.A + 1) := by
  simp only [Config.publish, Config.padd, Config.M, Config.P, ne_eq, ite_not]

/-- A chain shift, stage by stage (41_cdc.md R145, R146). -/
theorem shiftIn_chainShift (c : Config) (g : Nat) (chain : List Nat) :
    ChainShift c.sSync g chain (c.shiftIn g chain) := c.getElem?_shiftIn g chain

/-- What the timer tick does (60_exceptions.md R243). -/
theorem timerTick_spec : s.TimerTick s.timerTick := by
  refine ⟨by simp, ?_⟩
  have h1 := s.tmrB.isLt
  have h2 := s.tcnt.isLt
  rw [State.timerTick_tcnt]
  by_cases h : s.trun = true ∧ s.tpre = true
  · rw [if_pos h, if_pos (by simpa using h), State.tickedCount]
    by_cases hb : s.tmrB ≤ s.tcnt
    · rw [if_pos hb, if_pos (BitVec.le_def.mp hb)]
      rfl
    · have hb' : ¬s.tmrB.toNat ≤ s.tcnt.toNat := fun hh => hb (BitVec.le_def.mpr hh)
      rw [if_neg hb, if_neg hb', BitVec.toNat_add, Nat.mod_eq_of_lt]
      · rfl
      · change s.tcnt.toNat + 1 < 2 ^ 32
        omega
  · rw [if_neg h, if_neg (by simpa using h)]

/-- What the datapath reset does (43_commands.md R192). -/
theorem dpreset_spec : s.DatapathReset s.dpreset := by simp [State.DatapathReset]

/-- What the timer programming does (60_exceptions.md R246). -/
theorem tprog_spec (f : Nat) : s.Programmed (s.tprog f) f := by
  have h := s.cfg.cpuHz_lt
  have h1 : s.cfg.cpuHz / f ≤ s.cfg.cpuHz := Nat.div_le_self _ _
  refine ⟨?_, ?_, by simp, by simp, by simp⟩ <;>
    simp only [State.tprog_tmrA, State.tprog_tmrB, divider, BitVec.toNat_ofNat] <;>
    generalize s.cfg.cpuHz / f = q at h1 ⊢ <;> omega

/-! ## The write edge -/

/-- What a write edge without a command does (43_commands.md R190). -/
theorem writeEdge_crossing : s.WriteCrossing s.writeEdge :=
  ⟨by simp [publish_eq], by simpa [gray_eq] using shiftIn_chainShift s.cfg (gray s.rpub) s.rsync⟩

/-- A write edge leaves memory alone. -/
theorem writeEdge_mem : s.SameMem s.writeEdge := fun _ => rfl

/-! ## The normal read edge -/

/-- The timer's and the crossing's updates of a normal read edge leave what the controller reads. -/
theorem memRead_tick (i : Nat) : s.readCrossing.timerTick.memRead i = s.memRead i := rfl

/-- The one place where the controller's action is taken apart: what a normal read edge is, by the pre-edge state. -/
theorem readEdge_cases :
    ((s.trig = true ∧ 0 < s.remaining) ∧ s.action = .engineXfer ∧ s.readEdge = s.readCrossing.timerTick.engineXfer) ∨
    (¬(s.trig = true ∧ 0 < s.remaining) ∧ s.cmplSig = true ∧ s.action = .complete ∧
      ((s.nextChunk s.wptrR = 0 ∧ s.readEdge = s.readCrossing.timerTick.completeIdle s.advancedRptr) ∨
        (s.nextChunk s.wptrR ≠ 0 ∧
          s.readEdge = s.readCrossing.timerTick.completeArm s.advancedRptr (s.nextChunk s.wptrR)))) ∨
    (¬(s.trig = true ∧ 0 < s.remaining) ∧ s.cmplSig = false ∧ (s.active = false ∧ 0 < s.occR) ∧ s.action = .kick ∧
      s.readEdge = s.readCrossing.timerTick.kick) ∨
    (¬(s.trig = true ∧ 0 < s.remaining) ∧ s.cmplSig = false ∧ ¬(s.active = false ∧ 0 < s.occR) ∧ s.action = .none ∧
      s.readEdge = s.readCrossing.timerTick) := by
  unfold State.readEdge State.action
  split
  · exact .inl ⟨‹_›, rfl, rfl⟩
  · split
    · refine .inr (.inl ⟨‹_›, ‹_›, rfl, ?_⟩)
      have e : s.readCrossing.timerTick.nextChunk s.wptrR = s.nextChunk s.wptrR := rfl
      simp only [State.act, State.complete, e]
      split
      · exact .inl ⟨‹_›, rfl⟩
      · exact .inr ⟨‹_›, rfl⟩
    · have hc : s.cmplSig = false := by simpa using ‹¬s.cmplSig = true›
      split
      · exact .inr (.inr (.inl ⟨‹_›, hc, ‹_›, rfl, rfl⟩))
      · exact .inr (.inr (.inr ⟨‹_›, hc, ‹_›, rfl, rfl⟩))

/-- The trigger, in the words of 60_exceptions.md R244. -/
theorem trig_iff : s.trig = true ↔ s.trun = true ∧ s.tpre = true ∧ s.tcnt = s.tmrA := by
  simp [State.trig, and_assoc]

/-- The completion signal, in the words of 42_transfer.md R161. -/
theorem cmplSig_iff : s.cmplSig = true ↔ s.cmplEn = true ∧ s.remaining = 0 := by simp [State.cmplSig]

/-- What a normal read edge does (42_transfer.md R176). -/
theorem readEdge_spec : s.NormalRead s.readEdge := by
  have hx : s.ReadCrossing s.readCrossing :=
    ⟨by simp [publish_eq], by simpa [gray_eq] using shiftIn_chainShift s.cfg (gray s.wpub) s.wsync⟩
  have ht : s.TimerTick s.readCrossing.timerTick := timerTick_spec s
  have base : ∀ t : State, t.rpub = s.readCrossing.rpub → t.wsync = s.readCrossing.wsync →
      t.tpre = s.readCrossing.timerTick.tpre → t.tcnt = s.readCrossing.timerTick.tcnt → s.SameProgram t →
      s.ControllerEdge t → s.NormalRead t := by
    intro t h1 h2 h3 h4 h5 h6
    refine ⟨?_, ?_, h5, h6⟩
    · unfold State.ReadCrossing; rw [h1, h2]; exact hx
    · unfold State.TimerTick; rw [h3, h4]; exact ht
  unfold State.ControllerEdge at base
  simp only [← trig_iff, ← cmplSig_iff] at base
  have hocc : s.cfg.diff s.wptrR s.rptr = s.occR := rfl
  rcases readEdge_cases s with ⟨h, -, e⟩ | ⟨h, hc, -, ⟨hk, e⟩ | ⟨hk, e⟩⟩ | ⟨h, hc, hs, -, e⟩ | ⟨h, hc, hs, -, e⟩ <;> rw [e]
  · refine base _ rfl rfl rfl rfl ⟨rfl, rfl, rfl⟩ ?_
    rw [if_pos h]
    refine ⟨rfl, rfl, rfl, ?_, rfl, rfl, rfl, rfl⟩
    simp; omega
  · refine base _ rfl rfl rfl rfl ⟨rfl, rfl, rfl⟩ ?_
    rw [if_neg h, if_pos hc]
    refine ⟨rfl, ⟨rfl, rfl⟩, ?_⟩
    have hk' : min (s.cfg.crun ((s.rptr + s.pending) % 2 ^ (s.cfg.A + 1)) s.wptrR) s.cfg.maxChunk = 0 := hk
    rw [if_pos hk']
    exact ⟨rfl, rfl, rfl, rfl, rfl⟩
  · refine base _ rfl rfl rfl rfl ⟨rfl, rfl, rfl⟩ ?_
    rw [if_neg h, if_pos hc]
    refine ⟨rfl, ⟨rfl, rfl⟩, ?_⟩
    have hk' : ¬min (s.cfg.crun ((s.rptr + s.pending) % 2 ^ (s.cfg.A + 1)) s.wptrR) s.cfg.maxChunk = 0 := hk
    rw [if_neg hk']
    exact ⟨rfl, rfl, rfl, rfl, rfl⟩
  · refine base _ rfl rfl rfl rfl ⟨rfl, rfl, rfl⟩ ?_
    rw [if_neg h, if_neg (by simp [hc]), hocc, if_pos hs]
    exact ⟨rfl, rfl, rfl, rfl, rfl, rfl, rfl, rfl⟩
  · refine base _ rfl rfl rfl rfl ⟨rfl, rfl, rfl⟩ ?_
    rw [if_neg h, if_neg (by simp [hc]), hocc, if_neg hs]
    exact ⟨⟨rfl, rfl, rfl, rfl, rfl, rfl⟩, rfl, rfl⟩

/-- What a normal read edge leaves unchanged (42_transfer.md R176). -/
theorem readEdge_frame : s.ReadFrame s.readEdge ∧ s.SameControlErrors s.readEdge ∧ s.readEdge.cresp = s.cresp ∧
    s.readEdge.flog = s.flog := by
  rcases readEdge_cases s with ⟨-, -, e⟩ | ⟨-, -, -, ⟨-, e⟩ | ⟨-, e⟩⟩ | ⟨-, -, -, -, e⟩ | ⟨-, -, -, -, e⟩ <;> rw [e] <;>
    exact ⟨⟨⟨rfl, rfl, rfl, rfl, rfl⟩, fun _ => rfl, rfl, rfl, rfl, rfl, rfl, rfl, rfl, rfl, rfl⟩, ⟨rfl, rfl, rfl⟩, rfl, rfl⟩

/-! ## The step -/

/-- The model's bookkeeping before a command is the move of Safety.lean. -/
theorem consume_takeEdge (p : Port) (n : Nat) : s.takeEdge.consume p n = s.moved p n := by cases p <;> rfl

/-- Everything a step that completes can be: a command, an illegal word, or an edge without a command. -/
theorem step_cases (t : State) (h : step s = .next t) :
    (∃ i n, s.fetch s.nextEdge = .command i n ∧ exec i (s.moved s.nextEdge.port n) = .next t) ∨
    (∃ w why, s.fetch s.nextEdge = .illegal w why ∧ t = (s.moved s.nextEdge.port 1).illegalEdge s.nextEdge.port w) ∨
    (s.fetch s.nextEdge = .empty ∧ t = s.takeEdge.idleEdge s.nextEdge.port) := by
  unfold step at h
  split at h
  · rename_i i n hf
    rw [consume_takeEdge] at h
    exact .inl ⟨i, n, hf, h⟩
  · rename_i w why hf
    rw [consume_takeEdge] at h
    exact .inr (.inl ⟨w, why, hf, (Host.Outcome.next.inj h).symm⟩)
  · cases h
  · rename_i hf
    exact .inr (.inr ⟨hf, (Host.Outcome.next.inj h).symm⟩)

end Sys2Proof.Machine
end

