-- ==== Sys2Proof/Laws/PerInstr.lean ====
section
/-! SUPPORT. Statements per command, as syntax. -/

namespace Sys2Proof.Laws.EncodedLength

/-- The first word of an encoded command says how many words the command has (30_encoding.md R82). -/
def Statement (i : Instr) : Prop :=
  i.wf = true → ∀ w ∈ (encode i).head?, commandLength i.port w = (encode i).length

theorem nop (p : Port) : Statement (.nop p) := by
  simp [Statement, encode, Instr.port, commandLength, Head.operands]

theorem feed (count : BitVec 28) (data : List Word) : Statement (.feed count data) := by
  simp only [Statement, Instr.wf, beq_iff_eq]
  intro h
  simp [encode, Instr.port, commandLength, Head.operands, h, Nat.add_comm]

theorem rdfree : Statement .rdfree := by
  simp [Statement, encode, Instr.port, commandLength, Head.operands]

theorem rdw (sel : WSel) : Statement (.rdw sel) := by
  simp [Statement, encode, Instr.port, commandLength, Head.operands]

theorem init : Statement .init := by
  simp [Statement, encode, Instr.port, commandLength, Head.operands]

theorem start (freq : Word) : Statement (.start freq) := by
  simp [Statement, encode, Instr.port, commandLength, Head.operands]

theorem stop : Statement .stop := by
  simp [Statement, encode, Instr.port, commandLength, Head.operands]

theorem rdc (sel : CSel) : Statement (.rdc sel) := by
  simp [Statement, encode, Instr.port, commandLength, Head.operands]

end Sys2Proof.Laws.EncodedLength
end

