-- ==== Sys2Proof/Laws/Runs.lean ====
section
/-! SUPPORT. Runs, by their first step: what each function over a run is when that step completes. -/

namespace Sys2Proof.Machine

theorem runsTo_zero (s t : State) : runsTo 0 s t ↔ t = s := by
  simp only [runsTo, Host.Core.run]
  exact ⟨fun h => (Host.Outcome.next.inj h).symm, fun h => by rw [h]⟩

/-- A run of k + 1 steps is a step that completes and a run of k steps. -/
theorem runsTo_succ (k : Nat) (s t : State) : runsTo (k + 1) s t ↔ ∃ u, step s = .next u ∧ runsTo k u t := by
  have hs : core.step = step := rfl
  constructor
  · intro h
    simp only [runsTo, Host.Core.run, hs] at h
    split at h
    · exact ⟨_, ‹_›, h⟩
    · cases h
    · cases h
  · rintro ⟨u, hu, h⟩
    simpa only [runsTo, Host.Core.run, hs, hu] using h

variable {s t : State} (h : step s = .next t) (k : Nat)
include h

theorem visited_succ : visited (k + 1) s = s :: visited k t := by simp only [visited, h]

theorem edgesIn_succ (p : Port) :
    edgesIn p (k + 1) s = (if s.nextEdge.port = p then 1 else 0) + edgesIn p k t := by simp only [edgesIn, h]

theorem noResetIn_succ : noResetIn (k + 1) s = (!s.resets && noResetIn k t) := by simp only [noResetIn, h]

theorem acceptedIn_succ : acceptedIn (k + 1) s = s.accepts ++ acceptedIn k t := by simp only [acceptedIn, h]

end Sys2Proof.Machine
end

