-- ==== Sys2Proof/Tests/Slice0.lean ====
section
/-! SUPPORT. Small tests, each on one decode or one step, with expected values from the spec's encodings, examples and
vectors; and, for every statement with hypotheses, a witness that meets them. -/

namespace Sys2Proof.Tests

open Sys2Proof Sys2Proof.Machine

/-! ## Helpers -/

/-- The parameters of 95_test_vectors.md section 0. -/
def small : Config := ⟨3, 16, 4, 2, 4, 1, by decide⟩

/-- The power-on state of `small`. -/
def fresh : State := State.powerOn small

/-- The state an outcome holds, else the power-on state. -/
def after (o : Host.Outcome State Fault Refusal) : State :=
  match o with
  | .next s => s
  | .fault _ => fresh
  | .refused _ => fresh

/-- Five samples fed and seen by the read domain, the controller IDLE (95_test_vectors.md, before R4 of program P1). -/
def seen : State :=
  { fresh with
    wptr := 5
    wpub := 5
    wsync := [7, 7]
    mem := [(0, 1), (1, 2), (2, 3), (3, 4), (4, 5)]
    trun := true
    tpre := true
    tmrB := 1 }

/-- `seen` after the KICK. -/
def kicked : State := { seen with active := true, cmplEn := true }

/-- `kicked` with the first chunk armed and two of its four samples moved; the counter stands at a trigger. -/
def busy : State := { kicked with pending := 4, remaining := 2, eaddr := 2, dout := 2, out := [1, 2] }

/-- `busy` with one sample of the chunk left. -/
def last : State := { busy with remaining := 1, eaddr := 3, dout := 3, out := [1, 2, 3] }

/-- `busy` with the whole chunk moved (95_test_vectors.md T-7). -/
def done4 : State := { busy with remaining := 0, eaddr := 4, dout := 4, out := [1, 2, 3, 4] }

/-- The last chunk moved (95_test_vectors.md T-8). -/
def done5 : State :=
  { done4 with rptr := 4, rpub := 4, pending := 1, eaddr := 5, dout := 5, out := [1, 2, 3, 4, 5] }

/-- A state that plays nothing, one edge of port `p` next in its schedule, with or without a command. -/
def edgeOf (s : State) (p : Port) (cmd : Bool) (ws : List Word) : State :=
  { s with wstream := ws, cstream := ws, sched := [⟨p, cmd⟩] }

/-! ## Well-formedness -/

theorem test_wf_feed_short : (Instr.feed 2 [1]).wf = false := by decide
theorem test_wf_feed_long : (Instr.feed 0 [1]).wf = false := by decide
theorem test_wf_feed : (Instr.feed 2 [1, 2]).wf = true := by decide
theorem test_exec_feed_short : exec (.feed 2 [1]) fresh = .refused .feedLength := rfl
theorem test_config_refused : Config.ofParams 28 16 4 2 4 1 = none := by decide
theorem test_config_chunk_refused : Config.ofParams 3 16 9 2 4 1 = none := by decide

/-! ## Decoding: the words of 30_encoding.md R85 to R89, bit by bit -/

theorem test_decode_nop : decode .write [0b00000000000000000000000000000000] = .command (.nop .write) 1 := by decide
theorem test_decode_nop_control : decode .control [0b00000000000000000000000000000000] = .command (.nop .control) 1 := by
  decide
theorem test_decode_feed :
    decode .write [0b00010000000000000000000000000010, 7, 8, 9] = .command (.feed 2 [7, 8]) 3 := by decide
theorem test_decode_feed_zero : decode .write [0b00010000000000000000000000000000] = .command (.feed 0 []) 1 := by
  decide
theorem test_decode_rdfree : decode .write [0b00100000000000000000000000000000] = .command .rdfree 1 := by decide
theorem test_decode_rdw_wptr : decode .write [0b00110000000000000000000000000000] = .command (.rdw .wptr) 1 := by decide
theorem test_decode_rdw_last : decode .write [0b00110000000000000000000000000100] = .command (.rdw .lastWerr) 1 := by
  decide
theorem test_decode_init : decode .control [0b10000000000000000000000000000000] = .command .init 1 := by decide
theorem test_decode_start :
    decode .control [0b10010000000000000000000000000000, 44100] = .command (.start 44100) 2 := by decide
theorem test_decode_stop : decode .control [0b10100000000000000000000000000000] = .command .stop 1 := by decide
theorem test_decode_rdc_status : decode .control [0b10110000000000000000000000000000] = .command (.rdc .status) 1 := by
  decide
theorem test_decode_rdc_last : decode .control [0b10110000000000000000000000001101] = .command (.rdc .lastCerr) 1 := by
  decide

/-- 95_test_vectors.md E-2, E-7, E-9, E-10. -/
theorem test_illegal_write :
    ([0x00000001, 0x20000001, 0x30000010] : List Word).map decodeW =
        [.illegal .reservedField, .illegal .reservedField, .illegal .reservedField] ∧
      decodeW 0x30000005 = .illegal .reservedSelector ∧ decodeW 0x40000000 = .illegal .reservedOpcode ∧
      decodeW 0x7FFFFFFF = .illegal .reservedOpcode ∧ decodeW 0xFFFFFFFF = .illegal .reservedOpcode ∧
      decodeW 0xB0000000 = .illegal .wrongPort := by decide

/-- 95_test_vectors.md E-14, E-17, E-18, E-19. -/
theorem test_illegal_control :
    ([0x90000001, 0x00000004, 0xB0000010] : List Word).map decodeC =
        [.illegal .reservedField, .illegal .reservedField, .illegal .reservedField] ∧
      decodeC 0xB000000E = .illegal .reservedSelector ∧ decodeC 0x10000002 = .illegal .wrongPort ∧
      decodeC 0x30000000 = .illegal .wrongPort ∧ decodeC 0x40000000 = .illegal .reservedOpcode ∧
      decodeC 0xC0000000 = .illegal .reservedOpcode := by decide

theorem test_table_words :
    decodeTableWord 32 0x00000000 = some (.nop .write) ∧ decodeTableWord 32 0x10000001 = some (.feed 1 [0]) ∧
      decodeTableWord 32 0x20000000 = some .rdfree ∧ decodeTableWord 32 0x30000002 = some (.rdw .rptrW) ∧
      decodeTableWord 32 0x80000000 = some .init ∧ decodeTableWord 32 0x90000000 = some (.start 0) ∧
      decodeTableWord 32 0xA0000000 = some .stop ∧ decodeTableWord 32 0xB0000005 = some (.rdc .freeR) ∧
      decodeTableWord 32 0x40000000 = none := by decide

/-! ## The assembler -/

/-- 30_encoding.md R96, from text to words. -/
theorem test_assemble_feed :
    (parseAsm "feed 5, [1, 2, 3, 4, 5]").bind (assemble small) = some [0x10000005, 1, 2, 3, 4, 5] := by decide

/-- 95_test_vectors.md K-2: `feed 0` without a list (log entry 22); no other COUNT goes without one (30_encoding.md R93). -/
theorem test_assemble_feed_no_list :
    (parseAsm "feed 0").bind (assemble small) = some [0x10000000] ∧
      (parseAsm "feed 0, []").bind (assemble small) = some [0x10000000] ∧
      (parseAsm "feed 1").bind (assemble small) = none := by decide

theorem test_assemble_start : (parseAsm "start 44100").bind (assemble small) = some [0x90000000, 0x0000AC44] := by decide
theorem test_assemble_rdc : (parseAsm "rdc free_r").bind (assemble small) = some [0xB0000005] := by decide
theorem test_assemble_rdw : (parseAsm "rdw rptr_w").bind (assemble small) = some [0x30000002] := by decide
theorem test_assemble_refuses :
    assemble small (.start 0) = none ∧ assemble small (.feed 1 [65536]) = none ∧ assemble small (.feed 2 [1]) = none ∧
      assemble small (.rdw 5) = none ∧ assemble small (.rdc 14) = none := by decide
theorem test_schedule_line :
    parseSchedLine "R: start 4" = some ⟨.control, some (.start 4), 1⟩ ∧
      parseSchedLine "W x6" = some ⟨.write, none, 6⟩ := by decide

/-! ## The gray code, the buffer functions and the divider (95_test_vectors.md sections 2.2, 2.3, 2.7) -/

/-- 95_test_vectors.md X-1. -/
theorem test_gray_table : (List.range 16).map gray = [0, 1, 3, 2, 6, 7, 5, 4, 12, 13, 15, 14, 10, 11, 9, 8] := by decide

/-- 95_test_vectors.md X-2. -/
theorem test_bin : [12, 9, 13, 7, 0].map small.bin = [8, 14, 9, 5, 0] := by decide

/-- 95_test_vectors.md B-1 to B-8. -/
theorem test_crun :
    [small.crun 3 3, small.crun 2 5, small.crun 2 7, small.crun 6 9, small.crun 0 8, small.crun 2 10, small.crun 10 2,
      small.crun 7 8] = [0, 3, 5, 2, 8, 6, 6, 1] := by decide

/-- 95_test_vectors.md B-9, B-10, B-11, B-12. -/
theorem test_capacity :
    ({ fresh with wptr := 13, rptr := 6 } : State).freeTrue = 1 ∧ ({ fresh with wptr := 8 } : State).freeTrue = 0 ∧
      ({ fresh with wptr := 5, rptr := 4 } : State).freeW = 3 ∧
      ({ fresh with wptr := 5, wsync := [2, 2] } : State).freeR = 5 := by decide

/-- 95_test_vectors.md B-13: the split copy. -/
theorem test_buf_write :
    let t := ({ fresh with wptr := 6 } : State).bufWrite [21, 22, 23]
    t.mem = [(0, 23), (6, 21), (7, 22)] ∧ t.wptr = 9 := by decide

/-- 60_exceptions.md R245 and 95_test_vectors.md TM-7. -/
theorem test_divider :
    [divider 4 1, divider 4 2, divider 4 3, divider 4 5, divider 84000000 44100] = [2, 1, 0, 0, 952] := by decide

/-! ## One step per command -/

/-- 43_commands.md R193: a NOP on a fresh block responds 0 and changes nothing else. -/
theorem test_nop : after (exec (.nop .write) fresh) = { fresh with wresp := [0] } := by decide
theorem test_nop_control : after (exec (.nop .control) fresh) = { fresh with cresp := [0] } := by decide

/-- 43_commands.md R194, the example. -/
theorem test_feed :
    let t := after (exec (.feed 5 [1, 2, 3, 4, 5]) fresh)
    t.wresp = [1] ∧ t.mem = [(0, 1), (1, 2), (2, 3), (3, 4), (4, 5)] ∧ t.wptr = 5 ∧ t.wpub = 0 ∧ t.freeW = 3 := by decide

/-- 95_test_vectors.md K-3: a FEED of 9 into 8 is refused. -/
theorem test_feed_refused : after (exec (.feed 9 [1, 2, 3, 4, 5, 6, 7, 8, 9]) fresh) = { fresh with wresp := [0] } := by
  decide

/-- 43_commands.md R195, the example. -/
theorem test_rdfree : (after (exec .rdfree { fresh with wptr := 5 })).wresp = [3] := by decide

/-- 43_commands.md R196, the example: `wptr` 5, and `wpub` 0 before the edge and 1 after it. -/
theorem test_rdw :
    let t := after (exec (.rdw .wptr) { fresh with wptr := 5 })
    t.wresp = [5] ∧ t.wpub = 1 := by decide
theorem test_rdw_wstatus : (after (exec (.rdw .wstatus) { fresh with werrIll := true })).wresp = [1] := by decide

/-- 43_commands.md R197, the example. -/
theorem test_init :
    let t := after (exec .init fresh)
    t.tmrA = 2 ∧ t.tmrB = 3 ∧ t.trun = true ∧ t.initd = true ∧ t.status = 0x0000000C ∧ t.cresp = [0] := by decide

/-- 60_exceptions.md R245, with CPU_HZ = 4 and f = 2; a chunk in flight is dropped (R280). -/
theorem test_start :
    let t := after (exec (.start 2) busy)
    t.tmrA = 1 ∧ t.tmrB = 2 ∧ t.tpre = false ∧ t.ctrl = .idle ∧ t.remaining = 0 ∧ t.out = [1, 2] := by decide

/-- 95_test_vectors.md F-3, R7: a START of 0 at a trigger edge is refused, and the sample is moved. -/
theorem test_start_zero :
    let t := after (exec (.start 0) busy)
    t.cresp = [0xFFFFFFFF] ∧ t.cerrFreq = true ∧ t.lastCerr = 0x90000000 ∧ t.out = [1, 2, 3] ∧
      t.flog.map (fun e => e.kind.code) = [2] ∧ t.flog = [⟨.zeroFrequency, .control, 0x90000000⟩] := by decide

/-- 95_test_vectors.md K-11: STOP in BUSY. -/
theorem test_stop :
    let t := after (exec .stop { busy with rptr := 4, rpub := 4, wptr := 7, pending := 3, eaddr := 5 })
    t.cresp = [0] ∧ t.wptr = 0 ∧ t.rptr = 0 ∧ t.ctrl = .idle ∧ t.remaining = 0 ∧ t.eaddr = 0 ∧ t.freeW = 8 ∧
      t.out = [1, 2] ∧ t.tcnt = 1 ∧ t.tpre = false := by decide

/-- 43_commands.md R200, the example: KICKED with `trun`, `initd` and no `tpre` reads 0x4F. -/
theorem test_rdc_status :
    (after (exec (.rdc .status) { kicked with initd := true, tpre := false })).cresp = [0x0000004F] := by decide

/-- 95_test_vectors.md K-10, the row of `eaddr`; the edge is otherwise normal. -/
theorem test_rdc_eaddr :
    let t := after (exec (.rdc .eaddr) busy)
    t.cresp = [2] ∧ t.eaddr = 3 ∧ t.dout = 3 := by decide

/-! ## Edges without a command -/

/-- 95_test_vectors.md X-4: the first and the second read edge with `wpub` = 5. -/
theorem test_read_chain :
    ({ fresh with wptr := 5, wpub := 5 } : State).readEdge.wsync = [7, 0] ∧
      ({ fresh with wptr := 5, wpub := 5 } : State).readEdge.readEdge.wptrR = 5 := by decide

/-- 42_transfer.md R163, the example. -/
theorem test_kick : seen.readEdge.ctrl = .kicked ∧ seen.readEdge.pending = 0 := by decide

/-- 95_test_vectors.md P1, R5: the synthetic completion arms a chunk of 4. -/
theorem test_synthetic :
    kicked.readEdge.rptr = 0 ∧ kicked.readEdge.pending = 4 ∧ kicked.readEdge.remaining = 4 ∧ kicked.readEdge.eaddr = 0 := by
  decide

/-- 95_test_vectors.md T-7: COMPLETE finds run 1 and arms it, the trigger notwithstanding (T-13). -/
theorem test_complete_arm :
    done4.readEdge.rptr = 4 ∧ done4.readEdge.eaddr = 4 ∧ done4.readEdge.remaining = 1 ∧ done4.readEdge.pending = 1 ∧
      done4.readEdge.out = [1, 2, 3, 4] := by decide

/-- 95_test_vectors.md T-8: COMPLETE finds run 0 and goes to IDLE. -/
theorem test_complete_idle :
    done5.readEdge.rptr = 5 ∧ done5.readEdge.pending = 0 ∧ done5.readEdge.active = false ∧ done5.readEdge.cmplEn = false :=
  by decide

/-- 95_test_vectors.md T-11: the last sample of a chunk that ends at the array end. -/
theorem test_xfer_wraps :
    let t := ({ busy with eaddr := 7, remaining := 1, mem := [(7, 21)] } : State).readEdge
    t.dout = 21 ∧ t.eaddr = 0 ∧ t.remaining = 0 := by decide

/-- 95_test_vectors.md TM-8: the ticks after `start 4`, (tpre, tcnt) at R1 to R4. -/
theorem test_ticks :
    let s := after (exec (.start 4) fresh)
    [s.tpre, s.readEdge.tpre, s.readEdge.readEdge.tpre, s.readEdge.readEdge.readEdge.tpre] =
        [false, true, false, true] ∧
      [s.tcnt, s.readEdge.tcnt, s.readEdge.readEdge.tcnt, s.readEdge.readEdge.readEdge.tcnt] = [0, 0, 1, 1] ∧
      [s.trig, s.readEdge.trig, s.readEdge.readEdge.trig] = [false, true, false] := by decide

/-! ## Faults and fetching -/

/-- 60_exceptions.md R232, the example. -/
theorem test_illegal_step :
    let t := after (step (edgeOf fresh .control true [0xB000000F]))
    t.cresp = [0xFFFFFFFF] ∧ t.cerrIll = true ∧ t.lastCerr = 0xB000000F ∧ t.cpos = 1 := by decide

/-- 60_exceptions.md R231, the example. -/
theorem test_illegal_write_step :
    let t := after (step (edgeOf fresh .write true [0x80000000]))
    t.wresp = [0xFFFFFFFF] ∧ t.werrIll = true ∧ t.lastWerr = 0x80000000 ∧ t.wpos = 1 := by decide

/-- A FEED without its data words (log entry 11). -/
theorem test_truncated_step :
    step (edgeOf fresh .write true [0x10000002, 1]) = .refused (.truncatedCommand .write) := rfl

/-- The table's words are the first thing the reset machine runs. -/
theorem test_first_step :
    (after (step (fresh.withFetchWord 32 0x10000001))).wptr = 1 ∧
      (after (step (fresh.withFetchWord 32 0xA0000000))).cresp = [0] := by decide

/-! ## Witnesses: the hypotheses of each statement, met together -/

/-- The states the witnesses use meet the invariant. -/
theorem witness_inv : fresh.Inv ∧ seen.Inv ∧ kicked.Inv ∧ busy.Inv ∧ last.Inv ∧ done4.Inv ∧ done5.Inv :=
  ⟨by decide, by decide, by decide, by decide, by decide, by decide, by decide⟩

/-- DecodeOfEncodeIsTheCommand. -/
theorem witness_decode_of_encode : (Instr.feed 2 [7, 8]).wf = true ∧ (Instr.start 44100).wf = true := by decide

/-- EncodeOfDecodeIsTheWords. -/
theorem witness_encode_of_decode : decode .write [0x10000001, 9, 0x20000000] = .command (.feed 1 [9]) 2 := by decide

/-- OpcodesAreLegalOnTheirPort, at both ends of each range. -/
theorem witness_opcodes :
    (0x10000000 : Word).toNat / 2 ^ 28 = 0x1 ∧ (0x3FFFFFFF : Word).toNat / 2 ^ 28 = 0x3 ∧
      (0x80000000 : Word).toNat / 2 ^ 28 = 0x8 ∧ (0xBFFFFFFF : Word).toNat / 2 ^ 28 = 0xB ∧
      (0x0FFFFFFF : Word).toNat / 2 ^ 28 = 0x0 := by decide

/-- ReservedFieldsMustBeZero: a reserved field that is not 0, and a legal word. -/
theorem witness_reserved :
    (0xA0000001 : Word).toNat / 2 ^ 28 ∈ [0x0, 0x2, 0x8, 0x9, 0xA] ∧ (0xA0000001 : Word).toNat % 2 ^ 28 ≠ 0 ∧
      (0x3FFFFFFF : Word).toNat / 2 ^ 28 ∈ [0x3, 0xB] ∧ (0x3FFFFFFF : Word).toNat % 2 ^ 28 / 16 ≠ 0 ∧
      headOf .write 0x20000000 = headOf .write 0x20000000 ∧ headOf .write 0x20000000 = .rdfree := by decide

/-- LengthFollowsFromTheCommandWord, each clause. -/
theorem witness_length :
    (0x1FFFFFFF : Word).toNat / 2 ^ 28 = 0x1 ∧ (0x90000000 : Word).toNat = 0x90000000 ∧
      (0x20000000 : Word).toNat / 2 ^ 28 ≠ 0x1 ∧ (0x90000001 : Word).toNat ≠ 0x90000000 ∧
      decode .control [0x90000000, 5] = .command (.start 5) 2 ∧
      decode .control [0x90000001, 5] = .illegal 0x90000001 .reservedField ∧
      (0x10000002 : Word).toNat = 0x10000000 + [3, 4].length := by decide

/-- AssembledCommandsDecode: a line of each command, at the ends of its operands, and a raw word. -/
theorem witness_assembled :
    [Asm.nop, .feed 2 [1, 65535], .rdfree, .rdw 4, .init, .start 4294967295, .stop, .rdc 13, .word [4294967295]].map
      (assemble small) =
    [some [0x00000000], some [0x10000002, 1, 65535], some [0x20000000], some [0x30000004], some [0x80000000],
      some [0x90000000, 0xFFFFFFFF], some [0xA0000000], some [0xB000000D], some [0xFFFFFFFF]] := by decide

/-- IllegalParametersAreRefused. -/
theorem witness_parameters : Config.ofParams 3 16 4 2 4 1 = some small := by decide

/-- PowerOnClearsEveryRegister, PowerOnMeetsTheInvariant. -/
theorem witness_powered_on : fresh = State.powerOn small ∧ fresh.poweredOn := ⟨rfl, small, [], [], [], rfl⟩

/-- GrayCodeBits, BinDecodesTheGrayCode, GrayStepChangesOneBit: the last pointer and the top and bottom bits. -/
theorem witness_gray : 15 < small.M ∧ small.P - 1 = 3 ∧ 2 < small.P - 1 := by decide

/-- PublishedCodeChangesOneBitAtMost, ViewsMoveForwardOnly, EveryStepKeepsTheSampleOrder: a step that is no reset. -/
theorem witness_step_no_reset :
    ∃ s t, State.Inv s ∧ step s = .next t ∧ s.resets = false ∧ s.nextEdge = ⟨.control, false⟩ :=
  ⟨edgeOf busy .control false [], _, by decide, rfl, by decide, by decide⟩

/-- A write pointer two ahead, and three edges, one of them with a NOP. -/
def writeAhead : State :=
  { fresh with
    wptr := 2
    wstream := [0x00000000]
    sched := [⟨.write, true⟩, ⟨.control, false⟩, ⟨.write, false⟩] }

/-- Both pointers published, and two edges of each clock, one of them with an RDC. -/
def published : State :=
  { busy with
    cstream := [0xB0000000]
    sched := [⟨.control, true⟩, ⟨.write, false⟩, ⟨.control, false⟩, ⟨.write, false⟩] }

/-- A read pointer one ahead, and an edge of each clock. -/
def readAhead : State :=
  { done5 with rpub := 3, remaining := 1, eaddr := 4, sched := [⟨.write, false⟩, ⟨.control, false⟩] }

/-- CrossingCatchesUp, publishing: as many edges as the pointer is ahead, among edges of the other clock. -/
theorem witness_publish :
    (writeAhead.Inv ∧ (∃ t, runsTo 3 writeAhead t) ∧ noResetIn 3 writeAhead = true ∧
      (∀ u ∈ visited 3 writeAhead, u.wptr = writeAhead.wptr) ∧
      small.diff writeAhead.wptr writeAhead.wpub = edgesIn .write 3 writeAhead) ∧
    (readAhead.Inv ∧ (∃ t, runsTo 2 readAhead t) ∧ noResetIn 2 readAhead = true ∧
      (∀ u ∈ visited 2 readAhead, u.rptr = readAhead.rptr) ∧
      small.diff readAhead.rptr readAhead.rpub = edgesIn .control 2 readAhead) :=
  ⟨⟨by decide, ⟨_, rfl⟩, by decide, by decide, by decide⟩, by decide, ⟨_, rfl⟩, by decide, by decide, by decide⟩

/-- CrossingCatchesUp, seeing: S_SYNC edges of each clock, interleaved, one of them with a command. -/
theorem witness_catch_up :
    published.Inv ∧ (∃ t, runsTo 4 published t) ∧ noResetIn 4 published = true ∧
      (∀ u ∈ visited 4 published, u.wptr = published.wptr) ∧ (∀ u ∈ visited 4 published, u.rptr = published.rptr) ∧
      (published.wpub = published.wptr ∧ small.sSync = edgesIn .control 4 published) ∧
      (published.rpub = published.rptr ∧ small.sSync = edgesIn .write 4 published) :=
  ⟨by decide, ⟨_, rfl⟩, by decide, by decide, by decide, by decide, by decide⟩

/-- CrunIsTheContiguousRun: a full buffer, and one that is not. -/
theorem witness_crun : 2 < small.M ∧ 10 < small.M ∧ small.diff 10 2 ≤ small.N ∧ small.diff 9 6 ≠ small.N := by decide

/-- StepRunsTheDecodedCommand. -/
theorem witness_command :
    let s := edgeOf fresh .control true [0x90000000, 4]
    s.nextEdge = ⟨.control, true⟩ ∧ decode .control (s.words .control) = .command (.start 4) 2 := by decide

/-- StepWithoutCommandIsAPlainEdge: an edge without a command, and one with an empty stream. -/
theorem witness_plain_edge :
    (edgeOf fresh .write false [0]).nextEdge = ⟨.write, false⟩ ∧
      (edgeOf fresh .control true []).nextEdge = ⟨.control, true⟩ ∧
      (edgeOf fresh .control true []).words .control = [] := by decide

/-- IllegalWordOnTheWritePort, and the ends of the ranges it names. -/
theorem witness_illegal_write :
    let s := edgeOf fresh .write true [0xFFFFFFFF, 0]
    s.nextEdge = ⟨.write, true⟩ ∧ s.words .write = [0xFFFFFFFF, 0] ∧ illegalOn .write 0xFFFFFFFF ∧
      0x8 ≤ (0x80000000 : Word).toNat / 2 ^ 28 ∧ 0x30000005 ≤ (0x3000000F : Word).toNat ∧
      (0x1FFFFFFF : Word).toNat / 2 ^ 28 = 0x1 :=
  ⟨by decide, by decide, ⟨.reservedOpcode, by decide⟩, by decide, by decide, by decide⟩

/-- IllegalWordOnTheControlPort, and the ends of the ranges it names. -/
theorem witness_illegal_control :
    let s := edgeOf fresh .control true [0x10000002, 5]
    s.nextEdge = ⟨.control, true⟩ ∧ s.words .control = [0x10000002, 5] ∧ illegalOn .control 0x10000002 ∧
      0x90000000 < (0x90000001 : Word).toNat ∧ (0x9FFFFFFF : Word).toNat ≤ 0x9FFFFFFF ∧
      0xB000000E ≤ (0xB000000E : Word).toNat :=
  ⟨by decide, by decide, ⟨.wrongPort, by decide⟩, by decide, by decide, by decide⟩

/-- FeedStoresOrRefuses: the fill of an empty buffer, and one sample more. -/
theorem witness_feed :
    ([1, 2, 3, 4, 5, 6, 7, 8] : List Word).length = (8 : BitVec 28).toNat ∧ (8 : BitVec 28).toNat ≤ fresh.freeW ∧
      ([1, 2, 3, 4, 5, 6, 7, 8, 9] : List Word).length = (9 : BitVec 28).toNat ∧ ¬(9 : BitVec 28).toNat ≤ fresh.freeW := by
  decide

/-- FeedLargerThanTheBufferIsRefused, and the FEED after a STOP (StopResetsAndKeepsTheTimer). -/
theorem witness_feed_larger : fresh.cfg.N < (9 : BitVec 28).toNat ∧ (8 : BitVec 28).toNat ≤ busy.cfg.N := by decide

/-- MalformedFeedIsRefused. -/
theorem witness_malformed : ([1] : List Word).length ≠ (0 : BitVec 28).toNat := by decide

/-- RdwRespondsItsRegister: registers at the ends of their widths. -/
theorem witness_fits : State.fits { fresh with wptr := 15, wpub := 15, rsync := [8, 8] } ∧ fresh.fits := by decide

/-- The opcodes' illegal words (NOP, RDFREE, RDW, INIT, START, STOP, RDC): one of each, with its opcode. -/
theorem witness_opcode_words :
    ([0x00000001, 0x20000001, 0x30000005, 0x80000001, 0x90000001, 0xA0000001, 0xB000000E] : List Word).map
      (fun w => w.toNat / 2 ^ 28) = [0x0, 0x2, 0x3, 0x8, 0x9, 0xA, 0xB] := by decide

/-- RdcRespondsItsRegister, ArmedChunkIsBounded (a chunk is armed, and none is). -/
theorem witness_complete :
    done4.action = .complete ∧ 0 < done4.readEdge.pending ∧ done5.action = .complete ∧ done5.readEdge.pending = 0 := by
  decide

/-- StartProgramsOrRefusesZero: the least and the greatest frequency. -/
theorem witness_frequency : (1 : Word) ≠ 0 ∧ (0xFFFFFFFF : Word) ≠ 0 := by decide

/-- EveryCommandRespondsOnce: a step that consumes a command, one an illegal word, one nothing. -/
theorem witness_responds :
    (∃ t, step (edgeOf fresh .write true [0x20000000]) = .next t) ∧
      (edgeOf fresh .write true [0x20000000]).fetch ⟨.write, true⟩ = .command .rdfree 1 ∧
      (∃ t, step (edgeOf fresh .control true [1]) = .next t) ∧
      (edgeOf fresh .control true [1]).fetch ⟨.control, true⟩ = .illegal 1 .reservedField ∧
      (∃ t, step (edgeOf fresh .control false [1]) = .next t) ∧
      (edgeOf fresh .control false [1]).fetch ⟨.control, false⟩ = .empty :=
  ⟨⟨_, rfl⟩, by decide, ⟨_, rfl⟩, by decide, ⟨_, rfl⟩, by decide⟩

/-- ControllerTransitionTable, one state for each clause. -/
theorem witness_transitions :
    (fresh.ctrl = .idle ∧ fresh.occR = 0) ∧ (seen.ctrl = .idle ∧ 0 < seen.occR) ∧ kicked.ctrl = .kicked ∧
      (({ busy with tpre := false } : State).ctrl = .busy ∧ ({ busy with tpre := false } : State).trig = false ∧
        State.Inv { busy with tpre := false }) ∧
      (busy.ctrl = .busy ∧ busy.trig = true ∧ 1 < busy.remaining) ∧
      (last.ctrl = .busy ∧ last.trig = true ∧ last.remaining = 1) ∧
      (done4.ctrl = .done ∧ 0 < min (small.crun ((done4.rptr + done4.pending) % small.M) done4.wptrR) small.maxChunk) ∧
      (done5.ctrl = .done ∧ min (small.crun ((done5.rptr + done5.pending) % small.M) done5.wptrR) small.maxChunk = 0) := by
  decide

/-- ControllerTransitionTable: the three resets answer a next state. -/
theorem witness_resets :
    (∃ t, exec .stop busy = .next t) ∧ (∃ t, exec .init busy = .next t) ∧ ∃ t, exec (.start 1) busy = .next t :=
  ⟨⟨_, rfl⟩, ⟨_, rfl⟩, ⟨_, rfl⟩⟩

/-- AtMostOneControllerAction: its last clause. -/
theorem witness_inactive : fresh.Inv ∧ fresh.active = false := by decide

/-- CompletionIsTakenOnce. -/
theorem witness_completion : done4.cmplSig = true ∧ kicked.cmplSig = true := by decide

/-- UnderrunHoldsTheConverter: a trigger with nothing to move (95_test_vectors.md T-12). -/
theorem witness_underrun :
    seen.remaining = 0 ∧ seen.trig = true ∧ kicked.ctrl = .kicked ∧ done4.ctrl = .done ∧ fresh.trun = false := by decide

/-- StoppedTimerHoldsTheChunk. -/
theorem witness_stopped :
    State.Inv { busy with trun := false } ∧ ({ busy with trun := false } : State).ctrl = .busy := by decide

/-- DividerIsTheFloorOfTheHalfQuotient: a frequency above the clock, and a quotient of 1. -/
theorem witness_divider : 1 ≤ 5 ∧ small.cpuHz < 5 ∧ 1 ≤ 3 ∧ small.cpuHz / 3 = 1 := by decide

/-- TriggerPeriod: a START and an INIT. -/
theorem witness_period :
    (∃ t, exec (.start 4) fresh = .next t ∧ 0 = fresh.cfg.cpuHz / (4 : Word).toNat / 2) ∧
      ∃ t, exec .init fresh = .next t ∧ 2 = fresh.cfg.cpuHz / fresh.cfg.initFreqHz / 2 :=
  ⟨⟨_, rfl, by decide⟩, ⟨_, rfl, by decide⟩⟩

/-- NextSampleLeavesWithinATimerPeriod: the counter at the comparator, and past it. -/
theorem witness_next_sample :
    busy.trun = true ∧ 0 < busy.remaining ∧ busy.tcnt.toNat ≤ busy.tmrB.toNat ∧ busy.tmrA.toNat ≤ busy.tmrB.toNat ∧
      ({ busy with tcnt := 1 } : State).tcnt.toNat ≤ busy.tmrB.toNat := by decide

/-- EveryStepKeepsTheInvariant, OnlyTheListedWritersWrite, ErrorFlagsAreSticky, FaultLogRecordsEveryFault: a step that raises
a fault with the flag set before it, and one that changes registers. -/
theorem witness_step :
    (∃ s t, State.Inv s ∧ step s = .next t ∧ s.cerrFreq = true ∧ t.flog ≠ s.flog) ∧
      ∃ s t, State.Inv s ∧ step s = .next t ∧ t.wptr ≠ s.wptr ∧ ¬s.SameMem t :=
  ⟨⟨{ edgeOf busy .control true [0x90000000, 0] with cerrFreq := true }, _, by decide, rfl, rfl, by decide⟩,
    ⟨edgeOf { fresh with mem := [(0, 9)] } .write true [0x10000001, 1], _, by decide, rfl, by decide,
      fun h => absurd (h 0) (by decide)⟩⟩

/-- ReachableStatesMeetTheRegisterInvariants, LogsOnlyGrow, LogsInfluenceNothing: a run of two steps. -/
theorem witness_run :
    ∃ r s, State.poweredOn r ∧ runsTo 2 r s ∧ s.wresp = [1] :=
  ⟨{ fresh with wstream := [0x10000001, 7], sched := [⟨.write, true⟩, ⟨.control, false⟩] }, _,
    ⟨small, [0x10000001, 7], [], [⟨.write, true⟩, ⟨.control, false⟩], rfl⟩, rfl, rfl⟩

/-- InitdInfluencesNothing: a step that is no STATUS readback. -/
theorem witness_initd :
    ∃ s t, step s = .next t ∧ ∀ n, s.fetch s.nextEdge ≠ .command (.rdc .status) n :=
  ⟨edgeOf fresh .control true [0x80000000], _, rfl, fun n h => by cases h⟩

/-- ResetDiscardsTheUnsentSamples, and the second start of OutputIsAPrefixOfTheAcceptedPayloads. -/
theorem witness_reset :
    ∃ s t, State.Inv s ∧ step s = .next t ∧ s.resets = true ∧ s.unsent = [3, 4, 5] :=
  ⟨edgeOf busy .control true [0xA0000000], _, by decide, rfl, by decide, by decide⟩

/-- FeedNeverOverwritesAnUnsentSample: a FEED that fills the buffer, its last index and the last unsent sample. -/
theorem witness_overwrite :
    busy.Inv ∧ (∃ t, exec (.feed 3 [7, 8, 9]) busy = .next t ∧ t.freeTrue = 0) ∧ (3 : BitVec 28).toNat ≤ busy.freeW ∧
      2 < (3 : BitVec 28).toNat ∧ 4 < busy.occupied :=
  ⟨by decide, ⟨_, rfl, by decide⟩, by decide, by decide, by decide⟩

/-- A START, a FEED of one sample, and the edges that play it and let the crossing settle. -/
def played : State :=
  { fresh with
    wstream := [0x10000001, 7]
    cstream := [0x90000000, 4]
    sched :=
      [⟨.control, true⟩, ⟨.write, true⟩, ⟨.write, false⟩, ⟨.control, false⟩, ⟨.control, false⟩, ⟨.control, false⟩,
        ⟨.control, false⟩, ⟨.control, false⟩, ⟨.control, false⟩, ⟨.control, false⟩, ⟨.control, false⟩, ⟨.write, false⟩,
        ⟨.write, false⟩] }

/-- OutputIsAPrefixOfTheAcceptedPayloads: a run from power-on, and one from a datapath reset that accepts a payload and is
over at its end. -/
theorem witness_fifo :
    (∃ s t, State.poweredOn s ∧ runsTo 1 s t ∧ noResetIn 1 s = true ∧ acceptedIn 1 s = [7]) ∧
    ∃ s t, (∃ j r q, State.poweredOn r ∧ runsTo j r q ∧ q.resets = true ∧ step q = .next s) ∧ runsTo 12 s t ∧
      noResetIn 12 s = true ∧ acceptedIn 12 s = [7] ∧ t.over :=
  ⟨⟨{ fresh with wstream := [0x10000001, 7], sched := [⟨.write, true⟩] }, _,
      ⟨small, [0x10000001, 7], [], [⟨.write, true⟩], rfl⟩, rfl, by decide, by decide⟩,
    after (step played), after (Host.Core.run core 12 (after (step played))),
    ⟨0, played, played, ⟨small, [0x10000001, 7], [0x90000000, 4], played.sched, rfl⟩, rfl, by decide, rfl⟩, rfl, by decide,
    by decide, by decide⟩

/-- QuiescentEdgesMoveTheTimerOnly: the end of program P1. -/
theorem witness_quiescent :
    let s : State := { fresh with wptr := 5, wpub := 5, rptr := 5, rpub := 5, rsync := [7, 7], wsync := [7, 7], eaddr := 5 }
    s.Inv ∧ s.quiescent ∧ ({ s with trun := true, tmrB := 1 } : State).quiescent := by decide

end Sys2Proof.Tests
end

section
/-! The configuration and the step of the decoded command. -/

namespace Sys2Proof

/-! ## Building a configuration (00_scope.md R6) -/

/-- A list of parameters is illegal exactly where one of them is out of its range. -/
theorem not_paramsLegal_iff (A W maxChunk sSync cpuHz initFreqHz : Nat) :
    ¬ParamsLegal A W maxChunk sSync cpuHz initFreqHz ↔
      (A < 1 ∨ 27 < A ∨ W < 1 ∨ 32 < W ∨ maxChunk < 1 ∨ 2 ^ A < maxChunk ∨ sSync < 2 ∨ cpuHz < 1 ∨
        2 ^ 32 - 1 < cpuHz ∨ initFreqHz < 1 ∨ 2 ^ 32 - 1 < initFreqHz) := by
  unfold ParamsLegal
  omega

theorem Config.ofParams_eq_none_iff (A W maxChunk sSync cpuHz initFreqHz : Nat) :
    Config.ofParams A W maxChunk sSync cpuHz initFreqHz = none ↔ ¬ParamsLegal A W maxChunk sSync cpuHz initFreqHz := by
  unfold Config.ofParams
  split <;> simp [*]

/-- A configuration that is built carries the parameters it was built from. -/
theorem Config.fields_of_ofParams_eq_some {A W maxChunk sSync cpuHz initFreqHz : Nat} {c : Config}
    (h : Config.ofParams A W maxChunk sSync cpuHz initFreqHz = some c) :
    c.A = A ∧ c.W = W ∧ c.maxChunk = maxChunk ∧ c.sSync = sSync ∧ c.cpuHz = cpuHz ∧ c.initFreqHz = initFreqHz := by
  unfold Config.ofParams at h
  split at h
  · cases h
    exact ⟨rfl, rfl, rfl, rfl, rfl, rfl⟩
  · cases h

/-- Settles O10: the refusals are the negated constraints, and what is built has the fields asked for, from which N, P and M
follow (00_scope.md R7). -/
theorem illegalParametersAreRefused : Obligations.IllegalParametersAreRefused := by
  intro A W maxChunk sSync cpuHz initFreqHz
  refine ⟨(Config.ofParams_eq_none_iff ..).trans (not_paramsLegal_iff ..), fun c hc => ?_⟩
  obtain ⟨hA, hW, hChunk, hSync, hCpu, hInit⟩ := Config.fields_of_ofParams_eq_some hc
  exact ⟨hA, hW, hChunk, hSync, hCpu, hInit, congrArg (2 ^ ·) hA, congrArg (· + 1) hA, c.M_eq⟩

namespace Machine

/-! ## The step of a command (10_state.md R48) -/

/-- An edge that consumes a command fetches what the decoder reads on its port. -/
theorem State.fetch_consuming (s : State) (p : Port) : s.fetch ⟨p, true⟩ = decode p (s.words p) := rfl

/-- The step of a fetched command is the command's meaning, past the command's words. -/
theorem step_of_fetch_command {s : State} {i : Instr} {n : Nat} (h : s.fetch s.nextEdge = .command i n) :
    step s = exec i (s.moved s.nextEdge.port n) := by
  rw [← consume_takeEdge]
  simp only [step, h]

/-- Settles O22: the edge fetches the decoded command, and the step of a fetched command is its meaning. -/
theorem stepRunsTheDecodedCommand : Obligations.StepRunsTheDecodedCommand := by
  intro s p i n he hd
  have hf : s.fetch s.nextEdge = .command i n := by rw [he, State.fetch_consuming, hd]
  have hp : s.nextEdge.port = p := by rw [he]
  rw [step_of_fetch_command hf, hp]

end Machine

end Sys2Proof
end

section
/-! The ring of pointers (10_state.md R50 (e)): distances add modulo M, so a walk that visits fewer pointers is no longer,
and a chain shift, a published step and an advance within the walk keep it within its bound. -/

namespace Sys2Proof

variable (c : Config)

/-! ## Distances -/

/-- The distance over an intermediate pointer, modulo M (00_scope.md R9). -/
theorem Config.diff_eq_add_mod (a b d : Nat) : c.diff a d = (c.diff a b + c.diff b d) % c.M := by
  have h (x y : Nat) : c.diff x y + y ≡ x [MOD c.M] := by
    have hy : y % c.M ≤ c.M := (Nat.mod_lt y c.M_pos).le
    have hs : x + (c.M - y % c.M) + y = x + c.M * (y / c.M + 1) := by
      have := Nat.mod_add_div y c.M
      rw [Nat.mul_add]; omega
    calc c.diff x y + y ≡ x + (c.M - y % c.M) + y [MOD c.M] := (Nat.mod_modEq _ _).add_right y
      _ = x + c.M * (y / c.M + 1) := hs
      _ ≡ x [MOD c.M] := Nat.add_mul_mod_self_left _ _ _
  have hsum : c.diff a d ≡ c.diff a b + c.diff b d [MOD c.M] := Nat.ModEq.add_right_cancel' d <|
    calc c.diff a d + d ≡ a [MOD c.M] := h a d
      _ ≡ c.diff a b + b [MOD c.M] := (h a b).symm
      _ ≡ c.diff a b + (c.diff b d + d) [MOD c.M] := (h b d).symm.add_left _
      _ = c.diff a b + c.diff b d + d := (Nat.add_assoc ..).symm
  rw [← hsum, Nat.mod_eq_of_lt (c.diff_lt a d)]

/-- A detour is no shorter than the way. -/
theorem Config.diff_le_add (a b d : Nat) : c.diff a d ≤ c.diff a b + c.diff b d := by
  rw [c.diff_eq_add_mod a b d]
  exact Nat.mod_le _ _

theorem Config.padd_eq {a k : Nat} (ha : a < c.M) (hk : k ≤ c.M) :
    c.padd a k = if a + k < c.M then a + k else a + k - c.M := by
  unfold Config.padd
  split
  · exact Nat.mod_eq_of_lt ‹_›
  · rw [Nat.mod_eq_sub_mod (by omega), Nat.mod_eq_of_lt (by omega)]

/-- A pointer advanced by `k` is at most `k` further from any other. -/
theorem Config.diff_padd_le {a k : Nat} (b : Nat) (ha : a < c.M) (hk : k < c.M) :
    c.diff (c.padd a k) b ≤ c.diff a b + k := by
  have hstep : c.diff (c.padd a k) a = k := by
    rw [c.diff_eq _ _ (c.padd_lt ..) ha, c.padd_eq ha hk.le]
    split <;> split <;> omega
  have := c.diff_le_add (c.padd a k) a b
  omega

/-- A pointer advanced by `k`, but not past another, is `k` nearer to it. -/
theorem Config.diff_padd_right {w a k : Nat} (hw : w < c.M) (ha : a < c.M) (hk : k ≤ c.diff w a) :
    c.diff w (c.padd a k) = c.diff w a - k := by
  have hM : k < c.M := hk.trans_lt (c.diff_lt w a)
  rw [c.diff_eq _ _ hw ha] at hk ⊢
  rw [c.diff_eq _ _ hw (c.padd_lt ..), c.padd_eq ha hM.le]
  split at hk <;> split <;> split <;> omega

/-- Advancing a pointer moves its index alike, since N divides M. -/
theorem Config.idx_padd (a k : Nat) : c.idx (c.padd a k) = c.idx (a + k) :=
  Nat.mod_mod_of_dvd _ (Dvd.intro_left 2 c.M_eq.symm)

/-- The readable run is data the view shows (40_buffer.md R124). -/
theorem Config.crun_le_diff {r w : Nat} (hr : r < c.M) (hw : w < c.M) : c.crun r w ≤ c.diff w r := by
  have hM := c.M_eq
  have hidx (p : Nat) (hp : p < c.M) : c.idx p = if p < c.N then p else p - c.N := by
    unfold Config.idx
    split
    · exact Nat.mod_eq_of_lt ‹_›
    · rw [Nat.mod_eq_sub_mod (by omega), Nat.mod_eq_of_lt (by omega)]
  rw [Config.crun, hidx r hr, hidx w hw, c.diff_eq _ _ hw hr]
  split_ifs <;> omega

/-- The readable run ends at the array end at the latest (40_buffer.md R124). -/
theorem Config.idx_add_crun_le (r w : Nat) : c.idx r + c.crun r w ≤ c.N := by
  have hr := c.idx_lt r
  have hw := c.idx_lt w
  unfold Config.crun
  split_ifs <;> omega

/-! ## Published pointers and chains -/

/-- A published pointer steps by 1 at most, toward its commit pointer. -/
theorem Config.publish_eq_padd {p q : Nat} (hp : p < c.M) (hq : q < c.M) :
    ∃ k ≤ c.diff q p, c.publish p q = c.padd p k := by
  unfold Config.publish
  split
  · refine ⟨1, ?_, rfl⟩
    rw [c.diff_eq q p hq hp]
    split <;> omega
  · exact ⟨0, Nat.zero_le _, (Nat.mod_eq_of_lt hp).symm⟩

theorem Config.publish_lt {p q : Nat} (hp : p < c.M) : c.publish p q < c.M := by
  unfold Config.publish
  split
  · exact c.padd_lt ..
  · exact hp

/-- The XOR of the shifts of a gray code telescopes. -/
theorem xorShifts_gray (k x : Nat) : xorShifts k (gray x) = x ^^^ x >>> k := by
  induction k generalizing x with
  | zero => simp [xorShifts]
  | succ k ih =>
    have hshift : gray x >>> 1 = gray (x >>> 1) := by simp [gray, Nat.shiftRight_xor_distrib]
    rw [xorShifts, hshift, ih, gray, ← Nat.shiftRight_add, Nat.add_comm 1 k]
    simp [Nat.xor_assoc]

/-- `bin` decodes the gray code of a pointer (41_cdc.md R141). -/
theorem Config.bin_gray {x : Nat} (hx : x < c.M) : c.bin (gray x) = x := by
  rw [Config.bin, xorShifts_gray, Nat.shiftRight_eq_zero x c.P hx, Nat.xor_zero]

/-- The pointers a chain carries, the last stage's, which is its view, first. -/
def Config.views (chain : List Nat) : List Nat := chain.reverse.map c.bin

theorem Config.views_eq_cons {chain : List Nat} (h : chain.length = c.sSync) :
    ∃ vs, c.views chain = c.bin (c.lastStage chain) :: vs := by
  have hpos : chain ≠ [] := List.ne_nil_of_length_pos (by have := c.sSync_ge; omega)
  have hlast : c.lastStage chain = chain.getLast hpos := by
    rw [Config.lastStage, ← h, List.getD_eq_getElem?_getD, ← List.getLast?_eq_getElem?, List.getLast?_eq_some_getLast hpos,
      Option.getD_some]
  rw [Config.views, ← List.cons_head_tail (List.reverse_ne_nil_iff.mpr hpos), List.head_reverse, ← hlast]
  exact ⟨_, rfl⟩

/-- A shift drops the oldest pointer of a chain and takes in the one published. -/
theorem Config.views_shiftIn {chain : List Nat} {x : Nat} (h : chain.length = c.sSync) (hx : x < c.M) :
    c.views (c.shiftIn (gray x) chain) = (c.views chain).tail ++ [x] := by
  have hpos : chain.reverse ≠ [] := List.ne_nil_of_length_pos (by have := c.sSync_ge; simp; omega)
  have htake : c.shiftIn (gray x) chain = (gray x :: chain).dropLast := by
    rw [Config.shiftIn, List.dropLast_eq_take, List.length_cons, h, Nat.add_sub_cancel]
  rw [Config.views, htake, ← List.tail_reverse, List.reverse_cons, List.tail_append_of_ne_nil hpos, List.map_append,
    List.map_tail, List.map_singleton, c.bin_gray hx, Config.views]

theorem Config.forall_mem_shiftIn {g : Nat} {chain : List Nat} (hg : g < c.M) (h : ∀ x ∈ chain, x < c.M) :
    ∀ x ∈ c.shiftIn g chain, x < c.M := by
  intro x hx
  rcases List.mem_cons.mp (List.mem_of_mem_take hx) with rfl | hx
  · exact hg
  · exact h x hx

theorem Config.lastStage_lt {chain : List Nat} (h : ∀ x ∈ chain, x < c.M) : c.lastStage chain < c.M := by
  rw [Config.lastStage, List.getD_eq_getElem?_getD]
  cases hc : chain[c.sSync - 1]? with
  | none => exact c.M_pos
  | some x => exact h x (List.mem_of_getElem? hc)

/-! ## Walks -/

/-- A walk that skips pointers is no longer. -/
theorem Config.walkFrom_sublist {ps qs : List Nat} (h : List.Sublist qs ps) (a : Nat) :
    c.walkFrom a qs ≤ c.walkFrom a ps := by
  induction h generalizing a with
  | slnil => exact le_rfl
  | @cons qs ps b _ ih =>
    have hskip : c.walkFrom a qs ≤ c.diff b a + c.walkFrom b qs := by
      cases qs with
      | nil => exact Nat.zero_le _
      | cons x xs =>
        have := c.diff_le_add x b a
        simp only [Config.walkFrom]; omega
    have := ih b
    simp only [Config.walkFrom]; omega
  | cons_cons b _ ih => exact Nat.add_le_add_left (ih b) _

/-- A walk's length is, modulo M, the distance to the pointer it ends at. -/
theorem Config.walkFrom_concat_mod (ps : List Nat) (a b : Nat) : c.walkFrom a (ps ++ [b]) % c.M = c.diff b a := by
  induction ps generalizing a with
  | nil => exact Nat.mod_eq_of_lt (c.diff_lt b a)
  | cons p ps ih =>
    rw [List.cons_append, Config.walkFrom, Nat.add_mod, ih, Nat.mod_eq_of_lt (c.diff_lt p a), Nat.add_comm,
      ← c.diff_eq_add_mod]

/-- A walk within one capacity is as long as the distance to the pointer it ends at. -/
theorem Config.walkFrom_concat_eq {ps : List Nat} {a b : Nat} (h : c.walkFrom a (ps ++ [b]) ≤ c.N) :
    c.walkFrom a (ps ++ [b]) = c.diff b a := by
  have := c.M_eq
  have := c.N_pos
  rw [← c.walkFrom_concat_mod ps a b, Nat.mod_eq_of_lt (by omega)]

/-- A walk bounds the walk from its first pointer on. -/
theorem Config.walkFrom_head_le {x : Nat} (hx : x < c.M) (a : Nat) (ps : List Nat) :
    c.walkFrom x (x :: ps) ≤ c.walkFrom a (x :: ps) := by
  simp only [Config.walkFrom, c.diff_self x hx]; omega

/-- Visiting the same pointer twice makes no walk longer. -/
theorem Config.walkFrom_dup {x : Nat} (hx : x < c.M) (a : Nat) (ps : List Nat) :
    c.walkFrom a (x :: x :: ps) = c.walkFrom a (x :: ps) := by
  simp only [Config.walkFrom, c.diff_self x hx, Nat.zero_add]

/-- Advancing a visited pointer, but not past the next one, makes no walk longer. -/
theorem Config.walkFrom_padd_le {p w k : Nat} (hp : p < c.M) (hw : w < c.M) (hk : k ≤ c.diff w p) (a : Nat)
    (ps : List Nat) : c.walkFrom a (c.padd p k :: w :: ps) ≤ c.walkFrom a (p :: w :: ps) := by
  have hadv := c.diff_padd_le a hp (hk.trans_lt (c.diff_lt w p))
  simp only [Config.walkFrom, c.diff_padd_right hw hp hk]
  omega

/-- A published step makes no walk longer. -/
theorem Config.walkFrom_publish_le {p q : Nat} (hp : p < c.M) (hq : q < c.M) (a : Nat) (ps : List Nat) :
    c.walkFrom a (c.publish p q :: q :: ps) ≤ c.walkFrom a (p :: q :: ps) := by
  obtain ⟨k, hk, he⟩ := c.publish_eq_padd hp hq
  rw [he]
  exact c.walkFrom_padd_le hp hq hk a ps

/-- A walk changes by no more than its tail does. -/
theorem Config.walkFrom_append_le {qs ps : List Nat} {n : Nat} (h : ∀ b, c.walkFrom b qs ≤ c.walkFrom b ps + n)
    (a : Nat) (xs : List Nat) : c.walkFrom a (xs ++ qs) ≤ c.walkFrom a (xs ++ ps) + n := by
  induction xs generalizing a with
  | nil => exact h a
  | cons x xs ih =>
    have := ih x
    simp only [List.cons_append, Config.walkFrom]; omega

end Sys2Proof
end

section
/-! The ring through the chains and the commit pointers of a state. -/

namespace Sys2Proof

variable (c : Config)

/-- A walk from the view of a chain is the shortest to its pointers. -/
theorem Config.walkFrom_view_le {chain : List Nat} (hlen : chain.length = c.sSync) (hlt : ∀ g ∈ chain, g < c.M) (a : Nat)
    (ps : List Nat) :
    c.walkFrom (c.bin (c.lastStage chain)) (c.views chain ++ ps) ≤ c.walkFrom a (c.views chain ++ ps) := by
  obtain ⟨vs, hvs⟩ := c.views_eq_cons hlen
  rw [hvs]
  exact c.walkFrom_head_le (c.bin_lt _ (c.lastStage_lt hlt)) a _

/-- A chain shift makes no walk through the chain to the pointer it samples longer. -/
theorem Config.walkFrom_shiftIn_le {chain : List Nat} {x : Nat} (hlen : chain.length = c.sSync) (hx : x < c.M) (a : Nat)
    (ps : List Nat) :
    c.walkFrom a (c.views (c.shiftIn (gray x) chain) ++ x :: ps) ≤ c.walkFrom a (c.views chain ++ x :: ps) := by
  rw [c.views_shiftIn hlen hx, List.append_assoc]
  calc c.walkFrom a ((c.views chain).tail ++ x :: x :: ps)
      ≤ c.walkFrom a ((c.views chain).tail ++ x :: ps) :=
        c.walkFrom_append_le (n := 0) (fun b => (c.walkFrom_dup hx b ps).le) a _
    _ ≤ c.walkFrom a (c.views chain ++ x :: ps) :=
        c.walkFrom_sublist ((List.tail_sublist _).append_right _) a

namespace Machine

variable {s : State}

theorem State.ring_eq (s : State) :
    s.ring = s.cfg.views s.rsync ++ s.rpub :: s.rptr :: (s.cfg.views s.wsync ++ [s.wpub, s.wptr]) := by
  simp [State.ring, Config.views]

/-- The ring is as long as the distance from the write domain's view of the read pointer to the write pointer. -/
theorem walk_ring_eq (h : s.ringOk) : s.cfg.walkFrom s.rptrW s.ring = s.cfg.diff s.wptr s.rptrW := by
  have he : s.ring = s.rsync.reverse.map s.cfg.bin ++ [s.rpub, s.rptr] ++ s.wsync.reverse.map s.cfg.bin ++ [s.wpub] ++
      [s.wptr] := by simp [State.ring]
  unfold State.ringOk at h
  rw [he] at h ⊢
  exact s.cfg.walkFrom_concat_eq h

theorem State.wptrR_lt (h : s.fits) : s.wptrR < s.cfg.M := by
  obtain ⟨-, -, -, -, -, -, -, hws, -⟩ := h
  exact s.cfg.bin_lt _ (s.cfg.lastStage_lt hws)

/-- The ring visits the six pointers of 10_state.md R50 (e) in its order. -/
theorem ring_visits (h : s.fits) :
    List.Sublist [s.rptrW, s.rpub, s.rptr, s.wptrR, s.wpub, s.wptr] s.ring := by
  obtain ⟨-, -, -, -, hrl, -, hwl, -⟩ := h
  obtain ⟨rs, hrs⟩ := s.cfg.views_eq_cons hrl
  obtain ⟨ws, hws⟩ := s.cfg.views_eq_cons hwl
  rw [s.ring_eq, hrs, hws]
  exact ((List.nil_sublist rs).cons_cons s.rptrW).append
    (.cons_cons _ (.cons_cons _ (((List.nil_sublist ws).cons_cons s.wptrR).append (List.Sublist.refl _))))

/-- The six pointers lie in ring order within one capacity (10_state.md R50 (e)). -/
theorem six_pointers_in_order (hf : s.fits) (hr : s.ringOk) :
    s.cfg.diff s.rpub s.rptrW + s.cfg.diff s.rptr s.rpub + s.cfg.diff s.wptrR s.rptr + s.cfg.diff s.wpub s.wptrR +
        s.cfg.diff s.wptr s.wpub = s.cfg.diff s.wptr s.rptrW ∧
      s.cfg.diff s.wptr s.rptrW ≤ s.cfg.N := by
  have hsub := (s.cfg.walkFrom_sublist ((List.Sublist.refl _).cons _ |>.trans (ring_visits hf)) s.rptrW).trans hr
  have heq := s.cfg.walkFrom_concat_eq (ps := [s.rpub, s.rptr, s.wptrR, s.wpub]) hsub
  simp only [List.cons_append, List.nil_append, Config.walkFrom] at hsub heq
  omega

end Machine

end Sys2Proof
end

section
/-! The invariant is kept by each operation of an edge. -/

namespace Sys2Proof.Machine

variable {s : State}

/-! ## The write edge and FEED -/

/-- A write edge makes the ring no longer: the read pointer's view moves forward. -/
theorem writeEdge_walk_le (h : s.fits) :
    s.cfg.walkFrom s.writeEdge.rptrW s.writeEdge.ring ≤ s.cfg.walkFrom s.rptrW s.ring := by
  obtain ⟨hwptr, hwpub, -, hrpub, hrl, hrs, -⟩ := h
  have hgray : gray s.rpub < s.cfg.M := gray_lt _ _ hrpub
  calc s.cfg.walkFrom s.writeEdge.rptrW s.writeEdge.ring
      ≤ s.cfg.walkFrom s.rptrW s.writeEdge.ring := by
        rw [State.ring_eq]
        exact s.cfg.walkFrom_view_le (s.cfg.length_shiftIn _ _ hrl) (s.cfg.forall_mem_shiftIn hgray hrs) _ _
    _ ≤ s.cfg.walkFrom s.rptrW (s.cfg.views s.rsync ++ s.rpub :: s.rptr :: (s.cfg.views s.wsync ++
          [s.cfg.publish s.wpub s.wptr, s.wptr])) := by
        rw [State.ring_eq]
        exact s.cfg.walkFrom_shiftIn_le hrl hrpub _ _
    _ ≤ s.cfg.walkFrom s.rptrW s.ring := by
        have he (x : Nat) : s.cfg.views s.rsync ++ s.rpub :: s.rptr :: (s.cfg.views s.wsync ++ [x, s.wptr]) =
            (s.cfg.views s.rsync ++ s.rpub :: s.rptr :: s.cfg.views s.wsync) ++ [x, s.wptr] := by simp
        rw [State.ring_eq, he, he]
        exact s.cfg.walkFrom_append_le (n := 0) (fun b => s.cfg.walkFrom_publish_le hwpub hwptr b []) _ _

theorem inv_writeEdge (h : s.Inv) : s.writeEdge.Inv := by
  obtain ⟨hf, hmem, hstr, hctrl, hring⟩ := h
  have hwalk := writeEdge_walk_le hf
  obtain ⟨hwptr, hwpub, hrptr, hrpub, hrl, hrs, hrest⟩ := hf
  have hgray : gray s.rpub < s.cfg.M := gray_lt _ _ hrpub
  exact ⟨⟨hwptr, s.cfg.publish_lt hwpub, hrptr, hrpub, s.cfg.length_shiftIn _ _ hrl,
    s.cfg.forall_mem_shiftIn hgray hrs, hrest⟩, hmem, hstr, hctrl, hwalk.trans hring⟩

/-- A write edge takes no free capacity from the write domain's view. -/
theorem freeW_le_writeEdge (h : s.Inv) : s.freeW ≤ s.writeEdge.freeW := by
  obtain ⟨-, -, -, -, hring'⟩ := inv_writeEdge h
  obtain ⟨hf, -, -, -, hring⟩ := h
  have hwalk := writeEdge_walk_le hf
  have he := walk_ring_eq hring
  have he' := walk_ring_eq hring'
  simp only [State.freeW, State.writeEdge_cfg, State.writeEdge_wptr] at he' ⊢
  omega

/-- BUF_WRITE of samples that fit in the write domain's view of the free capacity (40_buffer.md R123). -/
theorem inv_bufWrite {xs : List Sample} (h : s.Inv) (hlen : xs.length ≤ s.freeW)
    (hxs : ∀ v ∈ xs, s.cfg.isSample v = true) : (s.bufWrite xs).Inv := by
  obtain ⟨⟨hwptr, hrest⟩, ⟨hwf, hall⟩, hstr, hctrl, hring⟩ := h
  have hpos := s.cfg.N_pos
  have hM := s.cfg.M_eq
  unfold State.freeW at hlen
  refine ⟨⟨s.cfg.padd_lt .., hrest⟩, ⟨writeSamples_wf _ _ _ _ hwf, List.all_eq_true.mpr fun e he => ?_⟩, hstr, hctrl, ?_⟩
  · rcases mem_writeSamples _ _ _ _ _ he with he | ⟨hidx, he⟩
    · exact List.all_eq_true.mp hall e he
    · exact Bool.and_eq_true_iff.mpr ⟨decide_eq_true hidx, hxs _ he⟩
  · have hlast (b : Nat) : s.cfg.walkFrom b [s.cfg.padd s.wptr xs.length] ≤ s.cfg.walkFrom b [s.wptr] + xs.length :=
      s.cfg.diff_padd_le b hwptr (by omega)
    have he (x : Nat) : s.cfg.views s.rsync ++ s.rpub :: s.rptr :: (s.cfg.views s.wsync ++ [s.wpub, x]) =
        (s.cfg.views s.rsync ++ s.rpub :: s.rptr :: (s.cfg.views s.wsync ++ [s.wpub])) ++ [x] := by simp
    have hwalk : s.cfg.walkFrom s.rptrW (s.bufWrite xs).ring ≤ s.cfg.walkFrom s.rptrW s.ring + xs.length := by
      rw [State.ring_eq, State.ring_eq, he]
      exact (congrArg _ (he _)).le.trans (s.cfg.walkFrom_append_le hlast s.rptrW _)
    have hring' := walk_ring_eq hring
    change s.cfg.walkFrom s.rptrW s.ring ≤ s.cfg.N at hring
    change s.cfg.walkFrom s.rptrW (s.bufWrite xs).ring ≤ s.cfg.N
    omega

/-! ## The normal read edge -/

theorem inv_timerTick (h : s.Inv) : s.timerTick.Inv := h

/-- The read domain's view of the data does not shrink at a crossing. -/
theorem occR_le_readCrossing (hf : s.fits) (hr : s.ringOk) : s.occR ≤ s.readCrossing.occR := by
  obtain ⟨-, hwpub, -, -, -, -, hwl, -⟩ := hf
  obtain ⟨vs, hvs⟩ := s.cfg.views_eq_cons hwl
  obtain ⟨vs', hvs'⟩ := s.cfg.views_eq_cons (s.cfg.length_shiftIn (gray s.wpub) _ hwl)
  have hsplit : s.ring =
      s.cfg.views s.rsync ++ s.rpub :: s.rptr :: s.wptrR :: s.readCrossing.wptrR :: (vs' ++ [s.wptr]) := by
    have htail : vs ++ [s.wpub] = s.readCrossing.wptrR :: vs' := by
      rw [← List.tail_cons (a := s.wptrR) (as := vs)]
      exact (hvs ▸ s.cfg.views_shiftIn hwl hwpub).symm.trans hvs'
    have hlist : vs ++ [s.wpub, s.wptr] = vs ++ [s.wpub] ++ [s.wptr] := by simp
    rw [s.ring_eq, hvs, List.cons_append, hlist, htail]
    rfl
  have hsub : List.Sublist [s.rptr, s.wptrR, s.readCrossing.wptrR] s.ring := by
    rw [hsplit]
    exact List.sublist_append_of_sublist_right
      (.cons _ (.cons_cons _ (.cons_cons _ (.cons_cons _ (List.nil_sublist _)))))
  have hwalk := (s.cfg.walkFrom_sublist hsub s.rptrW).trans hr
  have hfrom : s.cfg.walkFrom s.rptr ([s.wptrR] ++ [s.readCrossing.wptrR]) ≤ s.cfg.N := (Nat.le_add_left _ _).trans hwalk
  have heq := s.cfg.walkFrom_concat_eq hfrom
  simp only [List.cons_append, List.nil_append, Config.walkFrom] at heq
  simp only [State.occR, State.readCrossing_cfg, State.readCrossing_rptr]
  omega

theorem inv_readCrossing (h : s.Inv) : s.readCrossing.Inv := by
  obtain ⟨hf, hmem, hstr, hctrl, hring⟩ := h
  have hocc := occR_le_readCrossing hf hring
  obtain ⟨hwptr, hwpub, hrptr, hrpub, hrl, hrs, hwl, hws, hrest⟩ := hf
  obtain ⟨hen, hidle, hrem, hmax, headdr, harray, hseen, hkick⟩ := hctrl
  have hgray : gray s.wpub < s.cfg.M := gray_lt _ _ hwpub
  refine ⟨⟨hwptr, hwpub, hrptr, s.cfg.publish_lt hrpub, hrl, hrs, s.cfg.length_shiftIn _ _ hwl,
    s.cfg.forall_mem_shiftIn hgray hws, hrest⟩, hmem, hstr,
    ⟨hen, hidle, hrem, hmax, headdr, harray, hseen.trans hocc, fun ha hp => (hkick ha hp).trans_le hocc⟩, ?_⟩
  calc s.cfg.walkFrom s.rptrW s.readCrossing.ring
      ≤ s.cfg.walkFrom s.rptrW (s.cfg.views s.rsync ++ s.cfg.publish s.rpub s.rptr :: s.rptr ::
          (s.cfg.views s.wsync ++ [s.wpub, s.wptr])) := by
        rw [State.ring_eq]
        exact s.cfg.walkFrom_append_le (n := 0) (fun b => s.cfg.walkFrom_append_le (n := 0)
          (fun b => s.cfg.walkFrom_shiftIn_le hwl hwpub b [s.wptr]) b [s.cfg.publish s.rpub s.rptr, s.rptr]) _ _
    _ ≤ s.cfg.walkFrom s.rptrW s.ring := by
        rw [s.ring_eq]
        exact s.cfg.walkFrom_append_le (n := 0) (fun b => s.cfg.walkFrom_publish_le hrpub hrptr b _) _ _
    _ ≤ s.cfg.N := hring

/-! ## The controller's actions -/

theorem inv_kick (h : s.Inv) (hocc : 0 < s.occR) : s.kick.Inv := by
  obtain ⟨hf, hmem, hstr, ⟨-, -, hrem, hmax, headdr, harray, hseen, -⟩, hring⟩ := h
  exact ⟨hf, hmem, hstr, ⟨rfl, nofun, hrem, hmax, headdr, harray, hseen, fun _ _ => hocc⟩, hring⟩

theorem sampleOf_isSample (c : Config) (d : Word) : c.isSample (c.sampleOf d) = true := by
  have hW : 2 ^ c.W ≤ 2 ^ 32 := Nat.pow_le_pow_right (by decide) c.legal.2.1.2
  have hlt : d.toNat % 2 ^ c.W < 2 ^ c.W := Nat.mod_lt _ (Nat.two_pow_pos _)
  rw [Config.isSample, Config.sampleOf, BitVec.toNat_ofNat, Nat.mod_eq_of_lt (hlt.trans_le hW)]
  exact decide_eq_true hlt

theorem Memory.find_mem {m : Memory} {i : Nat} {v : Sample} (h : Memory.find m i = some v) : (i, v) ∈ m := by
  induction m with
  | nil => cases h
  | cons e rest ih =>
    obtain ⟨j, u⟩ := e
    rw [Memory.find] at h
    split at h
    · obtain rfl := Option.some.inj h
      subst_vars
      exact List.mem_cons_self
    · exact List.mem_cons_of_mem _ (ih h)

/-- MemRead gives a W-bit sample (20_memory.md R63). -/
theorem memRead_isSample (h : s.memOk) (i : Nat) : s.cfg.isSample (s.memRead i) = true := by
  unfold State.memRead
  split
  · exact (Bool.and_eq_true_iff.mp (List.all_eq_true.mp h.2 _ (Memory.find_mem ‹_›))).2
  · exact sampleOf_isSample _ _

/-- ENGINE_XFER takes a sample of the chunk in flight (42_transfer.md R170). -/
theorem inv_engineXfer (h : s.Inv) (hpos : 0 < s.remaining) : s.engineXfer.Inv := by
  obtain ⟨⟨hwptr, hwpub, hrptr, hrpub, hrl, hrs, hwl, hws, -, -, hout⟩, hmem, hstr, hctrl, hring⟩ := h
  obtain ⟨hen, hidle, hrem, hmax, headdr, harray, hseen, -⟩ := hctrl
  have hsample := memRead_isSample hmem s.eaddr
  have hout' : (s.out ++ [s.memRead s.eaddr]).all s.cfg.isSample = true := by simp [hout, hsample]
  have hnext : s.cfg.idx (s.eaddr + 1) = s.cfg.idx (s.rptr + (s.pending - (s.remaining - 1))) := by
    rw [headdr, Config.idx, Config.idx, Config.idx, Nat.mod_add_mod]
    congr 1; omega
  refine ⟨⟨hwptr, hwpub, hrptr, hrpub, hrl, hrs, hwl, hws, s.cfg.idx_lt _, of_decide_eq_true hsample, hout'⟩, hmem, hstr,
    ⟨hen, fun ha => ?_, (Nat.sub_le _ _).trans hrem, hmax, hnext, harray, hseen, fun _ hp => ?_⟩, hring⟩
  · have := (hidle ha).2
    omega
  · have : s.pending = 0 := hp
    omega

/-- The read pointer after the chunk in flight keeps the ring order: the chunk is data the read domain sees. -/
theorem ringOk_advanced (h : s.Inv) : State.ringOk { s with rptr := s.advancedRptr } := by
  obtain ⟨⟨-, -, hrptr, -, -, -, hwl, hws, -⟩, -, -, ⟨-, -, -, -, -, -, hseen, -⟩, hring⟩ := h
  obtain ⟨vs, hvs⟩ := s.cfg.views_eq_cons hwl
  have hview : s.wptrR < s.cfg.M := s.cfg.bin_lt _ (s.cfg.lastStage_lt hws)
  refine le_trans ?_ hring
  change s.cfg.walkFrom s.rptrW _ ≤ _
  rw [State.ring_eq, State.ring_eq]
  refine s.cfg.walkFrom_append_le (n := 0) (fun b => s.cfg.walkFrom_append_le (n := 0) (fun b => ?_) b [s.rpub]) _ _
  dsimp only
  rw [hvs]
  exact s.cfg.walkFrom_padd_le hrptr hview hseen b _

/-- COMPLETE under a view `wr` between the chunk in flight and the present view (42_transfer.md R165). -/
theorem inv_complete {wr : Nat} (h : s.Inv) (hsig : s.cmplSig = true) (hwr : wr < s.cfg.M)
    (hpend : s.pending ≤ s.cfg.diff wr s.rptr) (hocc : s.cfg.diff wr s.rptr ≤ s.occR) : (s.complete wr).Inv := by
  have hadv := ringOk_advanced h
  have hview := State.wptrR_lt h.1
  obtain ⟨⟨hwptr, hwpub, hrptr, hrpub, hrl, hrs, hwl, hws, heN, hrest⟩, hmem, hstr, hctrl, hring⟩ := h
  obtain ⟨hen, hidle, hrem, hmax, headdr, harray, hseen, hkick⟩ := hctrl
  obtain ⟨hon, hzero⟩ := (cmplSig_iff s).mp hsig
  have hr1 : s.advancedRptr < s.cfg.M := s.cfg.padd_lt ..
  have hidx : s.cfg.idx s.advancedRptr = s.cfg.idx (s.rptr + s.pending) := s.cfg.idx_padd ..
  rw [hzero, Nat.sub_zero] at headdr
  unfold State.complete
  split
  · exact ⟨⟨hwptr, hwpub, hr1, hrpub, hrl, hrs, hwl, hws, heN, hrest⟩, hmem, hstr,
      ⟨rfl, fun _ => ⟨rfl, hzero⟩, hzero.le, Nat.zero_le _, by simp [hidx, headdr], (s.cfg.idx_lt _).le, Nat.zero_le _,
        nofun⟩, hadv⟩
  · next hk =>
    have hrun : s.nextChunk wr ≤ s.cfg.crun s.advancedRptr wr := Nat.min_le_left _ _
    have hroom : s.nextChunk wr ≤ s.cfg.diff s.wptrR s.advancedRptr := by
      have hdata := s.cfg.crun_le_diff hr1 hwr
      rw [State.advancedRptr, s.cfg.diff_padd_right hwr hrptr hpend] at hdata
      rw [State.advancedRptr, s.cfg.diff_padd_right hview hrptr hseen]
      exact hrun.trans (hdata.trans (Nat.sub_le_sub_right hocc _))
    have hend := s.cfg.idx_add_crun_le s.advancedRptr wr
    exact ⟨⟨hwptr, hwpub, hr1, hrpub, hrl, hrs, hwl, hws, s.cfg.idx_lt _, hrest⟩, hmem, hstr,
      ⟨hen, fun ha => Bool.noConfusion (hon.symm.trans (hen.trans ha)), le_rfl, Nat.min_le_right _ _, by simp,
        (Nat.add_le_add_left hrun _).trans hend, hroom, fun _ hp => absurd hp hk⟩, hadv⟩

/-- A normal read edge keeps the invariant: the crossing does, and the action under the view before it. -/
theorem inv_readEdge (h : s.Inv) : s.readEdge.Inv := by
  have hu : s.readCrossing.timerTick.Inv := inv_timerTick (inv_readCrossing h)
  obtain ⟨hf, -, -, ⟨-, -, -, -, -, -, hseen, -⟩, hring⟩ := h
  have hocc : s.occR ≤ s.readCrossing.timerTick.occR := occR_le_readCrossing hf hring
  unfold State.readEdge State.action
  split_ifs with hx hc hk
  · exact inv_engineXfer hu hx.2
  · exact inv_complete hu hc (State.wptrR_lt hf) hseen hocc
  · exact inv_kick hu (hk.2.trans_le hocc)
  · exact hu

/-! ## The datapath reset and power-on -/

theorem walkFrom_zero (c : Config) {ps : List Nat} (h : ∀ p ∈ ps, p = 0) : c.walkFrom 0 ps = 0 := by
  induction ps with
  | nil => rfl
  | cons p ps ih =>
    obtain ⟨rfl, hps⟩ := List.forall_mem_cons.mp h
    rw [Config.walkFrom, ih hps, c.diff_self 0 c.M_pos]

theorem lastStage_replicate_zero (c : Config) (n : Nat) : c.lastStage (List.replicate n 0) = 0 := by
  rw [Config.lastStage, List.getD_eq_getElem?_getD, List.getElem?_replicate]
  split <;> rfl

/-- A state whose datapath is at its reset values meets the invariant, whatever it holds besides. -/
theorem inv_of_datapathReset (h : s.DatapathReset s) (hdout : s.dout.toNat < 2 ^ s.cfg.W)
    (hout : s.out.all s.cfg.isSample = true) (hmem : s.memOk) (hstr : s.streamsOk) : s.Inv := by
  obtain ⟨hwptr, hwpub, hrs, hrptr, hrpub, hws, hact, hen, hpend, hrem, headdr⟩ := h
  have hM := s.cfg.M_pos
  have hzeros : ∀ g ∈ List.replicate s.cfg.sSync 0, g < s.cfg.M := fun g hg => List.eq_of_mem_replicate hg ▸ hM
  have hview : s.rptrW = 0 := by rw [State.rptrW, hrs, lastStage_replicate_zero, Config.bin_zero]
  have hring : ∀ p ∈ s.ring, p = 0 := by
    rw [State.ring, hwptr, hwpub, hrs, hrptr, hrpub, hws]
    simp only [List.reverse_replicate, List.map_replicate, Config.bin_zero, List.mem_append, List.mem_cons,
      List.mem_replicate, List.not_mem_nil]
    tauto
  refine ⟨?_, hmem, hstr, ?_, ?_⟩
  · rw [State.fits, hwptr, hwpub, hrs, hrptr, hrpub, hws, headdr]
    exact ⟨hM, hM, hM, hM, List.length_replicate, hzeros, List.length_replicate, hzeros, s.cfg.N_pos, hdout, hout⟩
  · simp [State.ctrlOk, hact, hen, hpend, hrem, headdr, hrptr, Config.idx, s.cfg.N_pos.le]
  · rw [State.ringOk, hview, walkFrom_zero _ hring]
    exact Nat.zero_le _

theorem inv_dpreset (h : s.Inv) : s.dpreset.Inv := by
  obtain ⟨⟨-, -, -, -, -, -, -, -, -, hdout, hout⟩, hmem, hstr, -⟩ := h
  exact inv_of_datapathReset (dpreset_spec s) hdout hout hmem hstr

/-- A power-on state meets the invariant, whatever the host's streams and schedule. -/
theorem inv_of_poweredOn (h : s.poweredOn) : s.Inv := by
  obtain ⟨c, ws, cs, es, rfl⟩ := h
  exact inv_of_datapathReset ⟨rfl, rfl, rfl, rfl, rfl, rfl, rfl, rfl, rfl, rfl, rfl⟩ (Nat.two_pow_pos _) rfl
    ⟨List.Pairwise.nil, rfl⟩ ⟨Nat.zero_le _, Nat.zero_le _⟩

/-- Settles O12: the reset state is a power-on state, and a power-on state is at the datapath's reset values. -/
theorem powerOnMeetsTheInvariant : Obligations.PowerOnMeetsTheInvariant :=
  ⟨fun _ h => inv_of_poweredOn h, inv_of_poweredOn ⟨Config.sourceDefault, [], [], [], rfl⟩⟩

/-- Settles O11: each register's value is the one power-on writes; the derived values follow from empty pointers. -/
theorem powerOnClearsEveryRegister : Obligations.PowerOnClearsEveryRegister := by
  rintro c s rfl
  have hchain : ∀ k < c.sSync, (List.replicate c.sSync 0)[k]? = some 0 := fun k hk => by simp [hk]
  have hview : c.bin (c.lastStage (List.replicate c.sSync 0)) = 0 := by
    rw [lastStage_replicate_zero, Config.bin_zero]
  have hfree : c.N - c.diff 0 0 = c.N := by rw [c.diff_self 0 c.M_pos, Nat.sub_zero]
  have hfreeW : (State.powerOn c).freeW = c.N := by
    rw [State.freeW, State.rptrW]; exact (congrArg (c.N - c.diff 0 ·) hview).trans hfree
  have hfreeR : (State.powerOn c).freeR = c.N := by
    rw [State.freeR, State.occR, State.wptrR]; exact (congrArg (c.N - c.diff · 0) hview).trans hfree
  have hstatus : (State.powerOn c).status = 0 := by
    simp [State.status, State.ctrl, State.powerOn, flagBit, CtrlState.code]
  exact ⟨rfl, rfl, rfl, hchain, rfl, rfl, rfl, rfl, hchain, rfl, rfl, rfl, rfl, rfl, rfl, rfl, rfl, rfl, rfl, rfl, rfl, rfl,
    rfl, rfl, rfl, rfl, rfl, rfl, rfl, hfree, hfreeW, hfreeR, hstatus, rfl⟩

end Sys2Proof.Machine
end

section
/-! What a completed step is, and the invariant over steps and runs. -/

namespace Sys2Proof

/-- A command the decoder reads lies in the words it was given, and a FEED has its COUNT of data words. -/
theorem length_of_decode {p : Port} {ws : List Word} {i : Instr} {n : Nat} (h : decode p ws = .command i n) :
    n ≤ ws.length ∧ i.wf = true := by
  cases ws with
  | nil => cases h
  | cons w rest =>
    rcases decode_command_cases h with ⟨-, rfl, rfl⟩ | ⟨count, -, hc, rfl, rfl⟩ | ⟨-, rfl, rfl⟩ | ⟨_, -, rfl, rfl⟩ |
      ⟨-, rfl, rfl⟩ | ⟨f, tail, -, rfl, rfl, rfl⟩ | ⟨-, rfl, rfl⟩ | ⟨_, -, rfl, rfl⟩
    case inr.inl => simp [Instr.wf, hc, Nat.add_comm]
    all_goals simp [Instr.wf]

namespace Machine

variable {s t : State}

/-- A command an edge fetches belongs to its port, is well-formed, and lies in the port's words. -/
theorem fetch_command {e : Edge} {i : Instr} {n : Nat} (h : s.fetch e = .command i n) :
    i.port = e.port ∧ n ≤ (s.words e.port).length ∧ i.wf = true := by
  unfold State.fetch at h
  split at h
  · exact ⟨port_of_decode h, length_of_decode h⟩
  · cases h

theorem fetch_illegal {e : Edge} {w : Word} {why : IllegalReason} (h : s.fetch e = .illegal w why) :
    1 ≤ (s.words e.port).length := by
  unfold State.fetch at h
  split at h
  · cases hw : s.words e.port with
    | nil => rw [hw] at h; cases h
    | cons => simp
  · cases h

/-- What a step that completes can be, with the state it gives: what a port answers, beside the edge without a command, is
one response (43_commands.md R190 to R200, 60_exceptions.md R231 to R233). -/
inductive StepCase (s : State) : State → Prop
  | idle (p : Port) (hf : s.fetch s.nextEdge = .empty) (hp : s.nextEdge.port = p) :
    StepCase s ((s.moved p 0).idleEdge p)
  | illegal (p : Port) (w : Word) (why : IllegalReason) (hf : s.fetch s.nextEdge = .illegal w why)
    (hp : s.nextEdge.port = p) : StepCase s ((s.moved p 1).illegalEdge p w)
  | answer (p : Port) (i : Instr) (n : Nat) (v : Word) (hf : s.fetch s.nextEdge = .command i n) (hp : s.nextEdge.port = p)
    (hr : s.resets = false) : StepCase s (((s.moved p n).idleEdge p).respond p v)
  | feed (count : BitVec 28) (data : List Word) (n : Nat) (hf : s.fetch s.nextEdge = .command (.feed count data) n)
    (hp : s.nextEdge.port = .write) (hlen : data.length = count.toNat) (hfree : count.toNat ≤ s.freeW) :
    StepCase s (((s.moved .write n).writeEdge.bufWrite (s.payload data)).respond .write 1)
  | zeroFrequency (n : Nat) (hf : s.fetch s.nextEdge = .command (.start 0) n) (hp : s.nextEdge.port = .control) :
    StepCase s ((s.moved .control n).readEdge.raiseFault .zeroFrequency .control 0x90000000)
  | stop (n : Nat) (hf : s.fetch s.nextEdge = .command .stop n) (hp : s.nextEdge.port = .control) :
    StepCase s ((s.moved .control n).timerTick.dpreset.respond .control 0)
  | init (n : Nat) (hf : s.fetch s.nextEdge = .command .init n) (hp : s.nextEdge.port = .control) :
    StepCase s (({ (s.moved .control n).dpreset.tprog s.cfg.initFreqHz with initd := true } : State).respond .control 0)
  | start (f : Word) (n : Nat) (hf : s.fetch s.nextEdge = .command (.start f) n) (hp : s.nextEdge.port = .control)
    (hne : f ≠ 0) : StepCase s (((s.moved .control n).dpreset.tprog f.toNat).respond .control 0)

/-- The one place where the commands' meanings are taken apart. -/
theorem stepCase_of_exec {i : Instr} {n : Nat} (hf : s.fetch s.nextEdge = .command i n)
    (h : exec i (s.moved s.nextEdge.port n) = .next t) : StepCase s t := by
  obtain ⟨hport, -, hwf⟩ := fetch_command hf
  rw [← hport] at h
  cases i with
  | nop p =>
    obtain rfl := Host.Outcome.next.inj h
    exact .answer p _ n 0 hf hport.symm (by simp only [State.resets, hf])
  | feed count data =>
    have hlen : data.length = count.toNat := by simpa [Instr.wf] using hwf
    simp only [exec, execFeed, hlen, ne_eq, not_true_eq_false, if_false] at h
    split at h <;> obtain rfl := Host.Outcome.next.inj h
    · exact .feed count data n hf hport.symm hlen ‹_›
    · exact .answer .write _ n 0 hf hport.symm (by simp only [State.resets, hf])
  | rdfree =>
    obtain rfl := Host.Outcome.next.inj h
    exact .answer .write _ n _ hf hport.symm (by simp only [State.resets, hf])
  | rdw sel =>
    obtain rfl := Host.Outcome.next.inj h
    exact .answer .write _ n _ hf hport.symm (by simp only [State.resets, hf])
  | init =>
    obtain rfl := Host.Outcome.next.inj h
    exact .init n hf hport.symm
  | start f =>
    simp only [exec, execStart] at h
    split at h <;> obtain rfl := Host.Outcome.next.inj h
    · subst_vars
      exact .zeroFrequency n hf hport.symm
    · exact .start f n hf hport.symm ‹_›
  | stop =>
    obtain rfl := Host.Outcome.next.inj h
    exact .stop n hf hport.symm
  | rdc sel =>
    obtain rfl := Host.Outcome.next.inj h
    exact .answer .control _ n _ hf hport.symm (by simp only [State.resets, hf])

theorem stepCase_of_step (h : step s = .next t) : StepCase s t := by
  rcases step_cases s t h with ⟨i, n, hf, he⟩ | ⟨w, why, hf, rfl⟩ | ⟨hf, rfl⟩
  · exact stepCase_of_exec hf he
  · exact .illegal _ w why hf rfl
  · have hmoved : s.takeEdge = s.moved s.nextEdge.port 0 := by cases s.nextEdge.port <;> rfl
    rw [hmoved]
    exact .idle _ hf rfl

/-! ## The invariant -/

/-- Consuming words a port's stream holds keeps the invariant. -/
theorem inv_moved {p : Port} {n : Nat} (h : s.Inv) (hn : n ≤ (s.words p).length) : (s.moved p n).Inv := by
  obtain ⟨hf, hmem, ⟨hw, hc⟩, hctrl, hring⟩ := h
  cases p <;> simp only [State.words, List.length_drop] at hn
  · exact ⟨hf, hmem, ⟨by simp only [State.moved]; omega, hc⟩, hctrl, hring⟩
  · exact ⟨hf, hmem, ⟨hw, by simp only [State.moved]; omega⟩, hctrl, hring⟩

theorem inv_moved_of_fetch {i : Instr} {n : Nat} (h : s.Inv) (hf : s.fetch s.nextEdge = .command i n) :
    (s.moved s.nextEdge.port n).Inv :=
  inv_moved h (fetch_command hf).2.1

theorem inv_idleEdge {p : Port} (h : s.Inv) : (s.idleEdge p).Inv := by
  cases p
  · exact inv_writeEdge h
  · exact inv_readEdge h

theorem inv_respond {p : Port} {v : Word} (h : s.Inv) : (s.respond p v).Inv := by cases p <;> exact h

theorem inv_raiseFault {k : FaultKind} {p : Port} {w : Word} (h : s.Inv) : (s.raiseFault k p w).Inv := by
  cases p <;> cases k <;> exact h

theorem inv_tprog {f : Nat} (h : s.Inv) : (s.tprog f).Inv := h

theorem inv_initd {b : Bool} (h : s.Inv) : State.Inv { s with initd := b } := h

/-- Settles O48, by the cases of a step: each is a composition of operations that keep the invariant. -/
theorem everyStepKeepsTheInvariant : Obligations.EveryStepKeepsTheInvariant := by
  intro s t h hst
  cases stepCase_of_step hst with
  | idle => exact inv_idleEdge (inv_moved h (Nat.zero_le _))
  | illegal p w why hf hp => exact inv_raiseFault (inv_idleEdge (inv_moved h (hp ▸ fetch_illegal hf)))
  | answer p i n v hf hp => exact inv_respond (inv_idleEdge (hp ▸ inv_moved_of_fetch h hf))
  | feed count data n hf hp hlen hfree =>
    have hm : (s.moved .write n).Inv := hp ▸ inv_moved_of_fetch h hf
    have hroom : (s.payload data).length ≤ (s.moved .write n).writeEdge.freeW := by
      rw [State.payload, List.length_map, hlen]
      have hview : (s.moved .write n).freeW ≤ (s.moved .write n).writeEdge.freeW := freeW_le_writeEdge hm
      exact le_trans hfree hview
    refine inv_respond (inv_bufWrite (inv_writeEdge hm) hroom fun v hv => ?_)
    obtain ⟨d, -, rfl⟩ := List.mem_map.mp hv
    exact sampleOf_isSample _ _
  | zeroFrequency n hf hp => exact inv_raiseFault (inv_readEdge (hp ▸ inv_moved_of_fetch h hf))
  | stop n hf hp => exact inv_respond (inv_dpreset (inv_timerTick (hp ▸ inv_moved_of_fetch h hf)))
  | init n hf hp =>
    have hm : (s.moved .control n).Inv := hp ▸ inv_moved_of_fetch h hf
    exact inv_respond (inv_initd (inv_tprog (inv_dpreset hm)))
  | start f n hf hp => exact inv_respond (inv_tprog (inv_dpreset (hp ▸ inv_moved_of_fetch h hf)))

/-- What every step keeps, every run keeps. -/
theorem runsTo_keeps {P : State → Prop} (hstep : ∀ s t, P s → step s = .next t → P t) {k : Nat} (hs : P s)
    (h : runsTo k s t) : P t := by
  induction k generalizing s with
  | zero =>
    obtain rfl := (runsTo_zero s t).mp h
    exact hs
  | succ k ih =>
    obtain ⟨u, hu, hrun⟩ := (runsTo_succ k s t).mp h
    exact ih (hstep s u hs hu) hrun

/-- Settles O49: a reached state meets the invariant, which contains (a) to (d); (e) is the ring without its inner stages,
and (f) follows from (e), since a detour is no shorter than the way. -/
theorem reachableStatesMeetTheRegisterInvariants : Obligations.ReachableStatesMeetTheRegisterInvariants := by
  intro k r s hr hrun
  obtain ⟨hf, -, -, ⟨hen, hidle, hrem, hmax, headdr, harray, -⟩, hring⟩ :=
    runsTo_keeps everyStepKeepsTheInvariant (inv_of_poweredOn hr) hrun
  obtain ⟨hsum, hN⟩ := six_pointers_in_order hf hring
  have hidx : s.eaddr = (s.rptr + (s.pending - s.remaining)) % s.cfg.M % s.cfg.N := headdr.trans (s.cfg.idx_padd ..).symm
  have hread := s.cfg.diff_le_add s.rptr s.rpub s.rptrW
  have hfull := s.cfg.diff_le_add s.wptr s.rptr s.rptrW
  have hpub := s.cfg.diff_le_add s.wptr s.wpub s.rptr
  have hview := s.cfg.diff_le_add s.wpub s.wptrR s.rptr
  refine ⟨hen, hidle, ⟨hrem, hmax, hrem.trans_lt'⟩, ⟨hidx, harray⟩, ⟨hsum, hN⟩, ?_, Nat.sub_le _ _, by omega⟩
  unfold State.freeW State.freeTrue State.occupied
  omega

end Machine

end Sys2Proof
end


section
/-! The status words (10_state.md R45, R46). -/

namespace Sys2Proof.Machine

/-- A field put above the bits a word uses adds its value at its place. -/
theorem toNat_or_field {w : Word} {x k v : Nat} (hw : w.toNat = x) (hx : x < 2 ^ k) (hv : v * 2 ^ k < 2 ^ 32) :
    (w ||| BitVec.ofNat 32 (v * 2 ^ k)).toNat = x + v * 2 ^ k := by
  rw [BitVec.toNat_or, BitVec.toNat_ofNat, Nat.mod_eq_of_lt hv, hw, Nat.or_comm, ← Nat.shiftLeft_eq,
    ← Nat.shiftLeft_add_eq_or_of_lt hx, Nat.add_comm]

theorem flagBit_eq (b : Bool) (k : Nat) : flagBit b k = BitVec.ofNat 32 (b.toNat * 2 ^ k) := by
  cases b <;> simp [flagBit]

theorem ctrl_code (s : State) :
    s.ctrl.code = if s.active = false then 0 else if s.pending = 0 then 1 else if 0 < s.remaining then 2 else 3 := by
  unfold State.ctrl
  split_ifs <;> rfl

theorem CtrlState.code_lt (k : CtrlState) : k.code < 4 := by cases k <;> decide

/-- Settles O37: each field of STATUS stands above the bits of those before it, so the word is their sum. -/
theorem statusWordLayout : Obligations.StatusWordLayout := by
  intro s
  have hcode := s.ctrl.code_lt
  have ha := s.active.toNat_lt
  have hc := s.cmplEn.toNat_lt
  have hr := s.trun.toNat_lt
  have hi := s.initd.toNat_lt
  have he := s.cerrIll.toNat_lt
  have hz := s.cerrFreq.toNat_lt
  have hp := s.tpre.toNat_lt
  have h0 (b : Bool) : (flagBit b 0).toNat = b.toNat := by cases b <;> rfl
  refine ⟨?_, h0 s.werrIll⟩
  have h1 := toNat_or_field (k := 1) (v := s.cmplEn.toNat) (h0 s.active) (by omega) (by omega)
  have h2 := toNat_or_field (k := 2) (v := s.trun.toNat) h1 (by omega) (by omega)
  have h3 := toNat_or_field (k := 3) (v := s.initd.toNat) h2 (by omega) (by omega)
  have h4 := toNat_or_field (k := 4) (v := s.cerrIll.toNat) h3 (by omega) (by omega)
  have h5 := toNat_or_field (k := 5) (v := s.cerrFreq.toNat) h4 (by omega) (by omega)
  have h6 := toNat_or_field (k := 6) (v := s.ctrl.code) h5 (by omega) (by omega)
  have h8 := toNat_or_field (k := 8) (v := s.tpre.toNat) h6 (by omega) (by omega)
  simp only [← flagBit_eq] at h8
  rw [← ctrl_code]
  refine h8.trans ?_
  omega

end Sys2Proof.Machine
end

section
/-! The logs grow, and nothing reads them or `initd` (10_state.md R38, R41, R42). -/

namespace Sys2Proof.Machine

variable {s t u : State}

/-! ## The logs grow -/

/-- Each of the four logs of `t` begins with that of `s`. -/
def State.LogsGrow (s t : State) : Prop := s.out <+: t.out ∧ s.wresp <+: t.wresp ∧ s.cresp <+: t.cresp ∧ s.flog <+: t.flog

theorem State.LogsGrow.refl (s : State) : s.LogsGrow s :=
  ⟨List.prefix_rfl, List.prefix_rfl, List.prefix_rfl, List.prefix_rfl⟩

theorem State.LogsGrow.trans (h : s.LogsGrow t) (h' : t.LogsGrow u) : s.LogsGrow u := by
  obtain ⟨ho, hw, hc, hf⟩ := h
  obtain ⟨ho', hw', hc', hf'⟩ := h'
  exact ⟨ho.trans ho', hw.trans hw', hc.trans hc', hf.trans hf'⟩

theorem logsGrow_moved (p : Port) (n : Nat) : s.LogsGrow (s.moved p n) := by cases p <;> exact .refl s

theorem logsGrow_respond (p : Port) (v : Word) : s.LogsGrow (s.respond p v) := by
  cases p <;> simp [State.LogsGrow]

theorem logsGrow_raiseFault (k : FaultKind) (p : Port) (w : Word) : s.LogsGrow (s.raiseFault k p w) := by
  cases p <;> cases k <;> simp [State.LogsGrow, State.raiseFault, State.setError]

theorem logsGrow_readEdge : s.LogsGrow s.readEdge := by
  obtain ⟨⟨-, -, -, hw, -⟩, -, hc, hf⟩ := readEdge_frame s
  refine ⟨?_, hw ▸ List.prefix_rfl, hc ▸ List.prefix_rfl, hf ▸ List.prefix_rfl⟩
  rcases readEdge_cases s with ⟨-, -, e⟩ | ⟨-, -, -, ⟨-, e⟩ | ⟨-, e⟩⟩ | ⟨-, -, -, -, e⟩ | ⟨-, -, -, -, e⟩ <;> rw [e]
  · exact List.prefix_append _ _
  all_goals exact List.prefix_rfl

theorem logsGrow_idleEdge (p : Port) : s.LogsGrow (s.idleEdge p) := by
  cases p
  · exact .refl s
  · exact logsGrow_readEdge

/-- A step only adds to the logs: what it does beside responses, faults and the read edge leaves them as they are. -/
theorem logsGrow_of_step (h : step s = .next t) : s.LogsGrow t := by
  cases stepCase_of_step h with
  | idle p => exact (logsGrow_moved p 0).trans (logsGrow_idleEdge p)
  | illegal p w => exact ((logsGrow_moved p 1).trans (logsGrow_idleEdge p)).trans (logsGrow_raiseFault _ p w)
  | answer p i n v => exact ((logsGrow_moved p n).trans (logsGrow_idleEdge p)).trans (logsGrow_respond p v)
  | feed count data n => exact (State.LogsGrow.refl s).trans (logsGrow_respond .write 1)
  | zeroFrequency n => exact ((logsGrow_moved .control n).trans logsGrow_readEdge).trans (logsGrow_raiseFault ..)
  | stop n => exact (State.LogsGrow.refl s).trans (logsGrow_respond .control 0)
  | init n => exact (State.LogsGrow.refl s).trans (logsGrow_respond .control 0)
  | start f n => exact (State.LogsGrow.refl s).trans (logsGrow_respond .control 0)

/-- Settles O53: a step only adds to the logs, so a run does. -/
theorem logsOnlyGrow : Obligations.LogsOnlyGrow := fun _ s _ h =>
  runsTo_keeps (P := s.LogsGrow) (fun _ _ hu hstep => hu.trans (logsGrow_of_step hstep)) (.refl s) h

/-! ## Nothing reads the logs or `initd` -/

/-- `s` with other entries before those of the logs, and another `initd`. -/
def State.withUnread (s : State) (o : List Sample) (w c : List Word) (f : List FaultEntry) (b : Bool) : State :=
  { s.withLogs o w c f with initd := b }

/-- The value of `initd` after an edge that finds it `b`, by what the edge fetches (10_state.md R38). -/
def initdAfter (d : Decoded) (b : Bool) : Bool :=
  match d with
  | .command .init _ => true
  | _ => b

variable (o : List Sample) (w c : List Word) (f : List FaultEntry) (b : Bool)

theorem moved_withUnread (p : Port) (n : Nat) :
    (s.withUnread o w c f b).moved p n = (s.moved p n).withUnread o w c f b := by cases p <;> rfl

theorem respond_withUnread (p : Port) (v : Word) :
    (s.withUnread o w c f b).respond p v = (s.respond p v).withUnread o w c f b := by
  cases p <;> simp [State.withUnread, State.withLogs, State.respond]

theorem raiseFault_withUnread (k : FaultKind) (p : Port) (x : Word) :
    (s.withUnread o w c f b).raiseFault k p x = (s.raiseFault k p x).withUnread o w c f b := by
  cases p <;> cases k <;> simp [State.withUnread, State.withLogs, State.raiseFault, State.setError, State.respond]

theorem readEdge_withUnread : (s.withUnread o w c f b).readEdge = s.readEdge.withUnread o w c f b := by
  have hact (u : State) (a : Action) (wr : Nat) :
      (u.withUnread o w c f b).act a wr = (u.act a wr).withUnread o w c f b := by
    cases a with
    | engineXfer => simp [State.withUnread, State.withLogs, State.act, State.engineXfer, State.memRead]
    | complete =>
      change (u.withUnread o w c f b).complete wr = (u.complete wr).withUnread o w c f b
      have hchunk : (u.withUnread o w c f b).nextChunk wr = u.nextChunk wr := rfl
      unfold State.complete
      rw [hchunk]
      split <;> rfl
    | kick => rfl
    | none => rfl
  exact hact s.readCrossing.timerTick s.action s.wptrR

theorem idleEdge_withUnread (p : Port) : (s.withUnread o w c f b).idleEdge p = (s.idleEdge p).withUnread o w c f b := by
  cases p
  · rfl
  · exact readEdge_withUnread o w c f b

/-- Of the readbacks only STATUS shows `initd`, and none shows a log. -/
theorem readC_withUnread {sel : CSel} (h : sel ≠ .status ∨ b = s.initd) :
    (s.withUnread o w c f b).readC sel = s.readC sel := by
  cases sel
  case status =>
    obtain rfl : b = s.initd := h.resolve_left (not_not_intro rfl)
    rfl
  all_goals rfl

/-- A command does the same whatever the logs hold before, and whatever `initd` is where it does not read it. -/
theorem exec_withUnread {i : Instr} (n : Nat) (h : exec i s = .next t) (hi : i ≠ .rdc .status ∨ b = s.initd) :
    exec i (s.withUnread o w c f b) = .next (t.withUnread o w c f (initdAfter (.command i n) b)) := by
  cases i with
  | nop p =>
    obtain rfl := Host.Outcome.next.inj h
    simp only [exec, execNop, idleEdge_withUnread, respond_withUnread, initdAfter]
  | feed count data =>
    have hfree : (s.withUnread o w c f b).freeW = s.freeW := rfl
    simp only [exec, execFeed, hfree] at h ⊢
    split at h
    · cases h
    · split at h <;> obtain rfl := Host.Outcome.next.inj h
      · rw [if_neg ‹_›, if_pos ‹_›, ← respond_withUnread]
        rfl
      · rw [if_neg ‹_›, if_neg ‹_›, ← respond_withUnread]
        rfl
  | rdfree =>
    obtain rfl := Host.Outcome.next.inj h
    rw [← respond_withUnread]
    rfl
  | rdw sel =>
    obtain rfl := Host.Outcome.next.inj h
    have hread : (s.withUnread o w c f b).readW sel = s.readW sel := by cases sel <;> rfl
    rw [← respond_withUnread, ← hread]
    rfl
  | init =>
    obtain rfl := Host.Outcome.next.inj h
    rw [← respond_withUnread]
    rfl
  | start freq =>
    simp only [exec, execStart] at h ⊢
    split at h <;> obtain rfl := Host.Outcome.next.inj h
    · rw [if_pos ‹_›, readEdge_withUnread, raiseFault_withUnread]
      rfl
    · rw [if_neg ‹_›, ← respond_withUnread]
      rfl
  | stop =>
    obtain rfl := Host.Outcome.next.inj h
    rw [← respond_withUnread]
    rfl
  | rdc sel =>
    obtain rfl := Host.Outcome.next.inj h
    have hsel : sel ≠ .status ∨ b = s.initd := hi.imp_left fun hne he => hne (congrArg _ he)
    simp only [exec, execRdc, readEdge_withUnread, respond_withUnread, readC_withUnread o w c f b hsel, initdAfter]

theorem step_of_fetch_illegal {x : Word} {why : IllegalReason} (h : s.fetch s.nextEdge = .illegal x why) :
    step s = .next ((s.moved s.nextEdge.port 1).illegalEdge s.nextEdge.port x) := by
  rw [← consume_takeEdge]
  simp only [step, h]

theorem step_of_fetch_empty (h : s.fetch s.nextEdge = .empty) :
    step s = .next ((s.moved s.nextEdge.port 0).idleEdge s.nextEdge.port) := by
  rw [← consume_takeEdge]
  simp only [step, h]
  cases s.nextEdge.port <;> rfl

/-- A step does the same whatever the logs hold before, and whatever `initd` is where it is no STATUS readback. -/
theorem step_withUnread (h : step s = .next t)
    (hi : (∀ n, s.fetch s.nextEdge ≠ .command (.rdc .status) n) ∨ b = s.initd) :
    step (s.withUnread o w c f b) = .next (t.withUnread o w c f (initdAfter (s.fetch s.nextEdge) b)) := by
  have hfetch : (s.withUnread o w c f b).fetch (s.withUnread o w c f b).nextEdge = s.fetch s.nextEdge := rfl
  rcases step_cases s t h with ⟨i, n, hf, he⟩ | ⟨x, why, hf, rfl⟩ | ⟨hf, -⟩ <;> rw [hf] at hfetch ⊢
  · have hread : i ≠ .rdc .status ∨ b = (s.moved s.nextEdge.port n).initd := by
      refine hi.imp (fun hne he => hne n (he ▸ hf)) fun hb => ?_
      cases s.nextEdge.port <;> exact hb
    rw [step_of_fetch_command hfetch, moved_withUnread]
    exact exec_withUnread o w c f b n he hread
  · rw [step_of_fetch_illegal hfetch, moved_withUnread, State.illegalEdge, idleEdge_withUnread, raiseFault_withUnread]
    rfl
  · obtain rfl := Host.Outcome.next.inj (h.symm.trans (step_of_fetch_empty hf))
    rw [step_of_fetch_empty hfetch, moved_withUnread, idleEdge_withUnread]
    rfl

/-- Settles O55: with the logs as they are, a step from another `initd` gives the same state but for `initd`. -/
theorem initdInfluencesNothing : Obligations.InitdInfluencesNothing := by
  intro s t b h hne
  refine ⟨initdAfter (s.fetch s.nextEdge) b, step_withUnread [] [] [] [] b h (.inl hne), ?_, fun hno => ?_⟩
  · rintro ⟨n, hf⟩
    rw [hf, initdAfter]
  · unfold initdAfter
    split
    · exact absurd ‹_› (hno _)
    · rfl

/-- With `initd` as it is, a step from other logs gives the same state with those logs before its own. -/
theorem step_withLogs (h : step s = .next t) : step (s.withLogs o w c f) = .next (t.withLogs o w c f) := by
  have hsame : step s = .next { t with initd := initdAfter (s.fetch s.nextEdge) s.initd } :=
    step_withUnread [] [] [] [] s.initd h (.inr rfl)
  have ht : t = { t with initd := initdAfter (s.fetch s.nextEdge) s.initd } :=
    Host.Outcome.next.inj (h.symm.trans hsame)
  rw [ht]
  exact step_withUnread o w c f s.initd h (.inr rfl)

/-- Settles O54: step by step, the run with other entries before the logs is the run with those entries before. -/
theorem logsInfluenceNothing : Obligations.LogsInfluenceNothing := by
  intro k s t o w c f h
  induction k generalizing s with
  | zero =>
    obtain rfl := (runsTo_zero s t).mp h
    exact (runsTo_zero ..).mpr rfl
  | succ k ih =>
    obtain ⟨u, hu, hrun⟩ := (runsTo_succ k s t).mp h
    exact (runsTo_succ ..).mpr ⟨_, step_withLogs o w c f hu, ih u hrun⟩

end Sys2Proof.Machine
end

section
/-! The writers of every state element (10_state.md R47). -/

namespace Sys2Proof.Machine

variable {s t : State}

theorem writeEdge_sameReadDomain (s : State) : s.SameReadDomain s.writeEdge :=
  ⟨rfl, rfl, ⟨rfl, rfl, rfl, rfl, rfl, rfl⟩, ⟨rfl, rfl⟩, ⟨rfl, rfl, rfl⟩, rfl, rfl, rfl, rfl, rfl, rfl⟩

/-- At a step of the write port the read domain rests, and only an accepted FEED or an illegal word writes besides the
crossing. -/
theorem write_step_writers (h : step s = .next t) (hport : s.nextEdge.port = .write) :
    s.resets = false ∧ t.cfg = s.cfg ∧ s.SameReadDomain t ∧
      ((t.wptr = s.wptr ∧ s.SameMem t) ∨
        ∃ count data n, s.fetch s.nextEdge = .command (.feed count data) n ∧ count.toNat ≤ s.freeW) ∧
      (s.SameWriteErrors t ∨ ∃ w why, s.fetch s.nextEdge = .illegal w why) := by
  have hread := writeEdge_sameReadDomain s
  have hmem := writeEdge_mem s
  cases stepCase_of_step h with
  | idle p hf hp =>
    obtain rfl : p = .write := hp.symm.trans hport
    exact ⟨by simp only [State.resets, hf], rfl, hread, .inl ⟨rfl, hmem⟩, .inl ⟨rfl, rfl⟩⟩
  | illegal p w why hf hp =>
    obtain rfl : p = .write := hp.symm.trans hport
    exact ⟨by simp only [State.resets, hf], rfl, hread, .inl ⟨rfl, hmem⟩, .inr ⟨w, why, hf⟩⟩
  | answer p i n v hf hp hr =>
    obtain rfl : p = .write := hp.symm.trans hport
    exact ⟨hr, rfl, hread, .inl ⟨rfl, hmem⟩, .inl ⟨rfl, rfl⟩⟩
  | feed count data n hf _ _ hfree =>
    exact ⟨by simp only [State.resets, hf], rfl, hread, .inr ⟨count, data, n, hf, hfree⟩, .inl ⟨rfl, rfl⟩⟩
  | zeroFrequency n hf hp => cases hp.symm.trans hport
  | stop n hf hp => cases hp.symm.trans hport
  | init n hf hp => cases hp.symm.trans hport
  | start f n hf hp => cases hp.symm.trans hport

/-- What a normal read edge writes besides the crossing: the timer where it runs, and the registers of the controller, the
engine and the converter by the actions that the table lists for each. -/
structure State.ReadEdgeWrites (s t : State) : Prop where
  cfg : t.cfg = s.cfg
  writeDomain : s.SameWriteDomain t
  mem : s.SameMem t
  program : s.SameProgram t
  initd : t.initd = s.initd
  timer : s.trun = false → t.tpre = s.tpre ∧ t.tcnt = s.tcnt
  complete : t.rptr ≠ s.rptr ∨ t.pending ≠ s.pending → s.action = .complete
  kick : t.active ≠ s.active ∨ t.cmplEn ≠ s.cmplEn → s.action = .kick ∨ s.action = .complete
  engine : t.eaddr ≠ s.eaddr ∨ t.remaining ≠ s.remaining → s.action = .complete ∨ s.action = .engineXfer
  converter : t.dout ≠ s.dout ∨ t.out ≠ s.out → s.action = .engineXfer

theorem readEdge_writes (s : State) : s.ReadEdgeWrites s.readEdge := by
  obtain ⟨⟨hwrite, hmem, hinitd, -, hcfg, -⟩, -⟩ := readEdge_frame s
  obtain ⟨-, ⟨hpre, hcnt⟩, hprog, -⟩ := readEdge_spec s
  have htimer (htrun : s.trun = false) : s.readEdge.tpre = s.tpre ∧ s.readEdge.tcnt = s.tcnt := by
    simp only [htrun, Bool.false_eq_true, false_and, if_false] at hpre hcnt
    exact ⟨hpre, BitVec.eq_of_toNat_eq hcnt⟩
  rcases readEdge_cases s with ⟨-, ha, e⟩ | ⟨-, -, ha, ⟨-, e⟩ | ⟨-, e⟩⟩ | ⟨-, -, -, ha, e⟩ | ⟨-, -, -, ha, e⟩ <;>
    exact ⟨hcfg, hwrite, hmem, hprog, hinitd, htimer, by simp [e, ha], by simp [e, ha], by simp [e, ha], by simp [e, ha]⟩

/-- Words consumed before the read edge, and a response after it, are no writes of the table's registers. -/
theorem readEdge_writes_moved (s : State) (n : Nat) : s.ReadEdgeWrites (s.moved .control n).readEdge :=
  { readEdge_writes (s.moved .control n) with }

theorem State.ReadEdgeWrites.respond (h : s.ReadEdgeWrites t) (v : Word) : s.ReadEdgeWrites (t.respond .control v) :=
  { h with }

/-- A fault writes the error flags and word only. -/
theorem State.ReadEdgeWrites.raiseFault (h : s.ReadEdgeWrites t) (k : FaultKind) (w : Word) :
    s.ReadEdgeWrites (t.raiseFault k .control w) := by
  cases k
  · exact { h with }
  · exact { h with }

/-- A control-port step that is no datapath reset writes what its read edge does; the error flags and word only an illegal
word and a START of frequency 0 write. -/
theorem read_step_writers (h : step s = .next t) (hport : s.nextEdge.port = .control) (hr : s.resets = false) :
    s.ReadEdgeWrites t ∧
      (s.SameControlErrors t ∨
        (t.cerrFreq = s.cerrFreq ∧ ∃ w why, s.fetch s.nextEdge = .illegal w why) ∨
        (t.cerrIll = s.cerrIll ∧ ∃ n, s.fetch s.nextEdge = .command (.start 0) n)) := by
  have herr (n : Nat) : s.SameControlErrors (s.moved .control n).readEdge := (readEdge_frame (s.moved .control n)).2.1
  cases stepCase_of_step h with
  | idle p hf hp =>
    obtain rfl : p = .control := hp.symm.trans hport
    exact ⟨readEdge_writes_moved s 0, .inl (herr 0)⟩
  | illegal p w why hf hp =>
    obtain rfl : p = .control := hp.symm.trans hport
    obtain ⟨-, hfreq, -⟩ := herr 1
    exact ⟨(readEdge_writes_moved s 1).raiseFault _ w,
      .inr (.inl ⟨(State.illegal_control_cerrFreq _ w).trans hfreq, w, why, hf⟩)⟩
  | answer p i n v hf hp =>
    obtain rfl : p = .control := hp.symm.trans hport
    exact ⟨(readEdge_writes_moved s n).respond v, .inl (herr n)⟩
  | feed count data n hf hp => cases hp.symm.trans hport
  | zeroFrequency n hf hp =>
    obtain ⟨hill, -⟩ := herr n
    exact ⟨(readEdge_writes_moved s n).raiseFault _ _,
      .inr (.inr ⟨(State.zeroFreq_control_cerrIll _ _).trans hill, n, hf⟩)⟩
  | stop n hf hp => simp [State.resets, hf] at hr
  | init n hf hp => simp [State.resets, hf] at hr
  | start f n hf hp hne => exact absurd (by simpa [State.resets, hf] using hr) hne

/-- A step that is a datapath reset is one of the control port, and besides the reset only the timer and `initd` are written:
the timer by its tick, or programmed by INIT and START. -/
theorem reset_step_writers (h : step s = .next t) (hr : s.resets = true) :
    s.nextEdge.port = .control ∧ t.cfg = s.cfg ∧ s.SameWriteErrors t ∧ s.SameControlErrors t ∧ s.SameConverter t ∧
      s.SameMem t ∧ ((s.SameProgram t ∧ (s.trun = false → t.tpre = s.tpre ∧ t.tcnt = s.tcnt)) ∨
        ∃ i n, s.fetch s.nextEdge = .command i n ∧ (i = .init ∨ ∃ f, f ≠ 0 ∧ i = .start f)) ∧
      (t.initd = s.initd ∨ ∃ n, s.fetch s.nextEdge = .command .init n) := by
  cases stepCase_of_step h with
  | idle p hf => simp [State.resets, hf] at hr
  | illegal p w why hf => simp [State.resets, hf] at hr
  | answer p i n v hf hp hr' => simp [hr'] at hr
  | feed count data n hf => simp [State.resets, hf] at hr
  | zeroFrequency n hf => simp [State.resets, hf] at hr
  | stop n hf hp =>
    have htimer (htrun : s.trun = false) : s.timerTick.tpre = s.tpre ∧ s.timerTick.tcnt = s.tcnt := by simp [htrun]
    exact ⟨hp, rfl, ⟨rfl, rfl⟩, ⟨rfl, rfl, rfl⟩, ⟨rfl, rfl⟩, fun _ => rfl, .inl ⟨⟨rfl, rfl, rfl⟩, htimer⟩, .inl rfl⟩
  | init n hf hp =>
    exact ⟨hp, rfl, ⟨rfl, rfl⟩, ⟨rfl, rfl, rfl⟩, ⟨rfl, rfl⟩, fun _ => rfl, .inr ⟨_, n, hf, .inl rfl⟩, .inr ⟨n, hf⟩⟩
  | start f n hf hp hne =>
    exact ⟨hp, rfl, ⟨rfl, rfl⟩, ⟨rfl, rfl, rfl⟩, ⟨rfl, rfl⟩, fun _ => rfl, .inr ⟨_, n, hf, .inr ⟨f, hne, rfl⟩⟩, .inl rfl⟩

/-- Nothing follows from a change of one of two elements that rest. -/
theorem elim_change {α β : Type} {a a' : α} {b b' : β} {p : Prop} (ha : a = a') (hb : b = b') (h : a ≠ a' ∨ b ≠ b') : p :=
  h.elim (absurd ha) (absurd hb)

/-- Settles O50, by what the step's port does: a write edge, a normal read edge, or a datapath reset. Each row of the table
is then a rest or one of its writers. -/
theorem onlyTheListedWritersWrite : Obligations.OnlyTheListedWritersWrite := by
  intro s t h feeds programs acts illegal zeroFreq
  obtain hport | hport : s.nextEdge.port = .write ∨ s.nextEdge.port = .control := by cases s.nextEdge.port <;> simp
  · obtain ⟨-, hcfg, hread, hfeeds, hill⟩ := write_step_writers h hport
    obtain ⟨hrpub, hwsync, ⟨hrptr, hact, hen, hpend, headdr, hrem⟩, ⟨hdout, hout⟩, ⟨htrun, hA, hB⟩, hpre, hcnt, hinitd,
      hcill, hcfreq, hclast⟩ := hread
    exact ⟨hcfg, fun hne => .inl (hfeeds.resolve_left fun hsame => hne hsame.1), fun _ => .inl hport,
      fun hne => ⟨hport, hill.resolve_left fun hsame => elim_change hsame.1 hsame.2 hne⟩, elim_change hrptr hpend,
      elim_change hrpub hwsync, elim_change hact hen, elim_change headdr hrem,
      fun hne => hne.elim (absurd htrun) (elim_change hA hB), elim_change hpre hcnt, absurd hinitd, absurd hcill,
      absurd hcfreq, absurd hclast, elim_change hdout hout, fun hne => hfeeds.resolve_left fun hsame => hne hsame.2⟩
  obtain hr | hr : s.resets = false ∨ s.resets = true := by cases s.resets <;> simp
  · obtain ⟨hw, herr⟩ := read_step_writers h hport hr
    obtain ⟨hwptr, hwpub, hrsync, hwill, hwlast⟩ := hw.writeDomain
    obtain ⟨htrun, hA, hB⟩ := hw.program
    have act {a : Action} (ha : s.action = a) : acts a := ⟨hport, hr, ha⟩
    have runs (hne : t.tpre ≠ s.tpre ∨ t.tcnt ≠ s.tcnt) : s.trun = true :=
      Bool.of_not_eq_false fun hstop => elim_change (hw.timer hstop).1 (hw.timer hstop).2 hne
    have errs : (t.cerrIll ≠ s.cerrIll → illegal .control) ∧ (t.cerrFreq ≠ s.cerrFreq → zeroFreq) ∧
        (t.lastCerr ≠ s.lastCerr → illegal .control ∨ zeroFreq) := by
      rcases herr with ⟨hcill, hcfreq, hclast⟩ | ⟨hcfreq, hill⟩ | ⟨hcill, hzero⟩
      · exact ⟨absurd hcill, absurd hcfreq, absurd hclast⟩
      · exact ⟨fun _ => ⟨hport, hill⟩, absurd hcfreq, fun _ => .inl ⟨hport, hill⟩⟩
      · exact ⟨absurd hcill, fun _ => hzero, fun _ => .inr hzero⟩
    obtain ⟨hcill, hcfreq, hclast⟩ := errs
    exact ⟨hw.cfg, absurd hwptr, elim_change hwpub hrsync, elim_change hwill hwlast,
      fun hne => .inl (act (hw.complete hne)), fun _ => hport,
      fun hne => (hw.kick hne).imp act fun ha => .inl (act ha), fun hne => (hw.engine hne).imp act fun ha => .inl (act ha),
      fun hne => hne.elim (absurd htrun) (elim_change hA hB), fun hne => ⟨hport, .inl (runs hne)⟩, absurd hw.initd,
      hcill, hcfreq, hclast, fun hne => act (hw.converter hne), absurd hw.mem⟩
  · obtain ⟨-, hcfg, ⟨hwill, hwlast⟩, ⟨hcill, hcfreq, hclast⟩, ⟨hdout, hout⟩, hmem, htimer, hinitd⟩ :=
      reset_step_writers h hr
    have hprog (hne : t.trun ≠ s.trun ∨ t.tmrA ≠ s.tmrA ∨ t.tmrB ≠ s.tmrB) : programs :=
      htimer.resolve_left fun ⟨⟨htrun, hA, hB⟩, _⟩ => hne.elim (absurd htrun) (elim_change hA hB)
    have htick (hne : t.tpre ≠ s.tpre ∨ t.tcnt ≠ s.tcnt) : s.trun = true ∨ programs :=
      htimer.imp_left fun ⟨_, hstop⟩ =>
        Bool.of_not_eq_false fun hrest => elim_change (hstop hrest).1 (hstop hrest).2 hne
    exact ⟨hcfg, fun _ => .inr hr, fun _ => .inr hr, elim_change hwill hwlast, fun _ => .inr hr, fun _ => hport,
      fun _ => .inr (.inr hr), fun _ => .inr (.inr hr), hprog, fun hne => ⟨hport, htick hne⟩,
      fun hne => hinitd.resolve_left hne, absurd hcill, absurd hcfreq, absurd hclast, elim_change hdout hout, absurd hmem⟩

end Sys2Proof.Machine
end

section
/-! The unsent samples: where they stand in the buffer, and what a FEED, a COMPLETE and an ENGINE_XFER make of them
(20_memory.md R64, R70, R73, 42_transfer.md R165, R170). -/

namespace Sys2Proof

variable (c : Config)

/-! ## Distances and indices -/

/-- The distance from `b` forward to `a`, walked from `b`, ends at `a`. -/
theorem Config.add_diff_modEq (a b : Nat) : b + c.diff a b ≡ a [MOD c.M] := by
  have hzero (x : Nat) : c.diff x 0 = x % c.M := by simp [Config.diff]
  have h := c.diff_eq_add_mod a b 0
  rw [hzero, hzero, Nat.add_mod_mod, Nat.add_comm] at h
  exact h.symm

/-- A pointer advanced by `k` is `k` further from one behind it, within one turn of the ring. -/
theorem Config.diff_padd_left {a b k : Nat} (hk : c.diff a b + k < c.M) : c.diff (c.padd a k) b = c.diff a b + k := by
  have h : b + c.diff (c.padd a k) b ≡ b + (c.diff a b + k) [MOD c.M] :=
    calc b + c.diff (c.padd a k) b ≡ c.padd a k [MOD c.M] := c.add_diff_modEq _ _
      _ ≡ a + k [MOD c.M] := Nat.mod_modEq _ _
      _ ≡ b + c.diff a b + k [MOD c.M] := (c.add_diff_modEq a b).symm.add_right k
      _ = b + (c.diff a b + k) := Nat.add_assoc ..
  exact (h.add_left_cancel' b).eq_of_lt_of_lt (c.diff_lt _ _) hk

/-- Pointers that are equal on the ring name the same index. -/
theorem Config.idx_eq_of_modEq {p q : Nat} (h : p ≡ q [MOD c.M]) : c.idx p = c.idx q :=
  h.of_dvd (Dvd.intro_left 2 c.M_eq.symm)

namespace Machine

variable {s t : State}

/-! ## Free places and occupied places -/

/-- What the write domain counts as free is not occupied (40_buffer.md R121). -/
theorem occupied_add_freeW_le (h : s.Inv) : s.occupied + s.freeW ≤ s.cfg.N := by
  obtain ⟨hf, -, -, -, hring⟩ := h
  obtain ⟨hsum, hN⟩ := six_pointers_in_order hf hring
  have hpub := s.cfg.diff_le_add s.wptr s.wpub s.rptr
  have hview := s.cfg.diff_le_add s.wpub s.wptrR s.rptr
  unfold State.freeW State.occupied
  omega

/-- The chunk in flight is occupied (42_transfer.md R168). -/
theorem pending_le_occupied (h : s.Inv) : s.pending ≤ s.occupied := by
  obtain ⟨hf, -, -, ⟨-, -, -, -, -, -, hseen, -⟩, hring⟩ := h
  obtain ⟨hsum, hN⟩ := six_pointers_in_order hf hring
  have hwalk : s.cfg.walkFrom s.rptr ([s.wptrR, s.wpub] ++ [s.wptr]) ≤ s.cfg.N := by
    simp only [List.cons_append, List.nil_append, Config.walkFrom]; omega
  have heq := s.cfg.walkFrom_concat_eq hwalk
  simp only [List.cons_append, List.nil_append, Config.walkFrom] at heq
  unfold State.occR at hseen
  unfold State.occupied
  omega

/-- The places a FEED may store at are not those of the occupied samples: the ones follow the others within one capacity. -/
theorem idx_free_ne_idx_occupied (h : s.Inv) {j k : Nat} (hj : j < s.occupied) (hk : k < s.freeW) :
    s.cfg.idx (s.wptr + k) ≠ s.cfg.idx (s.rptr + j) := by
  intro he
  have hroom := occupied_add_freeW_le h
  have hwptr : s.cfg.idx (s.rptr + (s.occupied + k)) = s.cfg.idx (s.wptr + k) := by
    rw [← Nat.add_assoc]
    exact s.cfg.idx_eq_of_modEq ((s.cfg.add_diff_modEq s.wptr s.rptr).add_right k)
  have hsame : s.occupied + k ≡ j [MOD s.cfg.N] := Nat.ModEq.add_left_cancel' s.rptr (hwptr.trans he)
  have := hsame.eq_of_lt_of_lt (by omega) (by omega)
  omega

/-! ## BUF_WRITE -/

/-- A read depends on the index alone. -/
theorem State.memRead_congr (s : State) {p q : Nat} (h : s.cfg.idx p = s.cfg.idx q) : s.memRead p = s.memRead q := by
  rw [State.memRead, State.memRead, h]

/-- An occupied sample reads the same after a BUF_WRITE into free places. -/
theorem memRead_bufWrite_occupied (h : s.Inv) {xs : List Sample} (hlen : xs.length ≤ s.freeW) {j : Nat}
    (hj : j < s.occupied) : (s.bufWrite xs).memRead (s.rptr + j) = s.memRead (s.rptr + j) := by
  rw [State.memRead, State.memRead, State.bufWrite_cfg, State.bufWrite_mem,
    find_writeSamples_other _ _ _ _ _ fun k hk => (idx_free_ne_idx_occupied h hj (hk.trans_le hlen)).symm]

/-- A sample of a payload no larger than the buffer reads back from its place. -/
theorem memRead_bufWrite_payload {xs : List Sample} (hlen : xs.length ≤ s.cfg.N) {k : Nat} (hk : k < xs.length) :
    (s.bufWrite xs).memRead (s.wptr + k) = xs[k] := by
  rw [State.memRead, State.bufWrite_cfg, State.bufWrite_mem,
    find_writeSamples_same _ _ _ _ _ _ hlen (List.getElem?_eq_getElem hk)]

/-! ## The unsent samples -/

/-- The samples from the pointer `p` up to the write pointer, oldest first. -/
def State.samplesFrom (s : State) (p : Nat) : List Sample :=
  (List.range (s.cfg.diff s.wptr p)).map fun k => s.memRead (p + k)

theorem State.unsent_eq (s : State) : s.unsent = s.samplesFrom s.sentTo := rfl

/-- Pointers that are equal on the ring have the same samples after them. -/
theorem State.samplesFrom_padd (s : State) (p k : Nat) : s.samplesFrom (s.cfg.padd p k) = s.samplesFrom (p + k) := by
  have hring : s.cfg.padd p k ≡ p + k [MOD s.cfg.M] := Nat.mod_modEq _ _
  have hdiff : s.cfg.diff s.wptr (s.cfg.padd p k) = s.cfg.diff s.wptr (p + k) := by simp [Config.diff, Config.padd]
  rw [State.samplesFrom, State.samplesFrom, hdiff]
  exact List.map_congr_left fun j _ => s.memRead_congr (s.cfg.idx_eq_of_modEq (hring.add_right j))

/-- The unsent samples are the occupied ones without those of the chunk already moved. -/
theorem diff_sentTo (h : s.Inv) : s.cfg.diff s.wptr s.sentTo = s.occupied - (s.pending - s.remaining) := by
  have hpend : s.pending - s.remaining ≤ s.cfg.diff s.wptr s.rptr := (Nat.sub_le ..).trans (pending_le_occupied h)
  obtain ⟨⟨hwptr, -, hrptr, -⟩, -⟩ := h
  rw [State.occupied, ← s.cfg.diff_padd_right hwptr hrptr hpend]
  simp [Config.diff, Config.padd, State.sentTo]

/-! ## The sequence of samples -/

/-- The samples output, and after them the unsent ones (70_reset_and_hazards.md R287). -/
def State.samples (s : State) : List Sample := s.out ++ s.unsent

theorem samples_moved (p : Port) (n : Nat) : (s.moved p n).samples = s.samples := by cases p <;> rfl

theorem samples_respond (p : Port) (v : Word) : (s.respond p v).samples = s.samples := by cases p <;> rfl

theorem samples_raiseFault (k : FaultKind) (p : Port) (w : Word) : (s.raiseFault k p w).samples = s.samples := by
  cases p <;> cases k <;> rfl

/-- BUF_WRITE into free places puts its samples after all others (40_buffer.md R123). -/
theorem samples_bufWrite (h : s.Inv) {xs : List Sample} (hlen : xs.length ≤ s.freeW) :
    (s.bufWrite xs).samples = s.samples ++ xs := by
  have hroom := occupied_add_freeW_le h
  have hpend := pending_le_occupied h
  have hcount := diff_sentTo h
  have hN := s.cfg.N_pos
  have hM := s.cfg.M_eq
  have hmore : s.cfg.diff (s.bufWrite xs).wptr s.sentTo = s.cfg.diff s.wptr s.sentTo + xs.length :=
    s.cfg.diff_padd_left (by omega)
  have hold : ∀ k < s.cfg.diff s.wptr s.sentTo, (s.bufWrite xs).memRead (s.sentTo + k) = s.memRead (s.sentTo + k) := by
    intro k hk
    rw [State.sentTo, Nat.add_assoc]
    exact memRead_bufWrite_occupied h hlen (by omega)
  have hnew : ∀ k (hk : k < xs.length),
      (s.bufWrite xs).memRead (s.sentTo + (s.cfg.diff s.wptr s.sentTo + k)) = xs[k] := by
    intro k hk
    rw [← memRead_bufWrite_payload (s := s) (by omega) hk, ← Nat.add_assoc]
    exact (s.bufWrite xs).memRead_congr (s.cfg.idx_eq_of_modEq ((s.cfg.add_diff_modEq _ _).add_right k))
  have hunsent : (s.bufWrite xs).unsent = s.unsent ++ xs := by
    have hfrom : (s.bufWrite xs).unsent = (s.bufWrite xs).samplesFrom s.sentTo := rfl
    rw [hfrom, State.samplesFrom, State.bufWrite_cfg, hmore, List.range_add, List.map_append]
    refine congrArg₂ _ (List.map_congr_left fun k hk => hold k (List.mem_range.mp hk)) ?_
    refine List.ext_getElem (by simp) fun k _ hk => ?_
    simpa using hnew k hk
  rw [State.samples, hunsent, State.samples, List.append_assoc]
  rfl

/-- ENGINE_XFER outputs the oldest unsent sample (42_transfer.md R170). -/
theorem samples_engineXfer (h : s.Inv) (hpos : 0 < s.remaining) : s.engineXfer.samples = s.samples := by
  have hcount := diff_sentTo h
  have hcount' : s.cfg.diff s.wptr s.engineXfer.sentTo = s.occupied - (s.pending - (s.remaining - 1)) :=
    diff_sentTo (inv_engineXfer h hpos)
  have hpend := pending_le_occupied h
  obtain ⟨-, -, -, ⟨-, -, hrem, -, headdr, -⟩, -⟩ := h
  have hnext : s.engineXfer.sentTo = s.sentTo + 1 := by
    simp only [State.sentTo, State.engineXfer_rptr, State.engineXfer_pending, State.engineXfer_remaining]; omega
  have hless : s.cfg.diff s.wptr s.sentTo = s.cfg.diff s.wptr (s.sentTo + 1) + 1 := by rw [← hnext]; omega
  have hhead : s.memRead (s.sentTo + 0) = s.memRead s.eaddr :=
    s.memRead_congr ((congrArg s.cfg.idx headdr).trans (Nat.mod_mod _ _)).symm
  have htail : s.engineXfer.unsent = s.samplesFrom (s.sentTo + 1) := by rw [← hnext]; rfl
  have hunsent : s.unsent = s.memRead s.eaddr :: s.engineXfer.unsent := by
    rw [htail, State.unsent_eq, State.samplesFrom, State.samplesFrom, hless, List.range_succ_eq_map, List.map_cons, hhead,
      List.map_map]
    refine congrArg _ (List.map_congr_left fun k _ => congrArg s.memRead ?_)
    simp only [Nat.succ_eq_add_one]; omega
  rw [State.samples, State.samples, hunsent, State.engineXfer_out, List.append_assoc, List.singleton_append]

/-- A COMPLETE, which begins its next chunk where the last one ended, releases samples already output (42_transfer.md
R165). -/
theorem samples_of_release (hsig : s.cmplSig = true) (hout : t.out = s.out) (hunsent : t.unsent = s.samplesFrom t.sentTo)
    (hsent : t.sentTo = s.advancedRptr) : t.samples = s.samples := by
  obtain ⟨-, hzero⟩ := (cmplSig_iff s).mp hsig
  have hfrom : s.samplesFrom s.advancedRptr = s.unsent := by
    rw [State.advancedRptr, s.samplesFrom_padd, State.unsent_eq, State.sentTo, hzero, Nat.sub_zero]
  rw [State.samples, hout, hunsent, hsent, hfrom, State.samples]

/-- A normal read edge keeps the sequence of samples, whatever its action. -/
theorem samples_readEdge (h : s.Inv) : s.readEdge.samples = s.samples := by
  rcases readEdge_cases s with ⟨⟨-, hpos⟩, -, e⟩ | ⟨-, hsig, -, ⟨-, e⟩ | ⟨-, e⟩⟩ | ⟨-, -, -, -, e⟩ | ⟨-, -, -, -, e⟩ <;>
    rw [e]
  · exact samples_engineXfer (inv_timerTick (inv_readCrossing h)) hpos
  · exact samples_of_release hsig rfl rfl (by simp [State.sentTo])
  · exact samples_of_release hsig rfl rfl (by simp [State.sentTo])
  · rfl
  · rfl

theorem samples_idleEdge (h : s.Inv) (p : Port) : (s.idleEdge p).samples = s.samples := by
  cases p
  · rfl
  · exact samples_readEdge h

/-! ## FEED -/

/-- A FEED that completes has its COUNT of data words, and stores them or is refused (43_commands.md R194). -/
theorem exec_feed_cases {count : BitVec 28} {data : List Word} (h : exec (.feed count data) s = .next t) :
    data.length = count.toNat ∧
      ((count.toNat ≤ s.freeW ∧ t = (s.writeEdge.bufWrite (s.payload data)).respond .write 1) ∨
        (s.freeW < count.toNat ∧ t = s.writeEdge.respond .write 0)) := by
  simp only [exec, execFeed] at h
  split at h
  · cases h
  have hlen : data.length = count.toNat := not_not.mp ‹_›
  split at h <;> obtain rfl := Host.Outcome.next.inj h
  · exact ⟨hlen, .inl ⟨‹_›, rfl⟩⟩
  · exact ⟨hlen, .inr ⟨not_le.mp ‹_›, rfl⟩⟩

/-- Settles O58: the free places lie after the occupied ones within one capacity, so what a FEED stores goes elsewhere, and a
refused FEED stores nothing. -/
theorem feedNeverOverwritesAnUnsentSample : Obligations.FeedNeverOverwritesAnUnsentSample := by
  intro count data s t h hexec
  refine ⟨fun j hj => ?_, fun hfree k hk j hj => idx_free_ne_idx_occupied h hj (hk.trans_le hfree)⟩
  obtain ⟨hlen, ⟨hfree, rfl⟩ | ⟨-, rfl⟩⟩ := exec_feed_cases hexec
  · exact memRead_bufWrite_occupied h (by rwa [State.payload, List.length_map, hlen]) hj
  · rfl

/-! ## The step -/

/-- A step accepts nothing unless it consumes a FEED that `free_w` has room for. -/
theorem accepts_eq_nil
    (h : ¬∃ count data n, s.fetch s.nextEdge = .command (.feed count data) n ∧ count.toNat ≤ s.freeW) :
    s.accepts = [] := by
  unfold State.accepts
  split
  · exact if_neg fun hfree => h ⟨_, _, _, ‹_›, hfree⟩
  · rfl

/-- The step of a FEED that `free_w` has room for stores its payload (43_commands.md R194). -/
theorem step_of_accepted_feed {count : BitVec 28} {data : List Word} {n : Nat} (h : step s = .next t)
    (hf : s.fetch s.nextEdge = .command (.feed count data) n) (hfree : count.toNat ≤ s.freeW) :
    data.length = count.toNat ∧ t = ((s.moved .write n).writeEdge.bufWrite (s.payload data)).respond .write 1 := by
  obtain ⟨hport, -⟩ := fetch_command hf
  rw [step_of_fetch_command hf, ← hport] at h
  obtain ⟨hlen, ⟨-, rfl⟩ | ⟨hfull, -⟩⟩ := exec_feed_cases h
  · exact ⟨hlen, rfl⟩
  · exact absurd hfree (not_le.mpr hfull)

/-- Settles O56: an accepted FEED is a BUF_WRITE into free places; every other step that is no datapath reset is an edge of
its port, with an answer or a fault that moves no sample. -/
theorem everyStepKeepsTheSampleOrder : Obligations.EveryStepKeepsTheSampleOrder := by
  intro s t h hst hr
  change t.samples = s.samples ++ s.accepts
  by_cases hacc : ∃ count data n, s.fetch s.nextEdge = .command (.feed count data) n ∧ count.toNat ≤ s.freeW
  · obtain ⟨count, data, n, hf, hfree⟩ := hacc
    obtain ⟨hlen, rfl⟩ := step_of_accepted_feed hst hf hfree
    have haccepts : s.accepts = s.payload data := by simp only [State.accepts, hf, if_pos hfree]
    have hroom : (s.payload data).length ≤ s.freeW := by rwa [State.payload, List.length_map, hlen]
    rw [haccepts, samples_respond]
    exact samples_bufWrite h hroom
  · rw [accepts_eq_nil hacc, List.append_nil]
    cases stepCase_of_step hst with
    | idle p hf hp => rw [samples_idleEdge (inv_moved h (Nat.zero_le _)), samples_moved]
    | illegal p w why hf hp =>
      rw [State.illegalEdge, samples_raiseFault, samples_idleEdge (inv_moved h (hp ▸ fetch_illegal hf)), samples_moved]
    | answer p i n v hf hp =>
      rw [samples_respond, samples_idleEdge (hp ▸ inv_moved_of_fetch h hf), samples_moved]
    | feed count data n hf hp hlen hfree => exact absurd ⟨count, data, n, hf, hfree⟩ hacc
    | zeroFrequency n hf hp =>
      rw [samples_raiseFault, samples_readEdge (hp ▸ inv_moved_of_fetch h hf), samples_moved]
    | stop n hf => simp [State.resets, hf] at hr
    | init n hf => simp [State.resets, hf] at hr
    | start f n hf hp hne => exact absurd (by simpa [State.resets, hf] using hr) hne

end Machine

end Sys2Proof
end

section
/-! The command words of the two ports (30_encoding.md R85 to R91): each legal head has one word, so a port reads a head exactly
from that word, and every other word is illegal there. -/

namespace Sys2Proof

/-! ## The word of a head -/

/-- The command word of a legal head (30_encoding.md R85, R88, R89); none for an illegal one, which many words read as. -/
def Head.word (h : Head) : Option Word :=
  match h with
  | .nop => some (commandWord 0x0 0)
  | .feed count => some (commandWord 0x1 count)
  | .rdfree => some (commandWord 0x2 0)
  | .rdw sel => some (commandWord 0x3 (BitVec.ofNat 28 sel.number))
  | .init => some (commandWord 0x8 0)
  | .start => some (commandWord 0x9 0)
  | .stop => some (commandWord 0xA 0)
  | .rdc sel => some (commandWord 0xB (BitVec.ofNat 28 sel.number))
  | .illegal _ => none

theorem eq_commandWord_iff {w : Word} {op : BitVec 4} {arg : BitVec 28} :
    w = commandWord op arg ↔ w.toNat = op.toNat * 2 ^ 28 + arg.toNat := by
  rw [← BitVec.toNat_inj, commandWord_toNat]

theorem eq_commandWord_of_opField {w : Word} {op : BitVec 4} (h : (opField w).toNat = op.toNat) :
    w = commandWord op (argField w) := by
  rw [← BitVec.eq_of_toNat_eq h, commandWord_fields]

/-- The word of a head reads as that head on a port of the head's. -/
theorem headOf_of_word {p : Port} {h : Head} {w : Word} (hw : h.word = some w) (hp : h.isOn p = true) :
    headOf p w = h := by
  cases p <;> cases h <;> cases hp <;> cases hw <;> simp

/-- A word whose reserved ARG must be 0 is the word of its head, or illegal (30_encoding.md R87). -/
theorem word_headOfZeroArg {w : Word} {h : Head} {op : BitVec 4} (hop : (opField w).toNat = op.toNat)
    (hh : h.word = some (commandWord op 0)) :
    (headOfZeroArg w h).word = some w ∨ ∃ why, headOfZeroArg w h = .illegal why := by
  unfold headOfZeroArg
  split
  case isTrue harg => exact .inl (by rw [hh, ← harg, ← eq_commandWord_of_opField hop])
  case isFalse => exact .inr ⟨_, rfl⟩

/-- A write-port word is the word of the head it reads as, or illegal. -/
theorem word_decodeW (w : Word) : (decodeW w).word = some w ∨ ∃ why, decodeW w = .illegal why := by
  unfold decodeW
  split
  case h_1 hop => exact word_headOfZeroArg (op := 0x0) hop rfl
  case h_2 hop => exact .inl (congrArg some (eq_commandWord_of_opField (op := 0x1) hop).symm)
  case h_3 hop => exact word_headOfZeroArg (op := 0x2) hop rfl
  case h_4 hop =>
    split
    · split
      case h_1 sel hsel =>
        refine .inl (congrArg some ?_)
        rw [WSel.number_of_ofNumber hsel, BitVec.ofNat_toNat, BitVec.setWidth_eq]
        exact (eq_commandWord_of_opField (op := 0x3) hop).symm
      case h_2 => exact .inr ⟨_, rfl⟩
    · exact .inr ⟨_, rfl⟩
  all_goals exact .inr ⟨_, rfl⟩

/-- A control-port word is the word of the head it reads as, or illegal. -/
theorem word_decodeC (w : Word) : (decodeC w).word = some w ∨ ∃ why, decodeC w = .illegal why := by
  unfold decodeC
  split
  case h_1 hop => exact word_headOfZeroArg (op := 0x0) hop rfl
  case h_2 hop => exact word_headOfZeroArg (op := 0x8) hop rfl
  case h_3 hop => exact word_headOfZeroArg (op := 0x9) hop rfl
  case h_4 hop => exact word_headOfZeroArg (op := 0xA) hop rfl
  case h_5 hop =>
    split
    · split
      case h_1 sel hsel =>
        refine .inl (congrArg some ?_)
        rw [CSel.number_of_ofNumber hsel, BitVec.ofNat_toNat, BitVec.setWidth_eq]
        exact (eq_commandWord_of_opField (op := 0xB) hop).symm
      case h_2 => exact .inr ⟨_, rfl⟩
    · exact .inr ⟨_, rfl⟩
  all_goals exact .inr ⟨_, rfl⟩

theorem word_headOf (p : Port) (w : Word) : (headOf p w).word = some w ∨ illegalOn p w := by
  cases p
  · exact word_decodeW w
  · exact word_decodeC w

/-- The word a port reads as a legal head is that head's word. -/
theorem word_of_headOf {p : Port} {w : Word} {h : Head} (hd : headOf p w = h) (hh : ∀ why, h ≠ .illegal why) :
    h.word = some w := by
  subst hd
  exact (word_headOf p w).resolve_right fun ⟨why, hill⟩ => hh why hill

/-- A word that reads as a legal head is not illegal. -/
theorem not_illegalOn_of_headOf {p : Port} {w : Word} {h : Head} (hd : headOf p w = h) (hh : ∀ why, h ≠ .illegal why) :
    ¬illegalOn p w :=
  fun ⟨why, hill⟩ => hh why (hd.symm.trans hill)

/-- A port reads a legal head of its own from that head's word and from no other. -/
theorem headOf_eq_iff {p : Port} {h : Head} {v w : Word} (hv : h.word = some v) (hp : h.isOn p = true) :
    headOf p w = h ↔ w = v := by
  refine ⟨fun hw => Option.some.inj ((word_of_headOf hw ?_).symm.trans hv), fun hw => headOf_of_word (hw ▸ hv) hp⟩
  rintro why rfl
  cases hv

/-- A port reads no head of the other port's commands (30_encoding.md R86). -/
theorem headOf_ne {p : Port} {w : Word} {h : Head} (hp : h.isOn p = false) : headOf p w ≠ h := by
  rintro rfl
  rw [headOf_isOn] at hp
  cases hp

/-! ## Every word of each port -/

theorem WSel.toNat_number (sel : WSel) : (BitVec.ofNat 28 sel.number).toNat = sel.number := by cases sel <;> rfl

theorem CSel.toNat_number (sel : CSel) : (BitVec.ofNat 28 sel.number).toNat = sel.number := by cases sel <;> rfl

theorem WSel.exists_number {k : Nat} (h : k < 5) : ∃ sel : WSel, sel.number = k := by
  interval_cases k
  exacts [⟨.wptr, rfl⟩, ⟨.wpub, rfl⟩, ⟨.rptrW, rfl⟩, ⟨.wstatus, rfl⟩, ⟨.lastWerr, rfl⟩]

theorem CSel.exists_number {k : Nat} (h : k < 14) : ∃ sel : CSel, sel.number = k := by
  interval_cases k
  exacts [⟨.status, rfl⟩, ⟨.rptr, rfl⟩, ⟨.rpub, rfl⟩, ⟨.wptrR, rfl⟩, ⟨.occR, rfl⟩, ⟨.freeR, rfl⟩, ⟨.pending, rfl⟩,
    ⟨.remaining, rfl⟩, ⟨.eaddr, rfl⟩, ⟨.tmrA, rfl⟩, ⟨.tmrB, rfl⟩, ⟨.tcnt, rfl⟩, ⟨.dout, rfl⟩, ⟨.lastCerr, rfl⟩]

theorem decodeW_nop_iff {w : Word} : decodeW w = .nop ↔ w.toNat = 0 :=
  (headOf_eq_iff (p := .write) rfl rfl).trans eq_commandWord_iff

theorem decodeW_feed_iff {w : Word} {count : BitVec 28} :
    decodeW w = .feed count ↔ w.toNat = 0x10000000 + count.toNat :=
  (headOf_eq_iff (p := .write) rfl rfl).trans eq_commandWord_iff

theorem decodeW_rdfree_iff {w : Word} : decodeW w = .rdfree ↔ w.toNat = 0x20000000 :=
  (headOf_eq_iff (p := .write) rfl rfl).trans eq_commandWord_iff

theorem decodeW_rdw_iff {w : Word} {sel : WSel} : decodeW w = .rdw sel ↔ w.toNat = 0x30000000 + sel.number := by
  refine (headOf_eq_iff (p := .write) rfl rfl).trans (eq_commandWord_iff.trans ?_)
  rw [WSel.toNat_number]
  rfl

/-- The words that are commands of the write port. -/
theorem not_illegalOn_write_iff {w : Word} :
    ¬illegalOn .write w ↔
      w.toNat = 0 ∨ (0x10000000 ≤ w.toNat ∧ w.toNat ≤ 0x20000000) ∨ (0x30000000 ≤ w.toNat ∧ w.toNat ≤ 0x30000004) := by
  constructor
  · intro hlegal
    cases hd : decodeW w with
    | nop => exact .inl (decodeW_nop_iff.mp hd)
    | feed count => 
      have := decodeW_feed_iff.mp hd
      omega
    | rdfree => 
      have := decodeW_rdfree_iff.mp hd
      omega
    | rdw sel =>
      have := decodeW_rdw_iff.mp hd
      have := sel.number_lt
      omega
    | illegal why => exact absurd ⟨why, hd⟩ hlegal
    | init | start | stop | rdc => exact absurd hd (headOf_ne (p := .write) rfl)
  · rintro (h0 | ⟨hlo, hhi⟩ | ⟨hlo, hhi⟩)
    · exact not_illegalOn_of_headOf (decodeW_nop_iff.mpr h0) nofun
    · by_cases hrdfree : w.toNat = 0x20000000
      · exact not_illegalOn_of_headOf (decodeW_rdfree_iff.mpr hrdfree) nofun
      · have hfeed : w.toNat = 0x10000000 + (argField w).toNat := by rw [argField_toNat]; omega
        exact not_illegalOn_of_headOf (decodeW_feed_iff.mpr hfeed) nofun
    · obtain ⟨sel, hsel⟩ := WSel.exists_number (k := w.toNat - 0x30000000) (by omega)
      exact not_illegalOn_of_headOf (decodeW_rdw_iff (sel := sel).mpr (by omega)) nofun

theorem decodeC_nop_iff {w : Word} : decodeC w = .nop ↔ w.toNat = 0 :=
  (headOf_eq_iff (p := .control) rfl rfl).trans eq_commandWord_iff

theorem decodeC_init_iff {w : Word} : decodeC w = .init ↔ w.toNat = 0x80000000 :=
  (headOf_eq_iff (p := .control) rfl rfl).trans eq_commandWord_iff

theorem decodeC_start_iff {w : Word} : decodeC w = .start ↔ w.toNat = 0x90000000 :=
  (headOf_eq_iff (p := .control) rfl rfl).trans eq_commandWord_iff

theorem decodeC_stop_iff {w : Word} : decodeC w = .stop ↔ w.toNat = 0xA0000000 :=
  (headOf_eq_iff (p := .control) rfl rfl).trans eq_commandWord_iff

theorem decodeC_rdc_iff {w : Word} {sel : CSel} : decodeC w = .rdc sel ↔ w.toNat = 0xB0000000 + sel.number := by
  refine (headOf_eq_iff (p := .control) rfl rfl).trans (eq_commandWord_iff.trans ?_)
  rw [CSel.toNat_number]
  rfl

/-- The words that are commands of the control port. -/
theorem not_illegalOn_control_iff {w : Word} :
    ¬illegalOn .control w ↔
      w.toNat = 0 ∨ w.toNat = 0x80000000 ∨ w.toNat = 0x90000000 ∨ w.toNat = 0xA0000000 ∨
        (0xB0000000 ≤ w.toNat ∧ w.toNat ≤ 0xB000000D) := by
  constructor
  · intro hlegal
    cases hd : decodeC w with
    | nop => exact .inl (decodeC_nop_iff.mp hd)
    | init => exact .inr (.inl (decodeC_init_iff.mp hd))
    | start => exact .inr (.inr (.inl (decodeC_start_iff.mp hd)))
    | stop => exact .inr (.inr (.inr (.inl (decodeC_stop_iff.mp hd))))
    | rdc sel =>
      have := decodeC_rdc_iff.mp hd
      have := sel.number_lt
      omega
    | illegal why => exact absurd ⟨why, hd⟩ hlegal
    | feed | rdfree | rdw => exact absurd hd (headOf_ne (p := .control) rfl)
  · rintro (h0 | hinit | hstart | hstop | ⟨hlo, hhi⟩)
    · exact not_illegalOn_of_headOf (decodeC_nop_iff.mpr h0) nofun
    · exact not_illegalOn_of_headOf (decodeC_init_iff.mpr hinit) nofun
    · exact not_illegalOn_of_headOf (decodeC_start_iff.mpr hstart) nofun
    · exact not_illegalOn_of_headOf (decodeC_stop_iff.mpr hstop) nofun
    · obtain ⟨sel, hsel⟩ := CSel.exists_number (k := w.toNat - 0xB0000000) (by omega)
      exact not_illegalOn_of_headOf (decodeC_rdc_iff (sel := sel).mpr (by omega)) nofun

theorem illegalOn_write_iff {w : Word} :
    illegalOn .write w ↔
      ¬(w.toNat = 0 ∨ (0x10000000 ≤ w.toNat ∧ w.toNat ≤ 0x20000000) ∨
        (0x30000000 ≤ w.toNat ∧ w.toNat ≤ 0x30000004)) :=
  (not_iff_comm.mp not_illegalOn_write_iff).symm

theorem illegalOn_control_iff {w : Word} :
    illegalOn .control w ↔
      ¬(w.toNat = 0 ∨ w.toNat = 0x80000000 ∨ w.toNat = 0x90000000 ∨ w.toNat = 0xA0000000 ∨
        (0xB0000000 ≤ w.toNat ∧ w.toNat ≤ 0xB000000D)) :=
  (not_iff_comm.mp not_illegalOn_control_iff).symm

/-- Settles O4: each command of the write port has one word, FEED one for each COUNT and RDW one for each selector. -/
theorem writePortReadsEveryWord : Obligations.WritePortReadsEveryWord := fun _ =>
  ⟨decodeW_nop_iff, fun _ => decodeW_feed_iff, decodeW_rdfree_iff, fun _ => decodeW_rdw_iff, illegalOn_write_iff⟩

/-- Settles O5: each command of the control port has one word, RDC one for each selector. -/
theorem controlPortReadsEveryWord : Obligations.ControlPortReadsEveryWord := fun _ =>
  ⟨decodeC_nop_iff, decodeC_init_iff, decodeC_start_iff, decodeC_stop_iff, fun _ => decodeC_rdc_iff,
    illegalOn_control_iff⟩

/-! ## Opcodes and reserved fields (30_encoding.md R86, R87) -/

/-- The word with an opcode and no argument has that opcode. -/
theorem toNat_commandWord_opField_zero (w : Word) :
    (commandWord (opField w) 0).toNat = w.toNat / 2 ^ 28 * 2 ^ 28 := by
  rw [commandWord_toNat, opField_toNat]
  exact Nat.add_zero _

/-- Both ports read an opcode 0 word alike: NOP, or illegal for its argument. -/
theorem decodeW_eq_decodeC_of_opField_zero {w : Word} (h : w.toNat / 2 ^ 28 = 0) : decodeW w = decodeC w := by
  rw [← opField_toNat] at h
  simp only [decodeW, decodeC, h]

/-- Settles O6: the legal words of the other port lie outside the opcode's range, and the word with the opcode and no
argument is a command of its own port. -/
theorem opcodesAreLegalOnTheirPort : Obligations.OpcodesAreLegalOnTheirPort := by
  intro w
  have hv := toNat_commandWord_opField_zero w
  refine ⟨fun ⟨hlo, hhi⟩ => ⟨illegalOn_control_iff.mpr (by omega), commandWord (opField w) 0, by omega, ?_⟩,
    fun ⟨hlo, hhi⟩ => ⟨illegalOn_write_iff.mpr (by omega), commandWord (opField w) 0, by omega, ?_⟩,
    fun h0 => ⟨decodeW_eq_decodeC_of_opField_zero h0, rfl⟩⟩
  · exact not_exists.mp (not_illegalOn_write_iff.mpr (by omega))
  · exact not_exists.mp (not_illegalOn_control_iff.mpr (by omega))

/-- The sample of a data word is its low W bits (30_encoding.md R83). -/
theorem toNat_sampleOf (c : Config) (d : Word) : (c.sampleOf d).toNat = d.toNat % 2 ^ c.W := by
  have hle : d.toNat % 2 ^ c.W ≤ d.toNat := Nat.mod_le _ _
  rw [Config.sampleOf, BitVec.toNat_ofNat, Nat.mod_eq_of_lt (hle.trans_lt d.isLt)]

/-- A word with a non-zero reserved field is a legal word of neither port: the whole ARG is reserved beside opcodes 0, 2, 8,
9 and 0xA, the bits above the selector beside 3 and 0xB. -/
theorem illegalOn_of_reserved {w : Word} (p : Port)
    (h : (w.toNat / 2 ^ 28 ∈ [0x0, 0x2, 0x8, 0x9, 0xA] ∧ w.toNat % 2 ^ 28 ≠ 0) ∨
      (w.toNat / 2 ^ 28 ∈ [0x3, 0xB] ∧ w.toNat % 2 ^ 28 / 16 ≠ 0)) : illegalOn p w := by
  simp only [List.mem_cons, List.not_mem_nil, or_false] at h
  cases p
  · exact illegalOn_write_iff.mpr (by omega)
  · exact illegalOn_control_iff.mpr (by omega)

/-- Settles O7: a non-zero reserved field leaves the legal words, and a legal head has one word. -/
theorem reservedFieldsMustBeZero : Obligations.ReservedFieldsMustBeZero := by
  refine ⟨fun p w hop harg => illegalOn_of_reserved p (.inl ⟨hop, harg⟩),
    fun p w hop harg => illegalOn_of_reserved p (.inr ⟨hop, harg⟩), fun p v w heq hlegal => ?_, fun c d e => ?_⟩
  · exact Option.some.inj ((word_of_headOf rfl hlegal).symm.trans (word_of_headOf heq.symm hlegal))
  · rw [← BitVec.toNat_inj, toNat_sampleOf, toNat_sampleOf]

end Sys2Proof
end

section
/-! Round trips of the encoding, the lengths of commands and the assembler (30_encoding.md R82 to R84, R90, R93, R96). -/

namespace Sys2Proof

/-! ## Round trips -/

/-- The words of a well-formed command decode to it, whatever follows them. -/
theorem decode_encode_append {i : Instr} (rest : List Word) (h : i.wf = true) :
    decode i.port (encode i ++ rest) = .command i (encode i).length := by
  cases i with
  | feed count data =>
    have hlen : data.length = count.toNat := by simpa [Instr.wf] using h
    simp [decode, encode, Instr.port, ← hlen, Nat.add_comm]
  | nop | rdfree | rdw | init | start | stop | rdc => simp [decode, encode, Instr.port]

/-- Settles O1: the command word reads as the command's head, and the operands are taken as they stand. -/
theorem decodeOfEncodeIsTheCommand : Obligations.DecodeOfEncodeIsTheCommand := fun _ rest h =>
  decode_encode_append rest h

/-- The words a command was read from are the encoder's. -/
theorem encode_of_decode {p : Port} {ws : List Word} {i : Instr} {n : Nat} (h : decode p ws = .command i n) :
    encode i = ws.take n := by
  cases ws with
  | nil => cases h
  | cons w rest =>
    rcases decode_command_cases h with ⟨hd, rfl, rfl⟩ | ⟨count, hd, -, rfl, rfl⟩ | ⟨hd, rfl, rfl⟩ | ⟨sel, hd, rfl, rfl⟩ |
      ⟨hd, rfl, rfl⟩ | ⟨f, tail, hd, rfl, rfl, rfl⟩ | ⟨hd, rfl, rfl⟩ | ⟨sel, hd, rfl, rfl⟩ <;>
      obtain rfl := Option.some.inj (word_of_headOf hd nofun)
    case inr.inl => rw [encode, Nat.add_comm, List.take_succ_cons]
    all_goals rfl

/-- Settles O2: what is read is the word of the head and the operands after it. -/
theorem encodeOfDecodeIsTheWords : Obligations.EncodeOfDecodeIsTheWords := by
  intro p ws i n h
  obtain ⟨hn, hwf⟩ := length_of_decode h
  have hwords := encode_of_decode h
  exact ⟨hwf, port_of_decode h, by rw [hwords, List.length_take_of_le hn], hwords⟩

/-- Settles O3, by evaluating the decoder and the encoder on the words of 30_encoding.md R96. -/
theorem encodingExamplesDecode : Obligations.EncodingExamplesDecode := by
  refine ⟨?_, ?_, ?_, ?_, ?_, ?_, ?_, ?_, ?_, ?_, ?_, ?_⟩ <;> decide

/-! ## Lengths (30_encoding.md R82) -/

/-- Only FEED and START have operands. -/
theorem commandLength_eq_one {p : Port} {w : Word} (hfeed : ∀ count, headOf p w ≠ .feed count)
    (hstart : headOf p w ≠ .start) : commandLength p w = 1 := by
  unfold commandLength
  cases hd : headOf p w with
  | feed count => exact absurd hd (hfeed count)
  | start => exact absurd hd hstart
  | nop | rdfree | rdw | init | stop | rdc | illegal => rfl

/-- The decoder takes a command's length from its command word. -/
theorem length_eq_commandLength {p : Port} {w : Word} {rest : List Word} {i : Instr} {n : Nat}
    (h : decode p (w :: rest) = .command i n) : n = commandLength p w := by
  unfold commandLength
  rcases decode_command_cases h with ⟨hd, -, rfl⟩ | ⟨count, hd, -, -, rfl⟩ | ⟨hd, -, rfl⟩ | ⟨sel, hd, -, rfl⟩ |
    ⟨hd, -, rfl⟩ | ⟨f, tail, hd, -, -, rfl⟩ | ⟨hd, -, rfl⟩ | ⟨sel, hd, -, rfl⟩ <;> rw [hd] <;> rfl

/-- What the decoder reports as illegal is the command word, for its head alone. -/
theorem headOf_of_decode_illegal {p : Port} {w v : Word} {rest : List Word} {why : IllegalReason}
    (h : decode p (w :: rest) = .illegal v why) : v = w ∧ headOf p w = .illegal why := by
  cases hd : headOf p w <;> simp only [decode, hd] at h
  case illegal => cases h; exact ⟨rfl, rfl⟩
  case feed => split at h <;> cases h
  case start => cases rest <;> cases h
  all_goals cases h

/-- The words after a FEED word are its data, whatever their value. -/
theorem decode_feed_append {w : Word} {xs : List Word} (rest : List Word) (hw : w.toNat = 0x10000000 + xs.length)
    (hlen : xs.length < 2 ^ 28) :
    decode .write (w :: xs ++ rest) = .command (.feed (BitVec.ofNat 28 xs.length) xs) (1 + xs.length) := by
  have hcount : (BitVec.ofNat 28 xs.length).toNat = xs.length := by rw [BitVec.toNat_ofNat, Nat.mod_eq_of_lt hlen]
  have hword : w = commandWord 0x1 (BitVec.ofNat 28 xs.length) := eq_commandWord_iff.mpr (by rw [hcount]; exact hw)
  have hwf : (Instr.feed (BitVec.ofNat 28 xs.length) xs).wf = true := by simp [Instr.wf, hcount]
  rw [hword, Nat.add_comm 1]
  exact decode_encode_append rest hwf

/-- Settles O8: the head fixes the number of operand words, and the decoder takes them unread. -/
theorem lengthFollowsFromTheCommandWord : Obligations.LengthFollowsFromTheCommandWord := by
  refine ⟨fun w hop => ?_, fun w hw => ?_, fun w hop => commandLength_eq_one (fun count hd => ?_) (headOf_ne rfl),
    fun w hw => commandLength_eq_one (fun _ => headOf_ne rfl) fun hd => hw (decodeC_start_iff.mp hd),
    fun _ _ _ _ _ => length_eq_commandLength, fun p w v rest why h => ?_, fun _ _ => decode_feed_append,
    fun f rest => decode_encode_append rest (i := .start f) rfl⟩
  · have hd : headOf .write w = .feed (argField w) := decodeW_feed_iff.mpr (by rw [argField_toNat]; omega)
    rw [commandLength, hd, Head.operands, argField_toNat]
  · have hd : headOf .control w = .start := decodeC_start_iff.mpr hw
    rw [commandLength, hd, Head.operands]
  · have := decodeW_feed_iff.mp hd
    have := count.isLt
    omega
  · obtain ⟨rfl, hd⟩ := headOf_of_decode_illegal h
    exact ⟨rfl, by rw [commandLength, hd, Head.operands]⟩

/-! ## The assembler (30_encoding.md R93) -/

theorem WSel.ofNumber_eq_none_iff {k : Nat} : WSel.ofNumber k = none ↔ 5 ≤ k := by
  constructor
  · intro hnone
    by_contra hk
    obtain ⟨sel, rfl⟩ := WSel.exists_number (not_le.mp hk)
    rw [WSel.ofNumber_number] at hnone
    cases hnone
  · intro hk
    rw [Option.eq_none_iff_forall_ne_some]
    intro sel hsel
    exact absurd (WSel.number_of_ofNumber hsel ▸ sel.number_lt) (not_lt.mpr hk)

theorem CSel.ofNumber_eq_none_iff {k : Nat} : CSel.ofNumber k = none ↔ 14 ≤ k := by
  constructor
  · intro hnone
    by_contra hk
    obtain ⟨sel, rfl⟩ := CSel.exists_number (not_le.mp hk)
    rw [CSel.ofNumber_number] at hnone
    cases hnone
  · intro hk
    rw [Option.eq_none_iff_forall_ne_some]
    intro sel hsel
    exact absurd (CSel.number_of_ofNumber hsel ▸ sel.number_lt) (not_lt.mpr hk)

/-- A sample fits a word (00_scope.md R6). -/
theorem Config.two_pow_W_le (c : Config) : 2 ^ c.W ≤ 2 ^ 32 := Nat.pow_le_pow_right (by decide) c.legal.2.1.2

/-- Numbers that fit a word are written as they are. -/
theorem map_toNat_map_ofNat {xs : List Nat} (h : ∀ x ∈ xs, x < 2 ^ 32) :
    (xs.map (BitVec.ofNat 32)).map BitVec.toNat = xs := by
  rw [List.map_map]
  conv_rhs => rw [← List.map_id xs]
  exact List.map_congr_left fun x hx => by simpa using Nat.mod_eq_of_lt (h x hx)

/-- Numbers of at most W bits are the samples of the data words they are written as. -/
theorem map_sampleOf_map_ofNat {c : Config} {xs : List Nat} (h : ∀ x ∈ xs, x < 2 ^ c.W) :
    (xs.map (BitVec.ofNat 32)).map (fun d => (c.sampleOf d).toNat) = xs := by
  have hW := c.two_pow_W_le
  conv_rhs => rw [← map_toNat_map_ofNat fun x hx => (h x hx).trans_le hW]
  refine List.map_congr_left fun d hd => ?_
  obtain ⟨x, hx, rfl⟩ := List.mem_map.mp hd
  rw [toNat_sampleOf, BitVec.toNat_ofNat, Nat.mod_eq_of_lt ((h x hx).trans_le hW), Nat.mod_eq_of_lt (h x hx)]

theorem assemble_feed_eq_none_iff (c : Config) (count : Nat) (xs : List Nat) :
    assemble c (.feed count xs) = none ↔ xs.length ≠ count ∨ 2 ^ 28 ≤ count ∨ ∃ x ∈ xs, 2 ^ c.W ≤ x := by
  simp only [assemble, ite_eq_right_iff, reduceCtorEq, imp_false, not_and_or, not_lt, not_forall, exists_prop, ne_eq]

theorem assemble_start_eq_none_iff (c : Config) (f : Nat) :
    assemble c (.start f) = none ↔ f = 0 ∨ 2 ^ 32 ≤ f := by
  simp only [assemble, ite_eq_right_iff, reduceCtorEq, imp_false]
  omega

/-- Settles O9: the assembler emits the encoder's words of a well-formed command, whose fields hold the numbers written. -/
theorem assembledCommandsDecode : Obligations.AssembledCommandsDecode := by
  intro c
  refine ⟨fun a ws rest h => ?_, assemble_feed_eq_none_iff c, assemble_start_eq_none_iff c,
    fun k => Option.map_eq_none_iff.trans WSel.ofNumber_eq_none_iff,
    fun k => Option.map_eq_none_iff.trans CSel.ofNumber_eq_none_iff, by simp [assemble]⟩
  cases a with
  | nop =>
    obtain rfl := Option.some.inj h
    exact fun p => decode_encode_append rest (i := .nop p) rfl
  | feed count xs =>
    simp only [assemble, Option.ite_none_right_eq_some, Option.some.injEq] at h
    obtain ⟨⟨hlen, hcount, hxs⟩, rfl⟩ := h
    have hW := c.two_pow_W_le
    have hn : (BitVec.ofNat 28 count).toNat = count := by rw [BitVec.toNat_ofNat, Nat.mod_eq_of_lt hcount]
    have hwf : (Instr.feed (BitVec.ofNat 28 count) (xs.map (BitVec.ofNat 32))).wf = true := by
      simpa only [Instr.wf, List.length_map, hn, beq_iff_eq] using hlen
    exact ⟨_, _, decode_encode_append rest hwf, hwf, hn, map_toNat_map_ofNat fun x hx => (hxs x hx).trans_le hW,
      map_sampleOf_map_ofNat hxs⟩
  | rdfree =>
    obtain rfl := Option.some.inj h
    exact decode_encode_append rest (i := .rdfree) rfl
  | rdw k =>
    obtain ⟨sel, hsel, rfl⟩ := Option.map_eq_some_iff.mp h
    exact ⟨sel, decode_encode_append rest (i := .rdw sel) rfl, WSel.number_of_ofNumber hsel⟩
  | init =>
    obtain rfl := Option.some.inj h
    exact decode_encode_append rest (i := .init) rfl
  | start f =>
    simp only [assemble, Option.ite_none_right_eq_some, Option.some.injEq] at h
    obtain ⟨⟨hpos, hlt⟩, rfl⟩ := h
    have hf : (BitVec.ofNat 32 f).toNat = f := by rw [BitVec.toNat_ofNat, Nat.mod_eq_of_lt hlt]
    have hne : BitVec.ofNat 32 f ≠ 0 := fun h0 => Nat.ne_of_gt hpos (hf.symm.trans (congrArg BitVec.toNat h0))
    exact ⟨_, decode_encode_append rest (i := .start (BitVec.ofNat 32 f)) rfl, hf, hne⟩
  | stop =>
    obtain rfl := Option.some.inj h
    exact decode_encode_append rest (i := .stop) rfl
  | rdc k =>
    obtain ⟨sel, hsel, rfl⟩ := Option.map_eq_some_iff.mp h
    exact ⟨sel, decode_encode_append rest (i := .rdc sel) rfl, CSel.number_of_ofNumber hsel⟩
  | word values =>
    simp only [assemble, Option.ite_none_right_eq_some, Option.some.injEq] at h
    obtain ⟨hvalues, rfl⟩ := h
    exact map_toNat_map_ofNat hvalues

end Sys2Proof
end

section
/-! The responses of the two ports (30_encoding.md R92). -/

namespace Sys2Proof.Machine

variable {s t : State}

/-- No response between two states, on either port. -/
def State.SameResponses (s t : State) : Prop := t.wresp = s.wresp ∧ t.cresp = s.cresp

/-- One response on a port between two states, and none on the other. -/
def State.RespondsOnce (s t : State) (p : Port) (v : Word) : Prop :=
  match p with
  | .write => t.wresp = s.wresp ++ [v] ∧ t.cresp = s.cresp
  | .control => t.cresp = s.cresp ++ [v] ∧ t.wresp = s.wresp

theorem sameResponses_moved (s : State) (p : Port) (n : Nat) : s.SameResponses (s.moved p n) := by
  cases p <;> exact ⟨rfl, rfl⟩

/-- An edge without a command gives no response. -/
theorem sameResponses_idleEdge (s : State) (p : Port) : s.SameResponses (s.idleEdge p) := by
  cases p with
  | write => exact ⟨rfl, rfl⟩
  | control =>
    obtain ⟨⟨-, -, -, hwresp, -⟩, -, hcresp, -⟩ := readEdge_frame s
    exact ⟨hwresp, hcresp⟩

theorem State.SameResponses.trans {u : State} (h : s.SameResponses t) (h' : t.SameResponses u) : s.SameResponses u :=
  ⟨h'.1.trans h.1, h'.2.trans h.2⟩

theorem State.SameResponses.respond (h : s.SameResponses t) (p : Port) (v : Word) : s.RespondsOnce (t.respond p v) p v := by
  obtain ⟨hw, hc⟩ := h
  cases p
  · exact ⟨congrArg (· ++ [v]) hw, hc⟩
  · exact ⟨congrArg (· ++ [v]) hc, hw⟩

/-- A fault answers ALL1. -/
theorem State.SameResponses.raiseFault (h : s.SameResponses t) (k : FaultKind) (p : Port) (w : Word) :
    s.RespondsOnce (t.raiseFault k p w) p all1 := by
  obtain ⟨hw, hc⟩ := h
  cases p with
  | write => exact ⟨congrArg (· ++ [all1]) hw, hc⟩
  | control => cases k <;> exact ⟨congrArg (· ++ [all1]) hc, hw⟩

/-- The answer counts from before the words were consumed. -/
theorem State.RespondsOnce.of_sameResponses {u : State} {p : Port} {v : Word} (h : t.RespondsOnce u p v)
    (hs : s.SameResponses t) : s.RespondsOnce u p v := by
  obtain ⟨hw, hc⟩ := hs
  cases p <;> simpa only [State.RespondsOnce, hw, hc] using h

/-- The response of a command (30_encoding.md R92), from the state before its edge. -/
def State.response (s : State) (i : Instr) : Word :=
  match i with
  | .nop _ => 0
  | .feed count _ => if count.toNat ≤ s.freeW then 1 else 0
  | .rdfree => zext32 s.freeW
  | .rdw sel => s.readW sel
  | .init => 0
  | .start f => if f = 0 then all1 else 0
  | .stop => 0
  | .rdc sel => s.readC sel

/-- A well-formed command completes and answers once, on its own port. -/
theorem exec_respondsOnce (s : State) {i : Instr} (h : i.wf = true) :
    ∃ t, exec i s = .next t ∧ s.RespondsOnce t i.port (s.response i) := by
  have hedge := sameResponses_idleEdge s
  cases i with
  | nop p => exact ⟨_, rfl, (hedge p).respond p 0⟩
  | feed count data =>
    have hlen : data.length = count.toNat := by simpa [Instr.wf] using h
    simp only [exec, execFeed, hlen, ne_eq, not_true_eq_false, if_false, State.response]
    split
    · exact ⟨_, rfl, State.SameResponses.respond (hedge .write) .write 1⟩
    · exact ⟨_, rfl, (hedge .write).respond .write 0⟩
  | rdfree => exact ⟨_, rfl, (hedge .write).respond .write _⟩
  | rdw sel => exact ⟨_, rfl, (hedge .write).respond .write _⟩
  | init => exact ⟨_, rfl, rfl, rfl⟩
  | start f =>
    simp only [exec, execStart, State.response]
    split
    · exact ⟨_, rfl, (hedge .control).raiseFault .zeroFrequency .control _⟩
    · exact ⟨_, rfl, rfl, rfl⟩
  | stop => exact ⟨_, rfl, rfl, rfl⟩
  | rdc sel => exact ⟨_, rfl, (hedge .control).respond .control _⟩

/-- Settles O38: the edge answers nothing by itself, and the command or the fault adds one response. -/
theorem everyCommandRespondsOnce : Obligations.EveryCommandRespondsOnce := by
  refine ⟨fun i s hwf => ?_, fun s t hst => ⟨fun i n hf => ?_, fun w why hf => ?_, fun hf => ?_⟩⟩
  · obtain ⟨t, ht, hresp⟩ := exec_respondsOnce s hwf
    exact ⟨t, s.response i, ht, hresp, by cases i <;> rfl⟩
  · obtain ⟨-, -, hwf⟩ := fetch_command hf
    obtain ⟨u, hu, hresp⟩ := exec_respondsOnce (s.moved s.nextEdge.port n) hwf
    obtain rfl := Host.Outcome.next.inj (hu.symm.trans ((step_of_fetch_command hf).symm.trans hst))
    exact ⟨_, hresp.of_sameResponses (sameResponses_moved ..)⟩
  · obtain rfl := Host.Outcome.next.inj ((step_of_fetch_illegal hf).symm.trans hst)
    exact ((sameResponses_moved ..).trans (sameResponses_idleEdge ..)).raiseFault .illegalCommand _ w
  · obtain rfl := Host.Outcome.next.inj ((step_of_fetch_empty hf).symm.trans hst)
    exact (sameResponses_moved ..).trans (sameResponses_idleEdge ..)

end Sys2Proof.Machine
end

section
/-! The contiguous readable run and the capacity of the buffer (40_buffer.md R120 to R126). -/

namespace Sys2Proof

variable (c : Config)

/-! ## The contiguous readable run (40_buffer.md R124) -/

theorem Config.diff_eq_zero_iff {a b : Nat} (ha : a < c.M) (hb : b < c.M) : c.diff a b = 0 ↔ a = b := by
  rw [c.diff_eq a b ha hb]
  split <;> omega

/-- The index of a pointer in range: the pointer's low half, or its high half less N. -/
theorem Config.idx_eq {p : Nat} (hp : p < c.M) : c.idx p = if p < c.N then p else p - c.N := by
  have hM := c.M_eq
  unfold Config.idx
  split
  · exact Nat.mod_eq_of_lt ‹_›
  · rw [Nat.mod_eq_sub_mod (by omega), Nat.mod_eq_of_lt (by omega)]

/-- Two pointers that name one index are equal or one capacity apart. -/
theorem Config.idx_eq_idx_iff {a b : Nat} (ha : a < c.M) (hb : b < c.M) :
    c.idx a = c.idx b ↔ a = b ∨ c.diff a b = c.N := by
  have hM := c.M_eq
  rw [c.idx_eq ha, c.idx_eq hb, c.diff_eq a b ha hb]
  split_ifs <;> omega

theorem Config.crun_eq {r w : Nat} (hr : r < c.M) (hw : w < c.M) :
    c.crun r w = if w = r then 0 else if c.idx r < c.idx w then c.idx w - c.idx r else c.N - c.idx r := by
  simp only [Config.crun, c.diff_eq_zero_iff hw hr]

/-- A view of at most one capacity is read up to its end or up to the array end, whichever is nearer. -/
theorem Config.crun_eq_min {r w : Nat} (hr : r < c.M) (hw : w < c.M) (hd : c.diff w r ≤ c.N) :
    c.crun r w = min (c.diff w r) (c.N - c.idx r) := by
  have hM := c.M_eq
  rw [c.diff_eq w r hw hr] at hd ⊢
  rw [c.crun_eq hr hw, c.idx_eq hr, c.idx_eq hw]
  split_ifs at hd ⊢ <;> omega

/-- Only an empty view has no readable run, since an index is below N. -/
theorem Config.crun_eq_zero_iff {r w : Nat} (hr : r < c.M) (hw : w < c.M) : c.crun r w = 0 ↔ w = r := by
  have hidx := c.idx_lt r
  rw [c.crun_eq hr hw]
  split_ifs <;> omega

/-- The source's formula, off a full buffer: there equal indices mean an empty view (90_conflicts.md C1). -/
theorem Config.crun_eq_source {r w : Nat} (hr : r < c.M) (hw : w < c.M) (hd : c.diff w r ≠ c.N) :
    c.crun r w = if c.idx r ≤ c.idx w then c.idx w - c.idx r else c.N - c.idx r := by
  have hsame : c.idx w = c.idx r ↔ w = r := (c.idx_eq_idx_iff hw hr).trans (or_iff_left hd)
  rw [c.crun_eq hr hw]
  split_ifs <;> omega

/-- Settles O19: the three cases are the definition's, the pointers being in range; the bound, the zero case and the source's
formula follow from them. -/
theorem crunIsTheContiguousRun : Obligations.CrunIsTheContiguousRun := by
  intro c r w hr hw
  refine ⟨c.crun_eq hr hw,
    fun hd => ⟨c.crun_eq_min hr hw hd, c.crun_eq_zero_iff hr hw, c.crun_eq_source hr hw⟩, fun hN => ?_⟩
  have hM : c.M = 16 := by rw [c.M_eq, hN]
  simp [Config.crun, Config.diff, Config.idx, hN, hM]

/-! ## Free capacity and occupancy (40_buffer.md R120 to R122) -/

/-- The distance of 00_scope.md R9 from a pointer in range. -/
theorem Config.diff_eq_mod (a : Nat) {b : Nat} (hb : b < c.M) : c.diff a b = (a + (c.M - b)) % c.M := by
  rw [Config.diff, Nat.mod_eq_of_lt hb]

namespace Machine

variable {s : State}

theorem State.rptrW_lt (h : s.fits) : s.rptrW < s.cfg.M := by
  obtain ⟨-, -, -, -, -, hrs, -⟩ := h
  exact s.cfg.bin_lt _ (s.cfg.lastStage_lt hrs)

theorem occupied_le (h : s.Inv) : s.occupied ≤ s.cfg.N := (Nat.le_add_right ..).trans (occupied_add_freeW_le h)

/-- The data the read domain sees is occupied (40_buffer.md R122): its view of the write pointer lies on the way from the
read pointer to the write pointer. -/
theorem occR_le_occupied (h : s.Inv) : s.occR ≤ s.occupied := by
  obtain ⟨hf, -, -, -, hring⟩ := h
  obtain ⟨hsum, -⟩ := six_pointers_in_order hf hring
  have hway := s.cfg.diff_le_add s.wptr s.rptr s.rptrW
  have hread := s.cfg.diff_le_add s.rptr s.rpub s.rptrW
  unfold State.occR State.occupied
  omega

/-- Settles O21: the write domain's free places are not occupied, and what the read domain sees is occupied. -/
theorem viewsAreConservative : Obligations.ViewsAreConservative := by
  intro s h
  have hocc := occR_le_occupied h
  exact ⟨Nat.le_sub_of_add_le' (occupied_add_freeW_le h), Nat.sub_le_sub_left hocc _, Nat.sub_le .., hocc, occupied_le h⟩

/-- Settles O20: each free capacity is N less a distance, which under the invariant is at most N. -/
theorem capacityIdentities : Obligations.CapacityIdentities := by
  intro s h
  have hocc := occupied_le h
  have hoccR := (occR_le_occupied h).trans hocc
  obtain ⟨hf, -, -, -, hring⟩ := h
  obtain ⟨-, hview⟩ := six_pointers_in_order hf hring
  have hrptrW := State.rptrW_lt hf
  obtain ⟨-, -, hrptr, -⟩ := hf
  rw [← s.cfg.diff_eq_mod _ hrptr, ← s.cfg.diff_eq_mod _ hrptrW, ← s.cfg.diff_eq_mod _ hrptr]
  have htrue : s.freeTrue + s.occupied = s.cfg.N := Nat.sub_add_cancel hocc
  have hread : s.freeR + s.occR = s.cfg.N := Nat.sub_add_cancel hoccR
  exact ⟨htrue, Nat.sub_add_cancel hview, hread, htrue, hread⟩

end Machine

end Sys2Proof
end

section
/-! The gray code and its inverse, bit by bit, and the code's step (41_cdc.md R140, R141, R142). -/

namespace Sys2Proof

variable (c : Config)

/-! ## Bits of the gray code (41_cdc.md R140) -/

/-- Each bit of the gray code is the XOR of two neighbours. -/
theorem testBit_gray (x i : Nat) : (gray x).testBit i = Bool.xor (x.testBit (i + 1)) (x.testBit i) := by
  rw [gray, Nat.testBit_xor, Nat.testBit_shiftRight, Nat.add_comm 1 i, Bool.xor_comm]

/-- Above the top bit of a pointer stands no bit. -/
theorem Config.testBit_top {x : Nat} (hx : x < c.M) : x.testBit (c.P - 1 + 1) = false := Nat.testBit_lt_two_pow hx

theorem Config.testBit_gray_top {x : Nat} (hx : x < c.M) : (gray x).testBit (c.P - 1) = x.testBit (c.P - 1) := by
  rw [testBit_gray, c.testBit_top hx, Bool.false_xor]

/-- Settles O13: the shift brings each bit's upper neighbour, which above the top bit is 0. -/
theorem grayCodeBits : Obligations.GrayCodeBits :=
  ⟨fun c x hx => ⟨Machine.gray_eq x, gray_lt x c.P hx, c.testBit_gray_top hx, fun i _ => testBit_gray x i⟩, by decide⟩

/-! ## The inverse (41_cdc.md R141) -/

theorem xorShifts_shiftRight (k g : Nat) : xorShifts k (g >>> 1) = xorShifts k g >>> 1 := by
  induction k generalizing g with
  | zero => exact (Nat.zero_shiftRight 1).symm
  | succ k ih => rw [xorShifts, xorShifts, ih, Nat.shiftRight_xor_distrib]

/-- `bin` is also a right inverse of `gray`, since XOR of shifts commutes with the shift in `gray`. -/
theorem Config.gray_bin {g : Nat} (hg : g < c.M) : gray (c.bin g) = g :=
  calc gray (c.bin g) = xorShifts c.P (gray g) := by
        rw [gray, gray, Config.bin, ← xorShifts_shiftRight, xorShifts_xor]
    _ = g := c.bin_gray hg

/-- A bit of `bin(g)` is the XOR of the bit above it and g's bit: `g`, as the gray code of `bin(g)`, is their XOR. -/
theorem Config.testBit_bin {g : Nat} (hg : g < c.M) (i : Nat) :
    (c.bin g).testBit i = Bool.xor ((c.bin g).testBit (i + 1)) (g.testBit i) := by
  have hbit := testBit_gray (c.bin g) i
  rw [c.gray_bin hg] at hbit
  rw [hbit, ← Bool.xor_assoc, Bool.xor_self, Bool.false_xor]

/-- Settles O14: `gray(bin(g)) = g` gives the bits, and above the top bit `bin(g)` has none. -/
theorem binDecodesTheGrayCode : Obligations.BinDecodesTheGrayCode := by
  intro c g hg
  have hbin := c.bin_lt g hg
  have htop : (c.bin g).testBit (c.P - 1) = g.testBit (c.P - 1) := by
    rw [c.testBit_bin hg, c.testBit_top hbin, Bool.false_xor]
  refine ⟨hbin, htop, fun i _ => c.testBit_bin hg i, c.bin_gray hg, fun hP => ?_⟩
  rw [Config.bin, Config.bin, hP]
  decide

/-! ## The step of the code (41_cdc.md R142) -/

theorem gray_xor (a b : Nat) : gray (a ^^^ b) = gray a ^^^ gray b := by
  simp only [gray, Nat.shiftRight_xor_distrib]
  ac_rfl

/-- The gray code of a run of ones is its top one. -/
theorem gray_ones (k : Nat) : gray (2 ^ (k + 1) - 1) = 2 ^ k := by
  refine Nat.eq_of_testBit_eq fun i => ?_
  rw [testBit_gray, Nat.testBit_two_pow_sub_one, Nat.testBit_two_pow_sub_one, Nat.testBit_two_pow]
  grind

/-- Counting on by one flips a run of low bits: the ones at the end and the zero above them. -/
theorem exists_xor_succ_eq_ones (x : Nat) : ∃ k, x ^^^ (x + 1) = 2 ^ (k + 1) - 1 := by
  induction x using Nat.strong_induction_on with
  | h x ih =>
    obtain ⟨m, rfl | rfl⟩ := Nat.even_or_odd' x
    · refine ⟨0, ?_⟩
      simpa [Nat.bit_val] using Nat.xor_bit false m true m
    · obtain ⟨k, hk⟩ := ih m (by omega)
      refine ⟨k + 1, ?_⟩
      have hbit : (2 * m + 1) ^^^ (2 * (m + 1)) = 2 * (m ^^^ (m + 1)) + 1 := by
        simpa [Nat.bit_val] using Nat.xor_bit true m false (m + 1)
      have hpos := Nat.two_pow_pos (k + 1)
      rw [Nat.mul_add, Nat.mul_one] at hbit
      rw [Nat.add_assoc, hbit, hk, Nat.pow_succ 2 (k + 1)]
      omega

theorem exists_gray_succ_eq (x : Nat) : ∃ k, gray (x + 1) = gray x ^^^ 2 ^ k := by
  obtain ⟨k, hk⟩ := exists_xor_succ_eq_ones x
  refine ⟨k, ?_⟩
  rw [← gray_ones, ← hk, gray_xor, ← Nat.xor_assoc, Nat.xor_self, Nat.zero_xor]

/-- The last pointer is all ones, so its code is the top bit alone. -/
theorem Config.gray_last : gray (c.M - 1) = 2 ^ (c.P - 1) := gray_ones c.A

/-- The gray codes of successive pointers differ in one bit, which lies in the pointer's width. -/
theorem Config.exists_gray_padd_one {x : Nat} (hx : x < c.M) : ∃ k < c.P, gray (c.padd x 1) = gray x ^^^ 2 ^ k := by
  rw [Config.padd]
  by_cases hwrap : x + 1 = c.M
  · refine ⟨c.P - 1, Nat.lt_succ_self c.A, ?_⟩
    rw [hwrap, Nat.mod_self, Nat.eq_sub_of_add_eq hwrap, c.gray_last, Nat.xor_self, gray_zero]
  · have hnext : x + 1 < c.M := by omega
    obtain ⟨k, hk⟩ := exists_gray_succ_eq x
    have hbit : 2 ^ k < 2 ^ c.P := by
      have hxor : gray x ^^^ gray (x + 1) = 2 ^ k := by rw [hk, ← Nat.xor_assoc, Nat.xor_self, Nat.zero_xor]
      exact hxor ▸ Nat.xor_lt_two_pow (gray_lt x _ hx) (gray_lt (x + 1) _ hnext)
    rw [Nat.mod_eq_of_lt hnext]
    exact ⟨k, (Nat.pow_lt_pow_iff_right one_lt_two).mp hbit, hk⟩

/-- Settles O15: within the range by the run of bits that counting flips, at the wrap by the two end codes. -/
theorem grayStepChangesOneBit : Obligations.GrayStepChangesOneBit :=
  fun c _ hx => ⟨c.exists_gray_padd_one hx, c.gray_last, gray_zero⟩

end Sys2Proof
end

section
/-! The crossing, for both directions at once: a pointer's publishing, its chain and the view at the chain's end
(41_cdc.md R143 to R149). -/

namespace Sys2Proof

variable (c : Config)

/-- The port of the other clock domain. -/
def Port.other (p : Port) : Port :=
  match p with
  | .write => .control
  | .control => .write

/-! ## Publishing (41_cdc.md R143, R144) -/

/-- A published pointer moves by one, or rests where it has reached its commit pointer. -/
theorem Config.diff_publish_self {p q : Nat} (hp : p < c.M) (hq : q < c.M) :
    c.diff (c.publish p q) p = min 1 (c.diff q p) := by
  have hM := c.M_eq
  have hN := c.N_pos
  have hzero := c.diff_eq_zero_iff hq hp
  have hself := c.diff_self p hp
  unfold Config.publish
  split
  · rw [c.diff_padd_left (by omega)]
    omega
  · omega

/-- Each publishing takes one off the distance to the commit pointer. -/
theorem Config.diff_publish {p q : Nat} (hp : p < c.M) (hq : q < c.M) : c.diff q (c.publish p q) = c.diff q p - 1 := by
  have hzero := c.diff_eq_zero_iff hq hp
  unfold Config.publish
  split
  · exact c.diff_padd_right hq hp (by omega)
  · omega

/-- What is published changes in at most one bit (41_cdc.md R148). -/
theorem Config.gray_publish {p : Nat} (hp : p < c.M) (q : Nat) :
    c.publish p q = p ∨ ∃ k < c.P, gray (c.publish p q) = gray p ^^^ 2 ^ k := by
  unfold Config.publish
  split
  · exact .inr (c.exists_gray_padd_one hp)
  · exact .inl rfl

/-! ## The view at the end of a chain (41_cdc.md R147) -/

/-- Where a chain, the pointer it samples and that pointer's commit pointer lie in ring order within one capacity, a shift
moves the view forward, and not past the commit pointer. -/
theorem Config.diff_view_shiftIn_le {chain : List Nat} {x q a : Nat} (hlen : chain.length = c.sSync) (hx : x < c.M)
    (hring : c.walkFrom a (c.views chain ++ [x, q]) ≤ c.N) :
    c.diff (c.bin (c.lastStage (c.shiftIn (gray x) chain))) (c.bin (c.lastStage chain)) ≤
      c.diff q (c.bin (c.lastStage chain)) := by
  obtain ⟨vs, hvs⟩ := c.views_eq_cons hlen
  obtain ⟨vs', hvs'⟩ := c.views_eq_cons (c.length_shiftIn (gray x) chain hlen)
  generalize c.bin (c.lastStage chain) = v at hvs ⊢
  generalize c.bin (c.lastStage (c.shiftIn (gray x) chain)) = v' at hvs' ⊢
  have htail : vs ++ [x] = v' :: vs' := by rw [← hvs', c.views_shiftIn hlen hx, hvs, List.tail_cons]
  have hsplit : c.views chain ++ [x, q] = v :: v' :: (vs' ++ [q]) := by
    rw [List.append_cons, hvs, List.cons_append, htail]
    rfl
  have hsub : List.Sublist [v, v', q] (c.views chain ++ [x, q]) :=
    hsplit ▸ .cons_cons v (.cons_cons v' (List.sublist_append_right vs' [q]))
  have hwalk : c.walkFrom v ([v'] ++ [q]) ≤ c.N :=
    (Nat.le_add_left _ _).trans ((c.walkFrom_sublist hsub a).trans hring)
  have heq := c.walkFrom_concat_eq hwalk
  simp only [List.cons_append, List.nil_append, Config.walkFrom] at heq
  omega

/-- A shift of the code a chain already begins with makes one more of its first stages that code. -/
theorem Config.forall_mem_take_shiftIn {g n : Nat} {chain : List Nat} (h : ∀ x ∈ chain.take n, x = g) :
    ∀ x ∈ (c.shiftIn g chain).take (n + 1), x = g := by
  intro x hx
  rw [Config.shiftIn, List.take_take, Nat.min_comm, ← List.take_take] at hx
  rcases List.mem_cons.mp (List.mem_of_mem_take hx) with rfl | hx
  · rfl
  · exact h x hx

/-- A chain whose every stage holds the code of a pointer shows that pointer. -/
theorem Config.view_of_forall_mem {chain : List Nat} {w : Nat} (hlen : chain.length = c.sSync) (hw : w < c.M)
    (h : ∀ g ∈ chain, g = gray w) : c.bin (c.lastStage chain) = w := by
  have hpos := c.sSync_ge
  have hlast : c.lastStage chain = gray w := by
    rw [Config.lastStage, List.getD_eq_getElem _ _ (by omega)]
    exact h _ (List.getElem_mem _)
  rw [hlast, c.bin_gray hw]

namespace Machine

variable {s t : State}

/-! ## The pointers of one direction -/

/-- The commit pointer a port's domain owns (10_state.md R22, R27). -/
def State.commit (s : State) (p : Port) : Nat :=
  match p with
  | .write => s.wptr
  | .control => s.rptr

/-- The published pointer a port's domain owns (10_state.md R23, R28). -/
def State.pub (s : State) (p : Port) : Nat :=
  match p with
  | .write => s.wpub
  | .control => s.rpub

/-- The chain that carries a port's published pointer to the other domain (10_state.md R24, R29). -/
def State.chain (s : State) (p : Port) : List Nat :=
  match p with
  | .write => s.wsync
  | .control => s.rsync

/-- The other domain's view of a port's commit pointer (41_cdc.md R147). -/
def State.view (s : State) (p : Port) : Nat := s.cfg.bin (s.cfg.lastStage (s.chain p))

theorem commit_lt (h : s.fits) (p : Port) : s.commit p < s.cfg.M := by
  obtain ⟨hwptr, -, hrptr, -⟩ := h
  cases p
  · exact hwptr
  · exact hrptr

theorem pub_lt (h : s.fits) (p : Port) : s.pub p < s.cfg.M := by
  obtain ⟨-, hwpub, -, hrpub, -⟩ := h
  cases p
  · exact hwpub
  · exact hrpub

theorem chain_length (h : s.fits) (p : Port) : (s.chain p).length = s.cfg.sSync := by
  obtain ⟨-, -, -, -, hrl, -, hwl, -⟩ := h
  cases p
  · exact hwl
  · exact hrl

theorem view_lt (h : s.fits) (p : Port) : s.view p < s.cfg.M := by
  cases p
  · exact State.wptrR_lt h
  · exact State.rptrW_lt h

/-- The ring visits the chain of each direction, then its published and its commit pointer. -/
theorem ring_visits_chain (s : State) (p : Port) :
    List.Sublist (s.cfg.views (s.chain p) ++ [s.pub p, s.commit p]) s.ring := by
  rw [s.ring_eq]
  cases p with
  | write => exact List.sublist_append_of_sublist_right (.cons _ (.cons _ (.refl _)))
  | control => exact (List.Sublist.refl _).append (.cons_cons _ (.cons_cons _ (List.nil_sublist _)))

/-! ## The crossing of a step -/

/-- The crossing of an edge of port `e`: that domain's pointer is published, and the other's code enters its chain (41_cdc.md
R143 to R146). -/
structure State.Crosses (s t : State) (e : Port) : Prop where
  cfg : t.cfg = s.cfg
  pub : ∀ p, t.pub p = if e = p then s.cfg.publish (s.pub p) (s.commit p) else s.pub p
  chain : ∀ p, t.chain p = if e = p.other then s.cfg.shiftIn (gray (s.pub p)) (s.chain p) else s.chain p

theorem crosses_writeEdge (s : State) : s.Crosses s.writeEdge .write :=
  ⟨rfl, fun p => by cases p <;> rfl, fun p => by cases p <;> rfl⟩

theorem crosses_readEdge (s : State) : s.Crosses s.readEdge .control := by
  rcases readEdge_cases s with ⟨-, -, e⟩ | ⟨-, -, -, ⟨-, e⟩ | ⟨-, e⟩⟩ | ⟨-, -, -, -, e⟩ | ⟨-, -, -, -, e⟩ <;> rw [e] <;>
    exact ⟨rfl, fun p => by cases p <;> rfl, fun p => by cases p <;> rfl⟩

/-- The words an edge consumes take no part in its crossing. -/
theorem crosses_idleEdge_moved (s : State) (e : Port) (n : Nat) : s.Crosses ((s.moved e n).idleEdge e) e := by
  cases e
  · exact { crosses_writeEdge (s.moved .write n) with }
  · exact { crosses_readEdge (s.moved .control n) with }

theorem State.Crosses.respond {e : Port} (h : s.Crosses t e) (p : Port) (v : Word) : s.Crosses (t.respond p v) e := by
  cases p
  · exact { h with }
  · exact { h with }

theorem State.Crosses.raiseFault {e : Port} (h : s.Crosses t e) (k : FaultKind) (p : Port) (w : Word) :
    s.Crosses (t.raiseFault k p w) e := by
  cases p <;> cases k <;> exact { h with }

/-- BUF_WRITE moves the commit pointer only. -/
theorem State.Crosses.bufWrite {e : Port} (h : s.Crosses t e) (xs : List Sample) : s.Crosses (t.bufWrite xs) e :=
  { h with }

/-- Whatever a step carries, but for a datapath reset, it is the crossing of its edge (70_reset_and_hazards.md R278). -/
theorem crosses_of_step (h : step s = .next t) (hr : s.resets = false) : s.Crosses t s.nextEdge.port := by
  cases stepCase_of_step h with
  | idle p hf hp => exact hp ▸ crosses_idleEdge_moved s p 0
  | illegal p w why hf hp => exact hp ▸ (crosses_idleEdge_moved s p 1).raiseFault _ p w
  | answer p i n v hf hp => exact hp ▸ (crosses_idleEdge_moved s p n).respond p v
  | feed count data n hf hp =>
    rw [hp]
    exact ((crosses_idleEdge_moved s .write n).bufWrite _).respond .write 1
  | zeroFrequency n hf hp =>
    rw [hp]
    exact (crosses_idleEdge_moved s .control n).raiseFault ..
  | stop n hf => simp [State.resets, hf] at hr
  | init n hf => simp [State.resets, hf] at hr
  | start f n hf hp hne => exact absurd (by simpa [State.resets, hf] using hr) hne

/-! ## One step (41_cdc.md R148, R149 (a)) -/

theorem State.Crosses.pub_oneBit {e : Port} (hx : s.Crosses t e) (h : s.fits) (p : Port) :
    t.pub p = s.pub p ∨ ∃ k < s.cfg.P, gray (t.pub p) = gray (s.pub p) ^^^ 2 ^ k := by
  rw [hx.pub p]
  split
  · exact s.cfg.gray_publish (pub_lt h p) _
  · exact .inl rfl

/-- A published pointer moves forward by one at most, and not past its commit pointer. -/
theorem State.Crosses.diff_pub_le {e : Port} (hx : s.Crosses t e) (h : s.fits) (p : Port) :
    s.cfg.diff (t.pub p) (s.pub p) ≤ min 1 (s.cfg.diff (s.commit p) (s.pub p)) := by
  rw [hx.pub p]
  split
  · exact (s.cfg.diff_publish_self (pub_lt h p) (commit_lt h p)).le
  · rw [s.cfg.diff_self _ (pub_lt h p)]
    exact Nat.zero_le _

/-- A view moves forward, and not past its commit pointer. -/
theorem State.Crosses.diff_view_le {e : Port} (hx : s.Crosses t e) (h : s.fits) (hring : s.ringOk) (p : Port) :
    s.cfg.diff (t.view p) (s.view p) ≤ s.cfg.diff (s.commit p) (s.view p) := by
  rw [State.view, hx.cfg, hx.chain p]
  split
  · exact s.cfg.diff_view_shiftIn_le (chain_length h p) (pub_lt h p)
      ((s.cfg.walkFrom_sublist (ring_visits_chain s p) s.rptrW).trans hring)
  · exact (s.cfg.diff_self _ (view_lt h p)).trans_le (Nat.zero_le _)

/-- Settles O16: the crossing publishes one step of each pointer at most, and that step changes one bit of its code. -/
theorem publishedCodeChangesOneBitAtMost : Obligations.PublishedCodeChangesOneBitAtMost := by
  intro s t h hst hr
  have hx := crosses_of_step hst hr
  exact ⟨hx.pub_oneBit h.1 .write, hx.pub_oneBit h.1 .control⟩

/-- Settles O17: the published pointers by the publisher's step, the views by the ring order of the chain's stages. -/
theorem viewsMoveForwardOnly : Obligations.ViewsMoveForwardOnly := by
  intro s t ⟨hf, _, _, _, hring⟩ hst hr
  have hx := crosses_of_step hst hr
  obtain ⟨hw, hwlim⟩ := le_min_iff.mp (hx.diff_pub_le hf .write)
  obtain ⟨hc, hclim⟩ := le_min_iff.mp (hx.diff_pub_le hf .control)
  exact ⟨hw, hwlim, hc, hclim, hx.diff_view_le hf hring .write, hx.diff_view_le hf hring .control⟩

/-! ## Runs (41_cdc.md R149 (b), (c)) -/

/-- A bound that each edge of one clock brings down by one and no other edge brings up falls, over a run without a reset, by
the number of those edges. `V` is what holds at every state the run visits. -/
theorem runsTo_countdown {R : Nat → State → Prop} {V : State → Prop} {e : Port}
    (hstep : ∀ n s t, step s = .next t → s.resets = false → V s → R n s →
      R (n - if s.nextEdge.port = e then 1 else 0) t)
    {k n : Nat} (hrun : runsTo k s t) (hr : noResetIn k s = true) (hV : ∀ u ∈ visited k s, V u) (h : R n s) :
    R (n - edgesIn e k s) t := by
  induction k generalizing s n with
  | zero =>
    obtain rfl := (runsTo_zero s t).mp hrun
    exact h
  | succ k ih =>
    obtain ⟨u, hu, hrun⟩ := (runsTo_succ k s t).mp hrun
    rw [noResetIn_succ hu, Bool.and_eq_true_iff, Bool.not_eq_true'] at hr
    rw [visited_succ hu] at hV
    obtain ⟨hVs, hVu⟩ := List.forall_mem_cons.mp hV
    rw [edgesIn_succ hu, ← Nat.sub_sub]
    exact ih hrun hr.2 hVu (hstep n s u hu hr.1 hVs h)

/-- The published pointer of `p` lies at most `n` behind `w`. -/
def State.BehindBy (p : Port) (w n : Nat) (s : State) : Prop :=
  s.Inv ∧ w < s.cfg.M ∧ s.cfg.diff w (s.pub p) ≤ n

/-- The published pointer of `p` is `w`, and all but `n` stages of its chain hold the code of `w`. -/
def State.UnseenBy (p : Port) (w n : Nat) (s : State) : Prop :=
  s.Inv ∧ s.pub p = w ∧ ∀ g ∈ (s.chain p).take (s.cfg.sSync - n), g = gray w

theorem behindBy_of_step {p : Port} {w n : Nat} (hst : step s = .next t) (hr : s.resets = false) (hw : s.commit p = w)
    (h : s.BehindBy p w n) : t.BehindBy p w (n - if s.nextEdge.port = p then 1 else 0) := by
  obtain ⟨hinv, hlt, hn⟩ := h
  have hx := crosses_of_step hst hr
  refine ⟨everyStepKeepsTheInvariant s t hinv hst, hx.cfg ▸ hlt, ?_⟩
  rw [hx.cfg, hx.pub p, hw]
  split
  · rw [s.cfg.diff_publish (pub_lt hinv.1 p) hlt]
    exact Nat.sub_le_sub_right hn 1
  · exact hn

theorem unseenBy_of_step {p : Port} {w n : Nat} (hst : step s = .next t) (hr : s.resets = false) (hw : s.commit p = w)
    (h : s.UnseenBy p w n) : t.UnseenBy p w (n - if s.nextEdge.port = p.other then 1 else 0) := by
  obtain ⟨hinv, hpub, hseen⟩ := h
  have hx := crosses_of_step hst hr
  refine ⟨everyStepKeepsTheInvariant s t hinv hst, ?_, ?_⟩
  · rw [hx.pub p, hpub, hw]
    simp [Config.publish]
  · rw [hx.cfg, hx.chain p, hpub]
    split
    · intro g hg
      have hle : s.cfg.sSync - (n - 1) ≤ s.cfg.sSync - n + 1 := by omega
      exact s.cfg.forall_mem_take_shiftIn hseen g (List.take_subset_take_left _ hle hg)
    · exact hseen

section
variable {k : Nat} {p : Port} (h : s.Inv) (hrun : runsTo k s t) (hr : noResetIn k s = true)
  (hrest : ∀ u ∈ visited k s, u.commit p = s.commit p)
include h hrun hr hrest

/-- A commit pointer that rests is published after as many edges of its clock as it is ahead (41_cdc.md R149 (b)). -/
theorem pub_eq_commit_of_runsTo (hk : s.cfg.diff (s.commit p) (s.pub p) ≤ edgesIn p k s) : t.pub p = s.commit p := by
  obtain ⟨hinv, hlt, hn⟩ : t.BehindBy p (s.commit p) (s.cfg.diff (s.commit p) (s.pub p) - edgesIn p k s) :=
    runsTo_countdown (R := State.BehindBy p (s.commit p)) (fun _ _ _ => behindBy_of_step) hrun hr hrest
      ⟨h, commit_lt h.1 p, le_rfl⟩
  rw [Nat.sub_eq_zero_of_le hk, Nat.le_zero] at hn
  exact ((t.cfg.diff_eq_zero_iff hlt (pub_lt hinv.1 p)).mp hn).symm

/-- A published pointer that rests is seen after as many edges of the other clock as its chain has stages (41_cdc.md
R149 (c)). -/
theorem view_eq_commit_of_runsTo (hpub : s.pub p = s.commit p) (hk : s.cfg.sSync ≤ edgesIn p.other k s) :
    t.view p = s.commit p := by
  obtain ⟨hinv, hn, hseen⟩ : t.UnseenBy p (s.commit p) (s.cfg.sSync - edgesIn p.other k s) :=
    runsTo_countdown (R := State.UnseenBy p (s.commit p)) (fun _ _ _ => unseenBy_of_step) hrun hr hrest
      ⟨h, hpub, by simp⟩
  rw [Nat.sub_eq_zero_of_le hk, Nat.sub_zero, ← chain_length hinv.1 p, List.take_length] at hseen
  exact t.cfg.view_of_forall_mem (chain_length hinv.1 p) (hn ▸ pub_lt hinv.1 p) hseen

end

/-- Settles O18: while a commit pointer rests, each edge of its clock publishes one step of it, and, once it is published,
each edge of the other clock fills one more stage of its chain. -/
theorem crossingCatchesUp : Obligations.CrossingCatchesUp := by
  intro k s t h hrun hr
  exact ⟨fun hrest => ⟨pub_eq_commit_of_runsTo (p := .write) h hrun hr hrest,
      view_eq_commit_of_runsTo (p := .write) h hrun hr hrest⟩,
    fun hrest => ⟨pub_eq_commit_of_runsTo (p := .control) h hrun hr hrest,
      view_eq_commit_of_runsTo (p := .control) h hrun hr hrest⟩⟩

end Machine

end Sys2Proof
end

section
/-! The transfer controller: its state, the choice of its action, and what a COMPLETE arms (42_transfer.md R160 to R171). -/

namespace Sys2Proof.Machine

variable {s t : State}

/-! ## The state (42_transfer.md R160) -/

theorem ctrl_eq_idle_iff : s.ctrl = .idle ↔ s.active = false := by
  unfold State.ctrl
  split_ifs <;> simp [*]

theorem ctrl_eq_kicked_iff : s.ctrl = .kicked ↔ s.active = true ∧ s.pending = 0 := by
  unfold State.ctrl
  split_ifs <;> simp_all

theorem ctrl_eq_busy_iff : s.ctrl = .busy ↔ s.active = true ∧ s.pending ≠ 0 ∧ 0 < s.remaining := by
  unfold State.ctrl
  split_ifs <;> simp_all

theorem ctrl_eq_done_iff : s.ctrl = .done ↔ s.active = true ∧ s.pending ≠ 0 ∧ s.remaining = 0 := by
  unfold State.ctrl
  split_ifs <;> simp_all
  omega

/-- Only a BUSY controller has samples left to move (42_transfer.md R171). -/
theorem remaining_eq_zero_of_ctrl (h : s.Inv) (hctrl : s.ctrl ≠ .busy) : s.remaining = 0 := by
  obtain ⟨-, -, -, ⟨-, hidle, hrem, -⟩, -⟩ := h
  by_contra hpos
  have hact : s.active = true := Bool.of_not_eq_false fun hoff => hpos (hidle hoff).2
  exact hctrl (ctrl_eq_busy_iff.mpr ⟨hact, by omega, by omega⟩)

theorem ctrl_of_datapathReset (h : s.DatapathReset t) : t.ctrl = .idle := by
  obtain ⟨-, -, -, -, -, -, hact, -⟩ := h
  exact ctrl_eq_idle_iff.mpr hact

/-! ## The choice of the action (42_transfer.md R162) -/

theorem action_eq_engineXfer_iff : s.action = .engineXfer ↔ s.trig = true ∧ 0 < s.remaining := by
  unfold State.action
  split_ifs <;> simp [*]

theorem action_eq_complete_iff :
    s.action = .complete ↔ ¬(s.trig = true ∧ 0 < s.remaining) ∧ s.cmplSig = true := by
  unfold State.action
  split_ifs <;> simp [*]

theorem action_eq_kick_iff :
    s.action = .kick ↔
      ¬(s.trig = true ∧ 0 < s.remaining) ∧ s.cmplSig = false ∧ s.active = false ∧ 0 < s.occR := by
  unfold State.action
  split_ifs <;> simp_all

theorem action_eq_none_iff :
    s.action = .none ↔
      ¬(s.trig = true ∧ 0 < s.remaining) ∧ s.cmplSig = false ∧ ¬(s.active = false ∧ 0 < s.occR) := by
  unfold State.action
  split_ifs <;> simp_all

/-- The completion signal stands only where the engine has no sample to move. -/
theorem not_xfer_of_cmplSig (hsig : s.cmplSig = true) : ¬(s.trig = true ∧ 0 < s.remaining) := by
  obtain ⟨-, hzero⟩ := (cmplSig_iff s).mp hsig
  exact fun ⟨_, hpos⟩ => hpos.ne' hzero

theorem action_eq_complete_iff_cmplSig : s.action = .complete ↔ s.cmplSig = true :=
  action_eq_complete_iff.trans (and_iff_right_of_imp not_xfer_of_cmplSig)

/-- Under the invariant the signal is enabled while the controller is active (10_state.md R50 (a)). -/
theorem cmplSig_iff_active (h : s.Inv) : s.cmplSig = true ↔ s.active = true ∧ s.remaining = 0 := by
  obtain ⟨-, -, -, ⟨hen, -⟩, -⟩ := h
  rw [cmplSig_iff, hen]

/-- An inactive controller has nothing to move or to complete (10_state.md R50). -/
theorem no_signal_of_inactive (h : s.Inv) (hact : s.active = false) :
    s.cmplSig = false ∧ ¬(s.trig = true ∧ 0 < s.remaining) := by
  have hzero : s.remaining = 0 := remaining_eq_zero_of_ctrl h (by simp [ctrl_eq_idle_iff.mpr hact])
  have hoff : ¬s.cmplSig = true := by simp [cmplSig_iff_active h, hact]
  exact ⟨Bool.eq_false_of_not_eq_true hoff, by simp [hzero]⟩

/-- Settles O39: the order is that of the choice; the signal needs `remaining` to be 0, the engine needs it positive, and an
inactive controller has neither. -/
theorem atMostOneControllerAction : Obligations.AtMostOneControllerAction := fun _ =>
  ⟨action_eq_engineXfer_iff, action_eq_complete_iff, action_eq_kick_iff,
    fun ⟨hxfer, hsig⟩ => not_xfer_of_cmplSig hsig hxfer, no_signal_of_inactive⟩

/-! ## The edge that takes COMPLETE (42_transfer.md R165 to R167) -/

theorem readEdge_of_action {a : Action} (ha : s.action = a) :
    s.readEdge = s.readCrossing.timerTick.act a s.wptrR := by rw [State.readEdge, ha]

/-- With no chunk to arm COMPLETE takes its IDLE branch. -/
theorem readEdge_completeIdle (ha : s.action = .complete) (hk : s.nextChunk s.wptrR = 0) :
    s.readEdge = s.readCrossing.timerTick.completeIdle s.advancedRptr :=
  (readEdge_of_action ha).trans (if_pos hk)

/-- With a chunk to arm COMPLETE takes its ARM branch. -/
theorem readEdge_completeArm (ha : s.action = .complete) (hk : s.nextChunk s.wptrR ≠ 0) :
    s.readEdge = s.readCrossing.timerTick.completeArm s.advancedRptr (s.nextChunk s.wptrR) :=
  (readEdge_of_action ha).trans (if_neg hk)

/-- Settles O42: the IDLE branch clears the enable, the ARM branch leaves samples to move. -/
theorem completionIsTakenOnce : Obligations.CompletionIsTakenOnce := by
  intro s hsig
  have ha : s.action = .complete := action_eq_complete_iff_cmplSig.mpr hsig
  refine ⟨ha, ?_⟩
  rw [State.idleEdge]
  by_cases hk : s.nextChunk s.wptrR = 0
  · simp [readEdge_completeIdle ha hk, State.cmplSig]
  · simp [readEdge_completeArm ha hk, State.cmplSig, hk]

/-! ## The chunk (42_transfer.md R168) -/

/-- The data the read domain sees after the chunk in flight. -/
theorem diff_advancedRptr (h : s.Inv) : s.cfg.diff s.wptrR s.advancedRptr = s.occR - s.pending := by
  obtain ⟨hf, -, -, ⟨-, -, -, -, -, -, hseen, -⟩, -⟩ := h
  have hview := State.wptrR_lt hf
  obtain ⟨-, -, hrptr, -⟩ := hf
  exact s.cfg.diff_padd_right hview hrptr hseen

theorem nextChunk_le (h : s.Inv) :
    s.nextChunk s.wptrR ≤ s.cfg.maxChunk ∧ s.nextChunk s.wptrR ≤ s.cfg.N - s.cfg.idx s.advancedRptr ∧
      s.nextChunk s.wptrR ≤ s.cfg.diff s.wptrR s.advancedRptr := by
  have hrun : s.nextChunk s.wptrR ≤ s.cfg.crun s.advancedRptr s.wptrR := Nat.min_le_left ..
  have hend := s.cfg.idx_add_crun_le s.advancedRptr s.wptrR
  have hdata := s.cfg.crun_le_diff (s.cfg.padd_lt s.rptr s.pending) (State.wptrR_lt h.1)
  exact ⟨Nat.min_le_right .., hrun.trans (Nat.le_sub_of_add_le' hend), hrun.trans hdata⟩

/-- A COMPLETE arms nothing exactly where the chunk in flight is all that the read domain sees. -/
theorem nextChunk_eq_zero_iff (h : s.Inv) : s.nextChunk s.wptrR = 0 ↔ s.occR = s.pending := by
  have hadv := s.cfg.padd_lt s.rptr s.pending
  have hview := State.wptrR_lt h.1
  have hrest := diff_advancedRptr h
  obtain ⟨-, -, -, ⟨-, -, -, -, -, -, hseen, -⟩, -⟩ := h
  have hmax := s.cfg.maxChunk_pos
  calc s.nextChunk s.wptrR = 0 ↔ s.cfg.crun s.advancedRptr s.wptrR = 0 := by unfold State.nextChunk; omega
    _ ↔ s.wptrR = s.advancedRptr := s.cfg.crun_eq_zero_iff hadv hview
    _ ↔ s.cfg.diff s.wptrR s.advancedRptr = 0 := (s.cfg.diff_eq_zero_iff hview hadv).symm
    _ ↔ s.occR = s.pending := by omega

/-- Settles O41: the chunk is the readable run, cut at MAX_CHUNK, and the run ends at the array end and at the view. -/
theorem armedChunkIsBounded : Obligations.ArmedChunkIsBounded := by
  intro s t h ht ha
  obtain ⟨hmax, harray, hdata⟩ := nextChunk_le h
  have hocc : s.cfg.diff s.wptrR s.advancedRptr ≤ s.occR := (diff_advancedRptr h).trans_le (Nat.sub_le ..)
  obtain ⟨-, -, -, ⟨-, -, -, hpend, -⟩, -⟩ := h
  rw [State.idleEdge] at ht
  by_cases hk : s.nextChunk s.wptrR = 0
  · rw [readEdge_completeIdle ha hk] at ht
    subst ht
    exact ⟨rfl, hpend, fun hpos => absurd hpos (lt_irrefl 0)⟩
  · rw [readEdge_completeArm ha hk] at ht
    subst ht
    exact ⟨rfl, hpend, fun hpos => ⟨hpos, rfl, hmax, harray, hdata, hdata.trans hocc, rfl⟩⟩

/-! ## Underrun (42_transfer.md R171) -/

/-- A chunk that is finished leaves the engine at the index where the next one begins. -/
theorem eaddr_eq_idx_advancedRptr (h : s.Inv) (hzero : s.remaining = 0) : s.eaddr = s.cfg.idx s.advancedRptr := by
  obtain ⟨-, -, -, ⟨-, -, -, -, headdr, -⟩, -⟩ := h
  rw [headdr, hzero, Nat.sub_zero]
  exact (s.cfg.idx_padd ..).symm

theorem readEdge_keeps_converter (h : s.Inv) (hzero : s.remaining = 0) :
    s.SameConverter s.readEdge ∧ s.readEdge.eaddr = s.eaddr := by
  rcases readEdge_cases s with ⟨⟨-, hpos⟩, -⟩ | ⟨-, -, -, ⟨-, e⟩ | ⟨-, e⟩⟩ | ⟨-, -, -, -, e⟩ | ⟨-, -, -, -, e⟩
  · exact absurd hzero hpos.ne'
  all_goals rw [e]
  · exact ⟨⟨rfl, rfl⟩, rfl⟩
  · exact ⟨⟨rfl, rfl⟩, (eaddr_eq_idx_advancedRptr h hzero).symm⟩
  · exact ⟨⟨rfl, rfl⟩, rfl⟩
  · exact ⟨⟨rfl, rfl⟩, rfl⟩

/-- Settles O43: without ENGINE_XFER the converter rests, and a COMPLETE programs the engine with the index it stands at. -/
theorem underrunHoldsTheConverter : Obligations.UnderrunHoldsTheConverter := by
  refine ⟨fun s h hzero => ?_, fun s h hctrl => ?_, fun s hstop => by simp [State.trig, hstop]⟩
  · obtain ⟨-, herr, -, hflog⟩ := readEdge_frame s
    obtain ⟨hconv, headdr⟩ := readEdge_keeps_converter h hzero
    exact ⟨hconv, headdr, hflog, herr⟩
  · exact remaining_eq_zero_of_ctrl h (by rcases hctrl with e | e | e <;> simp [e])

end Sys2Proof.Machine
end

section
/-! The rows of the controller's transition table (42_transfer.md R174): from each state, the action and the next state. -/

namespace Sys2Proof.Machine

variable {s t : State}

theorem idle_rests (h : s.Inv) (hctrl : s.ctrl = .idle) (hocc : s.occR = 0) :
    s.action = .none ∧ s.readEdge.ctrl = .idle := by
  have hact := ctrl_eq_idle_iff.mp hctrl
  obtain ⟨hsig, hxfer⟩ := no_signal_of_inactive h hact
  have ha : s.action = .none := action_eq_none_iff.mpr ⟨hxfer, hsig, by simp [hocc]⟩
  rw [readEdge_of_action ha]
  exact ⟨ha, hctrl⟩

theorem idle_kicks (h : s.Inv) (hctrl : s.ctrl = .idle) (hocc : 0 < s.occR) :
    s.action = .kick ∧ s.readEdge.ctrl = .kicked := by
  have hact := ctrl_eq_idle_iff.mp hctrl
  obtain ⟨hsig, hxfer⟩ := no_signal_of_inactive h hact
  have ha : s.action = .kick := action_eq_kick_iff.mpr ⟨hxfer, hsig, hact, hocc⟩
  obtain ⟨-, -, -, ⟨-, hidle, -⟩, -⟩ := h
  rw [readEdge_of_action ha]
  exact ⟨ha, ctrl_eq_kicked_iff.mpr ⟨rfl, (hidle hact).1⟩⟩

/-- Nothing is left to move and the controller is active: KICKED and DONE complete. -/
theorem active_completes (h : s.Inv) (hact : s.active = true) (hzero : s.remaining = 0) : s.action = .complete :=
  action_eq_complete_iff_cmplSig.mpr ((cmplSig_iff_active h).mpr ⟨hact, hzero⟩)

/-- A COMPLETE with a chunk to arm ends in BUSY. -/
theorem complete_arms (hact : s.active = true) (ha : s.action = .complete) (hk : 0 < s.nextChunk s.wptrR) :
    s.readEdge.pending = s.nextChunk s.wptrR ∧ s.readEdge.ctrl = .busy := by
  rw [readEdge_completeArm ha hk.ne']
  exact ⟨rfl, ctrl_eq_busy_iff.mpr ⟨hact, hk.ne', hk⟩⟩

/-- The synthetic completion of KICKED, whose chunk is never empty (42_transfer.md R164). -/
theorem kicked_completes (h : s.Inv) (hctrl : s.ctrl = .kicked) :
    s.action = .complete ∧ s.pending = 0 ∧ 1 ≤ s.nextChunk s.wptrR ∧
      s.readEdge.pending = s.nextChunk s.wptrR ∧ s.readEdge.ctrl = .busy := by
  obtain ⟨hact, hpend⟩ := ctrl_eq_kicked_iff.mp hctrl
  have ha := active_completes h hact (remaining_eq_zero_of_ctrl h (by simp [hctrl]))
  have hempty := nextChunk_eq_zero_iff h
  obtain ⟨-, -, -, ⟨-, -, -, -, -, -, -, hkick⟩, -⟩ := h
  have hocc := hkick hact hpend
  have hk : 0 < s.nextChunk s.wptrR := by omega
  exact ⟨ha, hpend, hk, complete_arms hact ha hk⟩

theorem busy_rests (hctrl : s.ctrl = .busy) (htrig : s.trig = false) :
    s.action = .none ∧ s.readEdge.ctrl = .busy := by
  obtain ⟨hact, -, hpos⟩ := ctrl_eq_busy_iff.mp hctrl
  have ha : s.action = .none :=
    action_eq_none_iff.mpr ⟨by simp [htrig], by simp [State.cmplSig, hpos.ne'], by simp [hact]⟩
  rw [readEdge_of_action ha]
  exact ⟨ha, hctrl⟩

/-- A trigger moves a sample, and BUSY ends in DONE with its last one. -/
theorem busy_moves (hctrl : s.ctrl = .busy) (htrig : s.trig = true) :
    s.action = .engineXfer ∧ (1 < s.remaining → s.readEdge.ctrl = .busy) ∧
      (s.remaining = 1 → s.readEdge.ctrl = .done) := by
  obtain ⟨hact, hpend, hpos⟩ := ctrl_eq_busy_iff.mp hctrl
  have ha : s.action = .engineXfer := action_eq_engineXfer_iff.mpr ⟨htrig, hpos⟩
  rw [readEdge_of_action ha]
  exact ⟨ha, fun hmore => ctrl_eq_busy_iff.mpr ⟨hact, hpend, Nat.sub_pos_of_lt hmore⟩,
    fun hlast => ctrl_eq_done_iff.mpr ⟨hact, hpend, Nat.sub_eq_zero_of_le hlast.le⟩⟩

theorem done_completes (h : s.Inv) (hctrl : s.ctrl = .done) :
    s.action = .complete ∧
      (0 < s.nextChunk s.wptrR → s.readEdge.pending = s.nextChunk s.wptrR ∧ s.readEdge.ctrl = .busy) ∧
      (s.nextChunk s.wptrR = 0 → s.readEdge.ctrl = .idle) := by
  obtain ⟨hact, -, hzero⟩ := ctrl_eq_done_iff.mp hctrl
  have ha := active_completes h hact hzero
  refine ⟨ha, complete_arms hact ha, fun hk => ?_⟩
  rw [readEdge_completeIdle ha hk]
  exact ctrl_eq_idle_iff.mpr rfl

/-! ## The datapath resets -/

theorem datapathReset_of_stop (h : exec .stop s = .next t) : s.DatapathReset t := by
  obtain rfl := Host.Outcome.next.inj h
  exact dpreset_spec s

theorem datapathReset_of_init (h : exec .init s = .next t) : s.DatapathReset t := by
  obtain rfl := Host.Outcome.next.inj h
  exact dpreset_spec s

theorem datapathReset_of_start {f : Word} (hf : f ≠ 0) (h : exec (.start f) s = .next t) : s.DatapathReset t := by
  rw [exec, execStart, if_neg hf] at h
  obtain rfl := Host.Outcome.next.inj h
  exact dpreset_spec s

/-- Settles O40, row by row; a reset leaves the controller inactive. -/
theorem controllerTransitionTable : Obligations.ControllerTransitionTable := by
  intro s h
  have hreset {t : State} (hr : s.DatapathReset t) : s.DatapathReset t ∧ t.ctrl = .idle := ⟨hr, ctrl_of_datapathReset hr⟩
  exact ⟨idle_rests h, idle_kicks h, kicked_completes h, busy_rests,
    fun hbusy htrig hmore => (busy_moves hbusy htrig).imp_right fun ⟨hstays, _⟩ => hstays hmore,
    fun hbusy htrig hlast => (busy_moves hbusy htrig).imp_right fun ⟨_, hends⟩ => hends hlast,
    fun hdone hk => (done_completes h hdone).imp_right fun ⟨harms, _⟩ => harms hk,
    fun hdone hk => (done_completes h hdone).imp_right fun ⟨_, hends⟩ => hends hk,
    fun _ ht => hreset (datapathReset_of_stop ht), fun _ ht => hreset (datapathReset_of_init ht),
    fun _ _ hf ht => hreset (datapathReset_of_start hf ht)⟩

end Sys2Proof.Machine
end

section
/-! What an edge of either port does and leaves, with the answer a command gives (43_commands.md R190 to R192). -/

namespace Sys2Proof.Machine

variable {s t : State}

/-! ## The write edge (43_commands.md R190) -/

theorem writeEdge_frame (s : State) : s.WriteFrame s.writeEdge :=
  ⟨writeEdge_sameReadDomain s, rfl, rfl, rfl, rfl, rfl, rfl, rfl, rfl⟩

/-- A write edge without a command, the responses of its port aside. -/
def State.PlainWrite (s t : State) : Prop :=
  s.WriteCrossing t ∧ s.WriteFrame t ∧ t.wptr = s.wptr ∧ s.SameWriteErrors t ∧ s.SameMem t ∧ t.flog = s.flog

theorem plainWrite_writeEdge (s : State) : s.PlainWrite s.writeEdge :=
  ⟨writeEdge_crossing s, writeEdge_frame s, rfl, ⟨rfl, rfl⟩, writeEdge_mem s, rfl⟩

theorem State.PlainWrite.respond (h : s.PlainWrite t) (v : Word) : s.PlainWrite (t.respond .write v) := h

/-! ## The normal read edge (42_transfer.md R176) -/

/-- A normal read edge, the responses of its port aside. -/
def State.PlainRead (s t : State) : Prop :=
  s.NormalRead t ∧ s.ReadFrame t ∧ s.SameControlErrors t ∧ t.flog = s.flog

theorem plainRead_readEdge (s : State) : s.PlainRead s.readEdge := by
  obtain ⟨hframe, herr, -, hflog⟩ := readEdge_frame s
  exact ⟨readEdge_spec s, hframe, herr, hflog⟩

theorem State.PlainRead.respond (h : s.PlainRead t) (v : Word) : s.PlainRead (t.respond .control v) := h

/-- A fault beside it leaves an edge a normal read edge: it writes the error registers and the logs only. -/
theorem State.PlainRead.raiseFault (h : s.PlainRead t) (k : FaultKind) (w : Word) :
    s.NormalRead (t.raiseFault k .control w) ∧ s.ReadFrame (t.raiseFault k .control w) := by
  obtain ⟨hread, hframe, -⟩ := h
  cases k <;> exact ⟨hread, hframe⟩

/-! ## The datapath reset (43_commands.md R192) -/

theorem dpreset_frame (s : State) : s.ResetFrame s.dpreset :=
  ⟨fun _ => rfl, ⟨rfl, rfl⟩, ⟨rfl, rfl⟩, ⟨rfl, rfl, rfl⟩, rfl, rfl, rfl, rfl, rfl, rfl, rfl, rfl, rfl⟩

/-- After a datapath reset the write domain sees the whole buffer free. -/
theorem freeW_of_datapathReset (h : s.DatapathReset t) : t.freeW = t.cfg.N := by
  obtain ⟨hwptr, -, hrsync, -⟩ := h
  rw [State.freeW, State.rptrW, hwptr, hrsync, lastStage_replicate_zero, Config.bin_zero, t.cfg.diff_self 0 t.cfg.M_pos,
    Nat.sub_zero]

/-! ## The edge without a command -/

/-- An edge that is to consume nothing, or whose port has no word left, fetches nothing (log entry 10). -/
theorem State.fetch_eq_empty {e : Edge} (h : e.cmd = false ∨ s.words e.port = []) : s.fetch e = .empty := by
  unfold State.fetch
  rcases h with hcmd | hwords
  · rw [hcmd]
    rfl
  · rw [hwords]
    exact ite_self _

/-- Settles O23: such an edge fetches nothing, so the step is the edge of its port, without a response. -/
theorem stepWithoutCommandIsAPlainEdge : Obligations.StepWithoutCommandIsAPlainEdge := by
  rintro s ⟨p, cmd⟩ he hnone
  have hstep := step_of_fetch_empty (s := s) (he ▸ State.fetch_eq_empty hnone)
  rw [he] at hstep
  refine ⟨_, hstep, ?_⟩
  cases p with
  | write =>
    obtain ⟨hcross, hframe, hwptr, herr, hmem, hflog⟩ := plainWrite_writeEdge (s.moved .write 0)
    exact ⟨rfl, rfl, hflog, herr, ⟨rfl, rfl, rfl⟩, hcross, hframe, hwptr, hmem⟩
  | control =>
    obtain ⟨hread, hframe, herr, hflog⟩ := plainRead_readEdge (s.moved .control 0)
    obtain ⟨hwresp, hcresp⟩ := sameResponses_idleEdge (s.moved .control 0) .control
    have ⟨⟨_, _, _, hwerr⟩, _⟩ := hframe
    exact ⟨hwresp, hcresp, hflog, hwerr, herr, hread, hframe⟩

/-! ## NOP (43_commands.md R193) -/

/-- Settles O27: NOP is the edge of its port and the response 0. -/
theorem nopRespondsZero : Obligations.NopRespondsZero := by
  refine ⟨fun s => ⟨?_, ?_⟩, fun p => ⟨rfl, decode_encode_append [] (i := .nop p) rfl⟩,
    fun p w hop harg => illegalOn_of_reserved p (.inl ⟨hop ▸ List.mem_cons_self, by omega⟩)⟩
  · exact ⟨_, rfl, rfl, (plainWrite_writeEdge s).respond 0⟩
  · obtain ⟨-, hcresp⟩ := sameResponses_idleEdge s .control
    exact ⟨_, rfl, congrArg (· ++ [0]) hcresp, (plainRead_readEdge s).respond 0⟩

end Sys2Proof.Machine
end

section
/-! The commands of the write port: FEED, RDFREE, RDW (43_commands.md R194 to R196). -/

namespace Sys2Proof.Machine

variable {s : State}

/-! ## FEED -/

/-- A FEED that fits the write domain's free places stores its payload. -/
theorem exec_feed_of_le {count : BitVec 28} {data : List Word} (hlen : data.length = count.toNat)
    (hfree : count.toNat ≤ s.freeW) :
    exec (.feed count data) s = .next ((s.writeEdge.bufWrite (s.payload data)).respond .write 1) := by
  rw [exec, execFeed, if_neg (not_not.mpr hlen), if_pos hfree]

/-- A FEED that does not fit stores nothing. -/
theorem exec_feed_of_not_le {count : BitVec 28} {data : List Word} (hlen : data.length = count.toNat)
    (hfree : ¬count.toNat ≤ s.freeW) : exec (.feed count data) s = .next (s.writeEdge.respond .write 0) := by
  rw [exec, execFeed, if_neg (not_not.mpr hlen), if_neg hfree]

theorem length_payload (s : State) (data : List Word) : (s.payload data).length = data.length := List.length_map ..

/-- BUF_WRITE leaves every index that no sample's pointer names (20_memory.md R62). -/
theorem memRead_bufWrite_other {xs : List Sample} {i : Nat}
    (h : ∀ k < xs.length, s.cfg.idx i ≠ s.cfg.idx (s.wptr + k)) : (s.bufWrite xs).memRead i = s.memRead i := by
  rw [State.memRead, State.memRead, State.bufWrite_cfg, State.bufWrite_mem, find_writeSamples_other _ _ _ _ _ h]

/-- Sample k of a payload that fits the buffer reads back from `idx(wptr + k)` (30_encoding.md R83). -/
theorem toNat_memRead_bufWrite_payload {data : List Word} (hlen : data.length ≤ s.cfg.N) {k : Nat} {d : Word}
    (hd : data[k]? = some d) :
    ((s.bufWrite (s.payload data)).memRead (s.wptr + k)).toNat = d.toNat % 2 ^ s.cfg.W := by
  obtain ⟨hk, rfl⟩ := List.getElem?_eq_some_iff.mp hd
  rw [← length_payload s] at hlen hk
  rw [memRead_bufWrite_payload hlen hk, ← toNat_sampleOf]
  exact congrArg _ (List.getElem_map _)

/-- Settles O28: a FEED is the write edge, which moves no sample, and where COUNT fits the BUF_WRITE of its payload. -/
theorem feedStoresOrRefuses : Obligations.FeedStoresOrRefuses := by
  refine ⟨fun count data s hlen => ?_, fun count data => ?_⟩
  · obtain ⟨hcross, hframe, hwptr, herr, hmem, hflog⟩ := plainWrite_writeEdge s
    have hpay : (s.payload data).length = count.toNat := (length_payload s data).trans hlen
    by_cases hfree : count.toNat ≤ s.freeW
    · have hroom : data.length ≤ s.cfg.N := hlen.trans_le (hfree.trans (Nat.sub_le ..))
      refine ⟨_, exec_feed_of_le hlen hfree, hcross, hframe, herr, hflog, ?_⟩
      rw [if_pos hfree]
      refine ⟨rfl, congrArg (fun n => (s.wptr + n) % s.cfg.M) hpay,
        fun k d hd => toNat_memRead_bufWrite_payload (s := s.writeEdge) hroom hd, fun i hi => ?_⟩
      exact memRead_bufWrite_other (s := s.writeEdge) fun k hk => hi k (hk.trans_eq hpay)
    · refine ⟨_, exec_feed_of_not_le hlen hfree, hcross, hframe, herr, hflog, ?_⟩
      rw [if_neg hfree]
      exact ⟨rfl, hwptr, hmem⟩
  · have hcount := count.isLt
    have hword : (commandWord 0x1 count).toNat = 0x10000000 + count.toNat := commandWord_toNat ..
    exact ⟨_, hword, rfl, illegalOn_control_iff.mpr (by omega)⟩

/-! ## The readbacks -/

theorem toNat_zext32 {v : Nat} (h : v < 2 ^ 32) : (zext32 v).toNat = v := by
  rw [zext32, BitVec.toNat_ofNat, Nat.mod_eq_of_lt h]

/-- A response word holds a capacity (00_scope.md R6, R7). -/
theorem toNat_zext32_of_le_N (c : Config) {v : Nat} (h : v ≤ c.N) : (zext32 v).toNat = v := by
  have hN := c.N_le
  exact toNat_zext32 (by omega)

/-- A response word holds a pointer (00_scope.md R6, R7). -/
theorem toNat_zext32_of_lt_M (c : Config) {v : Nat} (h : v < c.M) : (zext32 v).toNat = v := by
  have hN := c.N_le
  have hM := c.M_eq
  exact toNat_zext32 (by omega)

/-- Settles O31: RDFREE is the write edge and a response that holds `free_w`, which is at most N. -/
theorem rdfreeRespondsFreeW : Obligations.RdfreeRespondsFreeW := by
  refine ⟨fun s => ?_, rfl, fun w hop => ⟨illegalOn_control_iff.mpr (by omega),
    fun hne => illegalOn_write_iff.mpr (by omega)⟩, fun s h => (viewsAreConservative s h).1⟩
  exact ⟨_, _, rfl, rfl, toNat_zext32_of_le_N s.cfg (Nat.sub_le ..), (plainWrite_writeEdge s).respond _⟩

/-- Settles O32: RDW is the write edge and a response that holds the register, whose width is at most 32. -/
theorem rdwRespondsItsRegister : Obligations.RdwRespondsItsRegister := by
  refine ⟨fun sel s hf => ⟨_, _, rfl, rfl, ?_, (plainWrite_writeEdge s).respond _⟩, rfl,
    fun w hop => ⟨illegalOn_control_iff.mpr (by omega), fun hlo => illegalOn_write_iff.mpr (by omega)⟩⟩
  have hview := State.rptrW_lt hf
  obtain ⟨hwptr, hwpub, -⟩ := hf
  cases sel with
  | wptr => exact toNat_zext32_of_lt_M s.cfg hwptr
  | wpub => exact toNat_zext32_of_lt_M s.cfg hwpub
  | rptrW => exact toNat_zext32_of_lt_M s.cfg hview
  | wstatus => exact (statusWordLayout s).2
  | lastWerr => rfl

end Sys2Proof.Machine
end

section
/-! The commands of the control port: INIT, START, STOP, RDC (43_commands.md R197 to R200). -/

namespace Sys2Proof.Machine

variable {s : State}

/-- Settles O33: the timer, `initd` and the response are none of what the datapath reset writes or its frame names. -/
theorem initResetsAndProgramsTheTimer : Obligations.InitResetsAndProgramsTheTimer :=
  ⟨fun s => ⟨_, rfl, dpreset_spec s, tprog_spec s _, rfl, rfl, dpreset_frame s⟩, rfl,
    fun _ hop => ⟨illegalOn_write_iff.mpr (by omega), fun hne => illegalOn_control_iff.mpr (by omega)⟩⟩

theorem exec_start_of_ne {f : Word} (hf : f ≠ 0) :
    exec (.start f) s = .next ((s.dpreset.tprog f.toNat).respond .control 0) := by rw [exec, execStart, if_neg hf]

theorem exec_start_zero (s : State) :
    exec (.start 0) s = .next (s.readEdge.raiseFault .zeroFrequency .control 0x90000000) := by
  rw [exec, execStart, if_pos rfl]

/-- Settles O34: a frequency above 0 resets the datapath and programs the timer; with 0 the fault adds its flag, word, response
and log entry to a normal read edge. -/
theorem startProgramsOrRefusesZero : Obligations.StartProgramsOrRefusesZero := by
  refine ⟨fun s => ⟨fun f hf => ?_, ?_⟩, fun f => rfl,
    fun w hop => ⟨illegalOn_write_iff.mpr (by omega), fun hne => illegalOn_control_iff.mpr (by omega)⟩⟩
  · exact ⟨_, exec_start_of_ne hf, dpreset_spec s, tprog_spec s _, rfl, rfl, dpreset_frame s⟩
  · obtain ⟨-, -, ⟨hill, -⟩, hflog⟩ := plainRead_readEdge s
    obtain ⟨-, hcresp⟩ := sameResponses_idleEdge s .control
    exact ⟨_, exec_start_zero s, rfl, hill, rfl, congrArg (· ++ [all1]) hcresp, congrArg (· ++ [_]) hflog,
      (plainRead_readEdge s).raiseFault ..⟩

/-- Settles O35: the reset is that of the ticked state, whose timer program it keeps, and frees the whole buffer for the next
FEED. -/
theorem stopResetsAndKeepsTheTimer : Obligations.StopResetsAndKeepsTheTimer := by
  refine ⟨fun s => ⟨_, rfl, timerTick_spec s, ⟨rfl, rfl, rfl⟩, dpreset_spec s, rfl, rfl, dpreset_frame s,
    fun count data hlen hN => ⟨_, exec_feed_of_le hlen ?_, ?_⟩⟩, rfl,
    fun w hop => ⟨illegalOn_write_iff.mpr (by omega), fun hne => illegalOn_control_iff.mpr (by omega)⟩⟩
  · exact hN.trans_eq (freeW_of_datapathReset (t := s.timerTick.dpreset) (dpreset_spec s)).symm
  · rfl

/-- Settles O36: RDC is the normal read edge and a response that holds the register, whose width is at most 32. -/
theorem rdcRespondsItsRegister : Obligations.RdcRespondsItsRegister := by
  refine ⟨fun sel s h => ?_, rfl,
    fun w hop => ⟨illegalOn_write_iff.mpr (by omega), fun hlo => illegalOn_control_iff.mpr (by omega)⟩⟩
  obtain ⟨-, hcresp⟩ := sameResponses_idleEdge s .control
  refine ⟨_, _, rfl, congrArg (· ++ [_]) hcresp, ?_, (plainRead_readEdge s).respond _⟩
  obtain ⟨hf, -, -, ⟨-, -, hrem, hmax, -⟩, -⟩ := h
  have hview := State.wptrR_lt hf
  have hpend : s.pending ≤ s.cfg.N := hmax.trans s.cfg.maxChunk_le
  obtain ⟨-, -, hrptr, hrpub, -, -, -, -, headdr, -⟩ := hf
  cases sel with
  | rptr => exact toNat_zext32_of_lt_M s.cfg hrptr
  | rpub => exact toNat_zext32_of_lt_M s.cfg hrpub
  | wptrR => exact toNat_zext32_of_lt_M s.cfg hview
  | occR => exact toNat_zext32_of_lt_M s.cfg (s.cfg.diff_lt ..)
  | freeR => exact toNat_zext32_of_le_N s.cfg (Nat.sub_le ..)
  | pending => exact toNat_zext32_of_le_N s.cfg hpend
  | remaining => exact toNat_zext32_of_le_N s.cfg (hrem.trans hpend)
  | eaddr => exact toNat_zext32_of_le_N s.cfg headdr.le
  | status | tmrA | tmrB | tcnt | dout | lastCerr => rfl

end Sys2Proof.Machine
end

section
/-! The two faults: what an illegal word and a START of 0 do, and the error flags, error words and fault log at every step
(60_exceptions.md R230 to R236). -/

namespace Sys2Proof

/-- Operand words are missing exactly where the command is longer than the words the port holds. -/
theorem length_of_decode_truncated {p : Port} {ws : List Word} (h : decode p ws = .truncated) :
    ∃ w rest, ws = w :: rest ∧ ws.length < commandLength p w := by
  cases ws with
  | nil => cases h
  | cons w rest =>
    refine ⟨w, rest, rfl, ?_⟩
    unfold commandLength
    cases hd : headOf p w <;> simp only [decode, hd] at h
    case feed count =>
      split at h
      · cases h
      · simp only [Head.operands, List.length_cons]
        omega
    case start =>
      cases rest with
      | nil => exact Nat.lt_succ_self 1
      | cons f tail => cases h
    all_goals cases h

namespace Machine

variable {s t : State}

/-! ## The word an edge consumes -/

/-- An edge that consumes an illegal word fetches it as such. -/
theorem fetch_of_illegalOn {p : Port} {w : Word} {rest : List Word} (he : s.nextEdge = ⟨p, true⟩)
    (hw : s.words p = w :: rest) (hill : illegalOn p w) : ∃ why, s.fetch s.nextEdge = .illegal w why := by
  obtain ⟨why, hd⟩ := hill
  refine ⟨why, ?_⟩
  rw [he, State.fetch_consuming, hw]
  simp only [decode, hd]

theorem step_of_illegalOn {p : Port} {w : Word} {rest : List Word} (he : s.nextEdge = ⟨p, true⟩)
    (hw : s.words p = w :: rest) (hill : illegalOn p w) : step s = .next ((s.moved p 1).illegalEdge p w) := by
  obtain ⟨why, hf⟩ := fetch_of_illegalOn he hw hill
  rw [step_of_fetch_illegal hf, he]

theorem words_moved (s : State) (p : Port) (n : Nat) : (s.moved p n).words p = (s.words p).drop n := by
  cases p <;> exact List.drop_drop.symm

/-- What leaves the streams and positions leaves the words that stand on the ports. -/
theorem State.SameHost.words (h : s.SameHost t) (p : Port) : t.words p = s.words p := by
  obtain ⟨-, hws, hwp, hcs, hcp, -⟩ := h
  cases p
  · simp only [State.words, hws, hwp]
  · simp only [State.words, hcs, hcp]

/-- An edge that consumes one word leaves those after it. -/
theorem words_after_word {p : Port} {w : Word} {rest : List Word} (hw : s.words p = w :: rest)
    (h : (s.moved p 1).SameHost t) : t.words p = rest := by
  rw [h.words, words_moved, hw]
  rfl

/-! ## An illegal word (60_exceptions.md R231, R232) -/

/-- Settles O24: the fault writes its own registers and logs beside a plain write edge. -/
theorem illegalWordOnTheWritePort : Obligations.IllegalWordOnTheWritePort := by
  refine ⟨fun s w rest he hw hill => ?_, fun w hop => illegalOn_write_iff.mpr (by omega),
    fun w hlo hhi => illegalOn_write_iff.mpr (by omega), fun w hop => not_illegalOn_write_iff.mpr (by omega)⟩
  obtain ⟨hcross, hframe, hwptr, -, hmem, -⟩ := plainWrite_writeEdge (s.moved .write 1)
  have ⟨_, _, hhost⟩ := hframe
  exact ⟨_, step_of_illegalOn he hw hill, rfl, rfl, rfl, rfl, hcross, hframe, hwptr, hmem, words_after_word hw hhost⟩

/-- Settles O25: the fault writes its own registers and logs beside a normal read edge. -/
theorem illegalWordOnTheControlPort : Obligations.IllegalWordOnTheControlPort := by
  refine ⟨fun s w rest he hw hill => ?_, fun w hlo hhi => illegalOn_control_iff.mpr (by omega),
    fun w hlo hhi => illegalOn_control_iff.mpr (by omega), fun w hlo => illegalOn_control_iff.mpr (by omega)⟩
  have hplain := plainRead_readEdge (s.moved .control 1)
  obtain ⟨hread, hframe⟩ := hplain.raiseFault .illegalCommand w
  obtain ⟨-, hcresp⟩ := sameResponses_idleEdge (s.moved .control 1) .control
  obtain ⟨-, -, ⟨-, hfreq, -⟩, hflog⟩ := hplain
  have ⟨_, _, _, _, hhost⟩ := hframe
  have hstep : step s = .next ((s.moved .control 1).readEdge.raiseFault .illegalCommand .control w) :=
    step_of_illegalOn he hw hill
  exact ⟨_, hstep, rfl, (State.illegal_control_cerrFreq _ w).trans hfreq, rfl, congrArg (· ++ [all1]) hcresp,
    congrArg (· ++ [_]) hflog, hread, hframe, words_after_word hw hhost⟩

/-! ## The steps that stop (log entry 11), and the term no stream holds (log entry 12) -/

/-- Settles O26, by what the edge fetches: a fetched command is well-formed and completes, as do an illegal word and an edge that
fetches nothing; only a command cut short is refused. -/
theorem stepStopsOnlyOnMissingOperands : Obligations.StepStopsOnlyOnMissingOperands := by
  intro s
  cases hf : s.fetch s.nextEdge with
  | command i n =>
    obtain ⟨-, -, hwf⟩ := fetch_command hf
    obtain ⟨t, ht, -⟩ := exec_respondsOnce (s.moved s.nextEdge.port n) hwf
    exact .inl ⟨t, (step_of_fetch_command hf).trans ht⟩
  | illegal w why => exact .inl ⟨_, step_of_fetch_illegal hf⟩
  | empty => exact .inl ⟨_, step_of_fetch_empty hf⟩
  | truncated =>
    have hstep : step s = .refused (.truncatedCommand s.nextEdge.port) := by simp only [step, hf]
    rcases he : s.nextEdge with ⟨p, _ | _⟩ <;> rw [he] at hf hstep
    · cases hf
    · obtain ⟨w, rest, hwords, hshort⟩ := length_of_decode_truncated hf
      exact .inr ⟨p, w, rest, hstep, rfl, hwords, hshort⟩

/-- Settles O30: both tests compare the list's length with COUNT. -/
theorem malformedFeedIsRefused : Obligations.MalformedFeedIsRefused := by
  intro count data s hlen
  exact ⟨beq_eq_false_iff_ne.mpr hlen, by rw [exec, execFeed, if_pos hlen]⟩

/-! ## The error flags, the error words and the fault log (60_exceptions.md R230, R234, R236) -/

/-- No fault between two states: the error flags, the error words and the fault log are unchanged. -/
def State.SameFaults (s t : State) : Prop := s.SameWriteErrors t ∧ s.SameControlErrors t ∧ t.flog = s.flog

/-- An edge without a command raises no fault. -/
theorem sameFaults_idleEdge (s : State) (p : Port) (n : Nat) : s.SameFaults ((s.moved p n).idleEdge p) := by
  cases p with
  | write => exact ⟨⟨rfl, rfl⟩, ⟨rfl, rfl, rfl⟩, rfl⟩
  | control =>
    obtain ⟨-, ⟨⟨-, -, -, hwerr⟩, -⟩, hcerr, hflog⟩ := plainRead_readEdge (s.moved .control n)
    exact ⟨hwerr, hcerr, hflog⟩

theorem State.SameFaults.respond (h : s.SameFaults t) (p : Port) (v : Word) : s.SameFaults (t.respond p v) := by
  cases p <;> exact h

/-- The faults of a step that completes (60_exceptions.md R230): one of the two, raised from a state with the flags, words and
log of before, or none. -/
inductive FaultCase (s : State) : State → Prop
  | illegal (u : State) (p : Port) (w : Word) (why : IllegalReason) (hf : s.fetch s.nextEdge = .illegal w why)
    (hp : s.nextEdge.port = p) (hu : s.SameFaults u) : FaultCase s (u.raiseFault .illegalCommand p w)
  | zeroFrequency (u : State) (n : Nat) (hf : s.fetch s.nextEdge = .command (.start 0) n) (hu : s.SameFaults u) :
    FaultCase s (u.raiseFault .zeroFrequency .control 0x90000000)
  | none (t : State) (hill : ∀ w why, s.fetch s.nextEdge ≠ .illegal w why)
    (hzero : ∀ f n, s.fetch s.nextEdge = .command (.start f) n → f ≠ 0) (ht : s.SameFaults t) : FaultCase s t

/-- A step that fetches neither an illegal word nor a START of 0 raises no fault. -/
theorem sameFaults_of_step (h : step s = .next t) (hill : ∀ w why, s.fetch s.nextEdge ≠ .illegal w why)
    (hzero : ∀ f n, s.fetch s.nextEdge = .command (.start f) n → f ≠ 0) : s.SameFaults t := by
  cases stepCase_of_step h with
  | idle p => exact sameFaults_idleEdge s p 0
  | illegal p w why hf => exact absurd hf (hill w why)
  | answer p i n v => exact (sameFaults_idleEdge s p n).respond p v
  | zeroFrequency n hf => exact absurd rfl (hzero 0 n hf)
  | feed | stop | init | start => exact ⟨⟨rfl, rfl⟩, ⟨rfl, rfl, rfl⟩, rfl⟩

theorem faultCase_of_step (h : step s = .next t) : FaultCase s t := by
  by_cases hill : ∃ w why, s.fetch s.nextEdge = .illegal w why
  · obtain ⟨w, why, hf⟩ := hill
    obtain rfl := Host.Outcome.next.inj ((step_of_fetch_illegal hf).symm.trans h)
    exact .illegal _ _ w why hf rfl (sameFaults_idleEdge s _ 1)
  by_cases hzero : ∃ n, s.fetch s.nextEdge = .command (.start 0) n
  · obtain ⟨n, hf⟩ := hzero
    obtain ⟨hport, -⟩ := fetch_command hf
    rw [step_of_fetch_command hf, ← hport, exec_start_zero] at h
    obtain rfl := Host.Outcome.next.inj h
    exact .zeroFrequency _ n hf (sameFaults_idleEdge s .control n)
  · have hlegal : ∀ w why, s.fetch s.nextEdge ≠ .illegal w why := fun w why hf => hill ⟨w, why, hf⟩
    have hpos : ∀ f n, s.fetch s.nextEdge = .command (.start f) n → f ≠ 0 := fun f n hf h0 => hzero ⟨n, h0 ▸ hf⟩
    exact .none t hlegal hpos (sameFaults_of_step h hlegal hpos)

/-- Settles O51: a fault sets its flag and word and leaves the other port's; without a fault all rest. -/
theorem errorFlagsAreSticky : Obligations.ErrorFlagsAreSticky := by
  intro s t h
  cases faultCase_of_step h with
  | illegal u p w why hf hp hu =>
    obtain ⟨⟨hwill, hwlast⟩, ⟨hcill, hcfreq, hclast⟩, -⟩ := hu
    simp only [hf, hp]
    cases p with
    | write => exact ⟨fun _ => rfl, hcill.trans, hcfreq.trans, rfl, rfl, hcill, hcfreq, hclast⟩
    | control => exact ⟨hwill.trans, fun _ => rfl, hcfreq.trans, rfl, rfl, hcfreq, hwill, hwlast⟩
  | zeroFrequency u n hf hu =>
    obtain ⟨hwerr, ⟨hcill, -, -⟩, -⟩ := hu
    simp only [hf]
    have ⟨hwill, _⟩ := hwerr
    exact ⟨hwill.trans, hcill.trans, fun _ => rfl, hwerr, rfl, rfl, hcill⟩
  | none _ hill hzero ht =>
    obtain ⟨hwerr, hcerr, -⟩ := ht
    have ⟨hwill, _⟩ := hwerr
    have ⟨hcill, hcfreq, _⟩ := hcerr
    refine ⟨hwill.trans, hcill.trans, hcfreq.trans, ?_⟩
    split
    case h_1 w why hf => exact absurd hf (hill w why)
    case h_2 f n hf => exact ⟨hwerr, by rwa [if_neg (hzero f n hf)]⟩
    case h_3 => exact ⟨hwerr, hcerr⟩

/-- Settles O52: a fault adds its entry, and without a fault the log rests. -/
theorem faultLogRecordsEveryFault : Obligations.FaultLogRecordsEveryFault := by
  intro s t h
  cases faultCase_of_step h with
  | illegal u p w why hf hp hu =>
    obtain ⟨-, -, hflog⟩ := hu
    simp only [hf, hp]
    cases p <;> exact congrArg (· ++ [_]) hflog
  | zeroFrequency u n hf hu =>
    obtain ⟨-, -, hflog⟩ := hu
    simp only [hf]
    exact congrArg (· ++ [_]) hflog
  | none _ hill hzero ht =>
    obtain ⟨-, -, hflog⟩ := ht
    rw [hflog]
    split
    case h_1 w why hf => exact absurd hf (hill w why)
    case h_2 f n hf => rw [if_neg (hzero f n hf), List.append_nil]
    case h_3 => exact (List.append_nil _).symm

end Machine

end Sys2Proof
end

section
/-! The pacing timer: the divider, and the trigger edges of a programmed timer (60_exceptions.md R243 to R247). -/

namespace Sys2Proof.Machine

variable {s t : State}

/-! ## The divider (60_exceptions.md R245) -/

theorem divider_le (c : Config) (f : Nat) : divider c.cpuHz f ≤ 2 ^ 31 - 1 := by
  have hcpu := c.cpuHz_lt
  have hdiv : c.cpuHz / f ≤ c.cpuHz := Nat.div_le_self ..
  unfold divider
  omega

/-- Settles O45: a floor of a floor is the floor of the whole quotient, and half of a quotient below 2 is 0. -/
theorem dividerIsTheFloorOfTheHalfQuotient : Obligations.DividerIsTheFloorOfTheHalfQuotient := by
  intro c f _
  have hle := divider_le c f
  refine ⟨rfl, by rw [divider, Nat.div_div_eq_div_mul, Nat.mul_comm], hle, by omega, fun hlt => ?_, fun hone => ?_,
    fun hcpu => ?_⟩
  · rw [divider, Nat.div_eq_of_lt hlt]
  · rw [divider, hone]
  · rw [hcpu]
    decide

/-! ## The timer at the edges after its programming (60_exceptions.md R243, R246) -/

/-- The timer, `n` ticks after it was programmed with divider `d`: the prescaler halves the ticks, and the counter counts
the halves modulo d + 2. -/
structure State.TimerAt (t : State) (d n : Nat) : Prop where
  trun : t.trun = true
  tmrA : t.tmrA.toNat = d
  tmrB : t.tmrB.toNat = d + 1
  tpre : t.tpre = decide (n % 2 = 1)
  tcnt : t.tcnt.toNat = n / 2 % (d + 2)

theorem State.Programmed.timerAt {f : Nat} (h : s.Programmed t f) : t.TimerAt (s.cfg.cpuHz / f / 2) 0 := by
  obtain ⟨hA, hB, hcnt, hpre, hrun⟩ := h
  exact ⟨hrun, hA, hB, hpre, by simp [hcnt]⟩

/-- The counter's successor modulo q, by whether it stands at its last value. -/
theorem succ_mod_eq_ite (m d : Nat) :
    (m + 1) % (d + 2) = if d + 1 ≤ m % (d + 2) then 0 else m % (d + 2) + 1 := by
  have hlt := Nat.mod_lt m (show 0 < d + 2 by omega)
  rw [Nat.add_mod_eq_ite, Nat.mod_eq_of_lt (show 1 < d + 2 by omega)]
  split_ifs <;> omega

/-- A normal read edge is one tick of the timer. -/
theorem State.TimerAt.readEdge {d n : Nat} (h : t.TimerAt d n) : t.readEdge.TimerAt d (n + 1) := by
  obtain ⟨-, ⟨hpre, hcnt⟩, ⟨hrun, hA, hB⟩, -⟩ := readEdge_spec t
  rw [h.trun, h.tpre, h.tmrB, h.tcnt] at hcnt
  rw [if_pos h.trun, h.tpre] at hpre
  refine ⟨hrun.trans h.trun, hA ▸ h.tmrA, hB ▸ h.tmrB, ?_, ?_⟩
  · rw [hpre, ← decide_not, decide_eq_decide]
    omega
  · rw [hcnt]
    by_cases hodd : n % 2 = 1
    · have hhalf : (n + 1) / 2 = n / 2 + 1 := by omega
      simp [hodd, hhalf, succ_mod_eq_ite]
    · have hhalf : (n + 1) / 2 = n / 2 := by omega
      simp [hodd, hhalf]

theorem State.TimerAt.idleEdges {d : Nat} (h : t.TimerAt d 0) (n : Nat) : (t.idleEdges .control n).TimerAt d n := by
  induction n with
  | zero => exact h
  | succ n ih => exact ih.readEdge

theorem programmed_of_start {f : Word} (hf : f ≠ 0) (h : exec (.start f) s = .next t) : s.Programmed t f.toNat := by
  obtain rfl := Host.Outcome.next.inj ((exec_start_of_ne hf).symm.trans h)
  exact tprog_spec s f.toNat

theorem programmed_of_init (h : exec .init s = .next t) : s.Programmed t s.cfg.initFreqHz := by
  obtain rfl := Host.Outcome.next.inj h
  exact tprog_spec s s.cfg.initFreqHz

/-! ## The trigger (60_exceptions.md R244, R247) -/

/-- The timer triggers at the odd ticks whose half is d modulo d + 2. -/
theorem State.TimerAt.trig_iff {d n : Nat} (h : t.TimerAt d n) :
    t.trig = true ↔ n % 2 = 1 ∧ n / 2 % (d + 2) = d := by
  rw [Machine.trig_iff, h.tpre, ← BitVec.toNat_inj, h.tcnt, h.tmrA, decide_eq_true_iff]
  exact and_iff_right h.trun

theorem mod_eq_iff_sub_mod_eq_zero {m d q : Nat} (hd : d < q) : m % q = d ↔ d ≤ m ∧ (m - d) % q = 0 := by
  constructor
  · rintro rfl
    exact ⟨Nat.mod_le m q, Nat.sub_mod_eq_zero_of_mod_eq (Nat.mod_mod m q).symm⟩
  · rintro ⟨hle, hzero⟩
    have hmod : d ≡ m [MOD q] := (Nat.modEq_iff_dvd' hle).mpr (Nat.dvd_of_mod_eq_zero hzero)
    exact Eq.trans hmod.symm (Nat.mod_eq_of_lt hd)

/-- The odd ticks whose half is d modulo d + 2, counted from the first of them. -/
theorem trigger_tick_iff (n d : Nat) :
    n % 2 = 1 ∧ n / 2 % (d + 2) = d ↔ 2 * (d + 1) ≤ n + 1 ∧ (n + 1 - 2 * (d + 1)) % (2 * (d + 2)) = 0 := by
  rw [mod_eq_iff_sub_mod_eq_zero (Nat.lt_add_of_pos_right Nat.two_pos), Nat.mod_mul]
  have hhalf : (n + 1 - 2 * (d + 1)) / 2 = (n + 1) / 2 - (d + 1) := Nat.sub_mul_div ..
  by_cases hodd : n % 2 = 1
  · have hsame : (n + 1) / 2 - (d + 1) = n / 2 - d := by omega
    rw [hhalf, hsame]
    omega
  · omega

/-- Settles O46: START and INIT program the timer, and the read edge n + 1 finds it n ticks later. -/
theorem triggerPeriod : Obligations.TriggerPeriod := by
  intro s t n d h
  have hat : t.TimerAt d 0 := by
    rcases h with ⟨f, hf, hstart, rfl⟩ | ⟨hinit, rfl⟩
    · exact (programmed_of_start hf hstart).timerAt
    · exact (programmed_of_init hinit).timerAt
  exact (hat.idleEdges n).trig_iff.trans (trigger_tick_iff n d)

end Sys2Proof.Machine
end

section
/-! The samples from one datapath reset to the next (43_commands.md R192, 70_reset_and_hazards.md R276, R280, R282, R287). -/

namespace Sys2Proof.Machine

variable {s t : State}

/-- Settles O29: the write domain never counts more than N places free. -/
theorem feedLargerThanTheBufferIsRefused : Obligations.FeedLargerThanTheBufferIsRefused := by
  intro count data s hlen hN
  have hfull : ¬count.toNat ≤ s.freeW := not_le.mpr ((Nat.sub_le ..).trans_lt hN)
  exact ⟨_, exec_feed_of_not_le hlen hfull, rfl, rfl, writeEdge_mem s⟩

/-! ## The datapath reset -/

theorem datapathReset_of_step (h : step s = .next t) (hr : s.resets = true) : s.DatapathReset t := by
  cases stepCase_of_step h with
  | idle _ hf | illegal _ _ _ hf | feed _ _ _ hf | zeroFrequency _ hf => simp [State.resets, hf] at hr
  | answer _ _ _ _ _ _ hanswer => simp [hanswer] at hr
  | stop | init | start => exact dpreset_spec s

/-- A power-on state is at the values of a datapath reset (10_state.md R53, R54). -/
theorem datapathReset_of_poweredOn (h : s.poweredOn) : s.DatapathReset s := by
  obtain ⟨c, ws, cs, es, rfl⟩ := h
  exact ⟨rfl, rfl, rfl, rfl, rfl, rfl, rfl, rfl, rfl, rfl, rfl⟩

theorem occupied_of_datapathReset (h : s.DatapathReset t) : t.occupied = 0 := by
  obtain ⟨hwptr, -, -, hrptr, -⟩ := h
  rw [State.occupied, hwptr, hrptr, t.cfg.diff_self 0 t.cfg.M_pos]

theorem occR_of_datapathReset (h : s.DatapathReset t) : t.occR = 0 := by
  obtain ⟨-, -, -, hrptr, -, hwsync, -⟩ := h
  rw [State.occR, State.wptrR, hrptr, hwsync, lastStage_replicate_zero, Config.bin_zero, t.cfg.diff_self 0 t.cfg.M_pos]

theorem unsent_of_datapathReset (h : s.DatapathReset t) : t.unsent = [] := by
  obtain ⟨hwptr, -, -, hrptr, -, -, -, -, hpend, -⟩ := h
  have hsent : t.sentTo = 0 := by rw [State.sentTo, hrptr, hpend, Nat.zero_sub]
  rw [State.unsent, hsent, hwptr, t.cfg.diff_self 0 t.cfg.M_pos]
  rfl

/-- Settles O57: with all pointers at 0 nothing is occupied, in truth or in a view; a reset writes neither the converter nor
the buffer. -/
theorem resetDiscardsTheUnsentSamples : Obligations.ResetDiscardsTheUnsentSamples := by
  intro s t h hr
  have hreset := datapathReset_of_step h hr
  obtain ⟨-, hcfg, -, -, ⟨hdout, hout⟩, hmem, -⟩ := reset_step_writers h hr
  refine ⟨unsent_of_datapathReset hreset, hout, hdout, hmem, ctrl_of_datapathReset hreset, ?_, ?_, ?_⟩
  · rw [State.freeTrue, occupied_of_datapathReset hreset, Nat.sub_zero, hcfg]
  · rw [freeW_of_datapathReset hreset, hcfg]
  · rw [State.freeR, occR_of_datapathReset hreset, Nat.sub_zero, hcfg]

/-! ## The FIFO property -/

/-- A run without a datapath reset adds to the sequence of samples what it accepts, and nothing else. -/
theorem samples_of_runsTo {k : Nat} (h : s.Inv) (hrun : runsTo k s t) (hr : noResetIn k s = true) :
    t.samples = s.samples ++ acceptedIn k s := by
  induction k generalizing s with
  | zero =>
    obtain rfl := (runsTo_zero s t).mp hrun
    exact (List.append_nil _).symm
  | succ k ih =>
    obtain ⟨u, hu, hrun⟩ := (runsTo_succ k s t).mp hrun
    rw [noResetIn_succ hu, Bool.and_eq_true_iff, Bool.not_eq_true'] at hr
    have hstep : u.samples = s.samples ++ s.accepts := everyStepKeepsTheSampleOrder s u h hu hr.1
    rw [ih (everyStepKeepsTheInvariant s u h hu) hrun hr.2, hstep, acceptedIn_succ hu, List.append_assoc]

theorem occupied_of_quiescent (h : s.Inv) (hq : s.quiescent) : s.occupied = 0 := by
  obtain ⟨-, hptr, -⟩ := hq
  obtain ⟨⟨hwptr, -⟩, -⟩ := h
  rw [State.occupied, hptr, s.cfg.diff_self _ hwptr]

/-- A quiescent datapath has no sample left to output. -/
theorem unsent_of_quiescent (h : s.Inv) (hq : s.quiescent) : s.unsent = [] := by
  rw [State.unsent, diff_sentTo h, occupied_of_quiescent h hq, Nat.zero_sub]
  rfl

/-- The first state of a FIFO run, a power-on state or one right after a reset, meets the invariant and has no sample left to
output. -/
theorem inv_and_unsent_of_start
    (h : s.poweredOn ∨ ∃ (j : Nat) (r q : State), r.poweredOn ∧ runsTo j r q ∧ q.resets = true ∧ step q = .next s) :
    s.Inv ∧ s.unsent = [] := by
  rcases h with hon | ⟨j, r, q, hon, hrun, hr, hq⟩
  · exact ⟨inv_of_poweredOn hon, unsent_of_datapathReset (datapathReset_of_poweredOn hon)⟩
  · have hinv : q.Inv := runsTo_keeps everyStepKeepsTheInvariant (inv_of_poweredOn hon) hrun
    exact ⟨everyStepKeepsTheInvariant q s hinv hq, unsent_of_datapathReset (datapathReset_of_step hq hr)⟩

/-- Settles O59: with nothing unsent at its start, the samples a run outputs and those it leaves unsent are together what it
accepts. -/
theorem outputIsAPrefixOfTheAcceptedPayloads : Obligations.OutputIsAPrefixOfTheAcceptedPayloads := by
  intro k s t hstart hrun hr
  obtain ⟨hinv, hnone⟩ := inv_and_unsent_of_start hstart
  have hsamples : t.out ++ t.unsent = s.out ++ acceptedIn k s := by
    have hrest := samples_of_runsTo hinv hrun hr
    rwa [State.samples, State.samples, hnone, List.append_nil] at hrest
  obtain ⟨⟨xs, hout⟩, -⟩ := logsOnlyGrow k s t hrun
  rw [← hout, List.append_assoc, List.append_cancel_left_eq] at hsamples
  refine ⟨⟨xs, hout.symm, t.unsent, hsamples⟩, fun ⟨_, _, hq⟩ => ?_⟩
  have hend := unsent_of_quiescent (runsTo_keeps everyStepKeepsTheInvariant hinv hrun) hq
  rw [← hout, ← hsamples, hend, List.append_nil]

end Sys2Proof.Machine
end

section
/-! A chunk in flight while the timer stands and while it runs (70_reset_and_hazards.md R277, R283). -/

namespace Sys2Proof.Machine

variable {s : State}

/-! ## The timer stands -/

/-- Settles O44: without a trigger BUSY has no action, and the rest of a read edge writes the crossing and the timer's count
only. -/
theorem stoppedTimerHoldsTheChunk : Obligations.StoppedTimerHoldsTheChunk := by
  intro s n _ hstop hbusy
  suffices h : (s.idleEdges .control n).trun = false ∧ s.SameController (s.idleEdges .control n) ∧
      s.SameConverter (s.idleEdges .control n) ∧ (s.idleEdges .control n).ctrl = .busy from h.2
  induction n with
  | zero => exact ⟨hstop, ⟨rfl, rfl, rfl, rfl, rfl, rfl⟩, ⟨rfl, rfl⟩, hbusy⟩
  | succ n ih =>
    have ⟨hstands, _, _, hstays⟩ := ih
    obtain ⟨hnone, -⟩ := busy_rests hstays (by simp [State.trig, hstands])
    rw [State.idleEdges, State.idleEdge, readEdge_of_action hnone]
    exact ih

/-! ## The timer runs -/

/-- The timer runs, and its counter and its trigger's value lie within one period of the count (60_exceptions.md R243, R244). -/
structure State.Paced (s : State) : Prop where
  trun : s.trun = true
  tcnt : s.tcnt.toNat ≤ s.tmrB.toNat
  tmrA : s.tmrA.toNat ≤ s.tmrB.toNat

/-- How many read edges pass before the one that finds the trigger: two for each step of the counter up to `tmr_a`, by way of
`tmr_b` where it is past `tmr_a`, and one where the prescaler is not at 1 (60_exceptions.md R243, R244). -/
def State.triggerWait (s : State) : Nat :=
  2 * (if s.tcnt.toNat ≤ s.tmrA.toNat then s.tmrA.toNat - s.tcnt.toNat
      else s.tmrB.toNat + 1 - s.tcnt.toNat + s.tmrA.toNat) +
    if s.tpre = true then 0 else 1

theorem State.Paced.triggerWait_lt (h : s.Paced) : s.triggerWait < 2 * (s.tmrB.toNat + 1) := by
  obtain ⟨-, hcnt, hA⟩ := h
  unfold State.triggerWait
  split_ifs <;> omega

theorem State.Paced.trig_iff (h : s.Paced) : s.trig = true ↔ s.triggerWait = 0 := by
  obtain ⟨hrun, hcnt, -⟩ := h
  rw [Machine.trig_iff, and_iff_right hrun, ← BitVec.toNat_inj]
  unfold State.triggerWait
  split_ifs <;> simp [*] <;> omega

/-- A read edge keeps the timer's pace and brings the trigger one edge nearer. -/
theorem State.Paced.readEdge (h : s.Paced) :
    s.readEdge.Paced ∧ (s.triggerWait ≠ 0 → s.readEdge.triggerWait + 1 = s.triggerWait) := by
  obtain ⟨hrun, hcnt, hA⟩ := h
  obtain ⟨-, ⟨hpre', hcnt'⟩, ⟨hrun', hA', hB'⟩, -⟩ := readEdge_spec s
  simp only [hrun, true_and, if_true] at hpre' hcnt'
  refine ⟨⟨hrun'.trans hrun, ?_, by rwa [hA', hB']⟩, ?_⟩
  · rw [hB', hcnt']
    split_ifs <;> omega
  · unfold State.triggerWait
    rw [hA', hB', hpre', hcnt']
    cases s.tpre
    · simp
    · simp only [if_true, Bool.not_true, Bool.false_eq_true, if_false]
      split_ifs <;> omega

/-- A trigger moves the next sample of the chunk in flight. -/
theorem readEdge_of_trig (htrig : s.trig = true) (hpos : 0 < s.remaining) :
    s.readEdge.out = s.out ++ [s.memRead s.eaddr] ∧ s.readEdge.remaining + 1 = s.remaining := by
  rw [readEdge_of_action (action_eq_engineXfer_iff.mpr ⟨htrig, hpos⟩)]
  exact ⟨rfl, Nat.sub_add_cancel hpos⟩

/-- Without a trigger the chunk in flight, its next sample and the output log rest. -/
theorem readEdge_of_not_trig (htrig : ¬s.trig = true) (hpos : 0 < s.remaining) :
    s.readEdge.remaining = s.remaining ∧ s.readEdge.memRead s.readEdge.eaddr = s.memRead s.eaddr ∧
      s.readEdge.out = s.out := by
  rcases readEdge_cases s with ⟨⟨h, -⟩, -⟩ | ⟨-, hsig, -⟩ | ⟨-, -, -, -, e⟩ | ⟨-, -, -, -, e⟩
  · exact absurd h htrig
  · exact absurd ((cmplSig_iff s).mp hsig).2 hpos.ne'
  all_goals rw [e]; exact ⟨rfl, rfl, rfl⟩

theorem State.idleEdges_succ (s : State) (p : Port) (n : Nat) : s.idleEdges p (n + 1) = (s.idleEdge p).idleEdges p n := by
  induction n with
  | zero => rfl
  | succ n ih => exact congrArg (State.idleEdge · p) ih

/-- The edge that finds the trigger, and none before it, moves the next sample. -/
theorem State.Paced.nextSample (h : s.Paced) (hpos : 0 < s.remaining) :
    (s.idleEdges .control (s.triggerWait + 1)).out = s.out ++ [s.memRead s.eaddr] ∧
      (s.idleEdges .control (s.triggerWait + 1)).remaining + 1 = s.remaining := by
  induction hn : s.triggerWait generalizing s with
  | zero => exact readEdge_of_trig (h.trig_iff.mpr hn) hpos
  | succ n ih =>
    have hwait : s.triggerWait ≠ 0 := hn ▸ n.succ_ne_zero
    obtain ⟨hpaced, hnearer⟩ := h.readEdge
    obtain ⟨hrem, hread, hout⟩ := readEdge_of_not_trig (mt h.trig_iff.mp hwait) hpos
    have hn' : s.readEdge.triggerWait = n := Nat.succ_injective ((hnearer hwait).trans hn)
    rw [State.idleEdges_succ, ← hrem, ← hread, ← hout]
    exact ih hpaced (hrem ▸ hpos) hn'

/-- Settles O47: the wait for the trigger, and the edge that finds it. -/
theorem nextSampleLeavesWithinATimerPeriod : Obligations.NextSampleLeavesWithinATimerPeriod := by
  intro s hrun hpos hcnt hA
  have hpaced : s.Paced := ⟨hrun, hcnt, hA⟩
  exact ⟨s.triggerWait + 1, Nat.le_add_left .., hpaced.triggerWait_lt, hpaced.nextSample hpos⟩

end Sys2Proof.Machine
end

section
/-! The edges of a quiescent datapath (70_reset_and_hazards.md R284). -/

namespace Sys2Proof

variable (c : Config)

/-- A pointer that is published rests. -/
theorem Config.publish_of_eq {p q : Nat} (h : p = q) : c.publish p q = p := if_neg (not_not.mpr h)

/-- A chain that holds one code throughout rests when it takes that code in. -/
theorem Config.shiftIn_of_forall_mem {g : Nat} {chain : List Nat} (hlen : chain.length = c.sSync)
    (h : ∀ x ∈ chain, x = g) : c.shiftIn g chain = chain := by
  rw [List.eq_replicate_iff.mpr ⟨hlen, h⟩, Config.shiftIn, ← List.replicate_succ, List.take_replicate,
    Nat.min_eq_left (Nat.le_succ _)]

namespace Machine

variable {s : State}

theorem writeEdge_of_quiescent (h : s.Inv) (hq : s.quiescent) : s.writeEdge = s := by
  obtain ⟨-, -, hwpub, -, -, hcodes⟩ := hq
  have hrsync : s.cfg.shiftIn (gray s.rpub) s.rsync = s.rsync :=
    s.cfg.shiftIn_of_forall_mem (chain_length h.1 .control) hcodes
  rw [State.writeEdge, hrsync, s.cfg.publish_of_eq hwpub]

theorem readCrossing_of_quiescent (h : s.Inv) (hq : s.quiescent) : s.readCrossing = s := by
  obtain ⟨-, -, -, hrpub, hcodes, -⟩ := hq
  have hwsync : s.cfg.shiftIn (gray s.wpub) s.wsync = s.wsync :=
    s.cfg.shiftIn_of_forall_mem (chain_length h.1 .write) hcodes
  rw [State.readCrossing, hwsync, s.cfg.publish_of_eq hrpub]

/-- A read edge of a quiescent datapath is a tick of the timer. -/
theorem readEdge_of_quiescent (h : s.Inv) (hq : s.quiescent) : s.readEdge = s.timerTick := by
  have hocc : s.occR = 0 := Nat.le_zero.mp ((occR_le_occupied h).trans_eq (occupied_of_quiescent h hq))
  have ⟨hctrl, _⟩ := hq
  obtain ⟨hnone, -⟩ := idle_rests h hctrl hocc
  rw [readEdge_of_action hnone, readCrossing_of_quiescent h hq]
  rfl

/-- Settles O60: a write edge changes nothing, and a read edge ticks the timer, which the datapath does not read. -/
theorem quiescentEdgesMoveTheTimerOnly : Obligations.QuiescentEdgesMoveTheTimerOnly := by
  intro s p h hq
  cases p with
  | write =>
    rw [State.idleEdge, writeEdge_of_quiescent h hq]
    exact ⟨rfl, hq, fun _ => rfl⟩
  | control =>
    rw [State.idleEdge, readEdge_of_quiescent h hq]
    exact ⟨rfl, hq, nofun⟩

end Machine

end Sys2Proof
end
